-- ==== Sys2Proof/Word.lean ====
section
/-! DEFINITION. The word types of the machine (rule R7): words and addresses of 32 bits, bytes of 8 bits. -/

namespace Sys2Proof

/-- A register value, an address or an instruction word: 32 bits, unsigned (R7). -/
abbrev Word := BitVec 32

/-- One byte of memory (R7, R37). -/
abbrev Byte := BitVec 8

end Sys2Proof
end

