-- ==== Sys2Proof/Syntax.lean ====
section
/-! DEFINITION. The syntax of the ARC CPU core: registers (R21), flags (R27) and one constructor of `Instr` per row of
spec/opcode_table.json. The ten instructions with a mode bit (R90) have two rows each: the register form is the
constructor that ends in `R`, the immediate form the one that ends in `I`. -/

namespace Sys2Proof

/-- The 14 register identifiers, in the order of their codes 0 to 13 (R21). -/
inductive RegId where
  | ax | bx | cx | dx | ex | fx | gx | hx
  | sp | bp | si | di
  | pc | flags
deriving DecidableEq, Repr

/-- The seven named flags of the FLAGS register (R27). -/
inductive Flag where
  | carry | zero | sign | interrupt | string | overflow | macroFlag
deriving DecidableEq, Repr

/-- One constructor per row of the opcode table. Register fields are register identifiers, the flag of SETF and CLRF
is a named flag; immediates and addresses are the raw fields of the word. -/
inductive Instr where
  -- moves (R120 to R126)
  | movi  (d : RegId) (imm : BitVec 16)
  | movwR (d s : RegId)
  | movwI (d : RegId) (imm : BitVec 16)
  | lodi  (d : RegId) (imm : BitVec 16)
  | lodw  (d : RegId) (addr : BitVec 16)
  | stri  (addr : BitVec 8) (imm : BitVec 16)
  | strwR (addr : BitVec 8) (s : RegId)
  | strwI (addr : BitVec 8) (imm : BitVec 16)
  -- stack (R140, R141)
  | pushR (s : RegId)
  | pushI (imm : BitVec 16)
  | pop   (d : RegId)
  | xcgh  (a b : RegId)
  -- float arithmetic (R155 to R160)
  | addwR (d s : RegId)
  | addwI (d : RegId) (imm : BitVec 16)
  | subwR (d s : RegId)
  | subwI (d : RegId) (imm : BitVec 16)
  | mulR  (d s : RegId)
  | mulI  (d : RegId) (imm : BitVec 16)
  | inc   (d : RegId)
  | dec   (d : RegId)
  | neg   (d : RegId)
  -- logic and compare (R172 to R176)
  | not   (d : RegId)
  | andR  (d s : RegId)
  | andI  (d : RegId) (imm : BitVec 16)
  | orR   (d s : RegId)
  | orI   (d : RegId) (imm : BitVec 16)
  | xorR  (d s : RegId)
  | xorI  (d : RegId) (imm : BitVec 16)
  | cmpwR (d s : RegId)
  | cmpwI (d : RegId) (imm : BitVec 16)
  -- control transfer (R190 to R201)
  | jmp   (target : BitVec 24)
  | call  (target : BitVec 24)
  | ret
  | je    (target : BitVec 24)
  | jne   (target : BitVec 24)
  | jgt   (target : BitVec 24)
  | jge   (target : BitVec 24)
  | jlt   (target : BitVec 24)
  | jle   (target : BitVec 24)
  | js    (target : BitVec 24)
  | jco   (target : BitVec 24)
  -- flags and system (R221 to R223)
  | setf  (f : Flag)
  | clrf  (f : Flag)
  | halt
deriving DecidableEq, Repr

end Sys2Proof
end

