-- ==== Sys2Proof/Config.lean ====
section
/-! DEFINITION. What an implementation fixes (R6, R8) and the open values of the spec. MEM_SIZE and FLAG_ID_MAP are
types of plain data here (a state holds their values, logs 2 and 3); LOGIC_CO and NAN_BITS are constants without a
value, so that a proof holds whatever they are (logs 4 and 5). -/

namespace Sys2Proof

/-- `MEM_SIZE`, the size of memory in bytes: 64 KiB to 8 MiB, a multiple of 1024 (R6). A size outside the range is a
configuration error that never reaches the core, so it is no value of this type. -/
structure MemSize where
  bytes : Nat
  legal : 65536 ≤ bytes ∧ bytes ≤ 8388608 ∧ bytes % 1024 = 0
deriving DecidableEq, Repr

/-- The default memory size, 64 KiB (R6). -/
def defaultMemSize : MemSize := ⟨65536, by decide⟩

/-- `FLAG_ID_MAP` (R220): a partial map from the 8-bit flag id of SETF and CLRF to a flag, as a list of pairs of which
the first that matches counts. A flag id maps to a named flag or to none, so no map reaches one of the 25 unnamed
bits of FLAGS. -/
abbrev FlagIdMap := List (BitVec 8 × Flag)

/-- The operation of a logic instruction, an argument of `LOGIC_CO` (R171). -/
inductive LogicOp where
  | not | and | or | xor
deriving DecidableEq, Repr

/-- The operations of the float unit whose result can be a NaN (R151, R154). -/
inductive FloatOp where
  | add | sub | mul
deriving DecidableEq, Repr

/-- `LOGIC_CO` (R171), open: carry and overflow after NOT, AND, OR, XOR as a function of the operation, the operands
(the second is absent for NOT) and the result. It has no value that a proof can see (log 4). -/
opaque Config.logicCO : LogicOp → Word → Option Word → Word → Bool × Bool

/-- `NAN_BITS` (R154), open and treated as a draw: the sign and the fraction field drawn for the `n`-th NaN result, from
the operation and its operands. Operations turn it into a NaN encoding; it has no value that a proof can see (log 5). -/
opaque Config.nanDraw : Nat → FloatOp → Word → Word → Bool × BitVec 23

end Sys2Proof
end

