-- ==== Sys2Proof/WellFormed.lean ====
section
/-! DEFINITION. Which instruction terms have an encoding. Every register, flag and address field takes every value of its
type; the one restriction is R90: in the formats RM, AM and PM bit 0 of the immediate is the mode bit and is 0, so an
immediate of these formats is even. -/

namespace Sys2Proof

/-- An immediate of a format with a mode bit has bit 0 clear (R90). -/
def evenImm (imm : BitVec 16) : Bool := !imm.getLsbD 0

/-- `i` is an instruction that some word encodes (R90, R105). -/
def Instr.wellFormed (i : Instr) : Bool :=
  match i with
  | .movwI _ imm => evenImm imm
  | .strwI _ imm => evenImm imm
  | .pushI imm => evenImm imm
  | .addwI _ imm => evenImm imm
  | .subwI _ imm => evenImm imm
  | .mulI _ imm => evenImm imm
  | .andI _ imm => evenImm imm
  | .orI _ imm => evenImm imm
  | .xorI _ imm => evenImm imm
  | .cmpwI _ imm => evenImm imm
  | .movi _ _ => true
  | .movwR _ _ => true
  | .lodi _ _ => true
  | .lodw _ _ => true
  | .stri _ _ => true
  | .strwR _ _ => true
  | .pushR _ => true
  | .pop _ => true
  | .xcgh _ _ => true
  | .addwR _ _ => true
  | .subwR _ _ => true
  | .mulR _ _ => true
  | .inc _ => true
  | .dec _ => true
  | .neg _ => true
  | .not _ => true
  | .andR _ _ => true
  | .orR _ _ => true
  | .xorR _ _ => true
  | .cmpwR _ _ => true
  | .jmp _ => true
  | .call _ => true
  | .ret => true
  | .je _ => true
  | .jne _ => true
  | .jgt _ => true
  | .jge _ => true
  | .jlt _ => true
  | .jle _ => true
  | .js _ => true
  | .jco _ => true
  | .setf _ => true
  | .clrf _ => true
  | .halt => true

end Sys2Proof
end

