-- ==== Sys2Proof/Decode.lean ====
section
/-! DEFINITION. The decoder of rules R80 to R104 and, after it, the encoder of rule R105. The opcode byte selects the
instruction and its format (R83); the format's fields are taken out of the word once, here. A word that is no
instruction is rejected by name. -/

namespace Sys2Proof

-- ---------------------------------------------------------------- registers and flags

/-- The code 0 to 13 of a register (R21, log 13). -/
def RegId.code : RegId → Byte
  | .ax => 0 | .bx => 1 | .cx => 2 | .dx => 3 | .ex => 4 | .fx => 5 | .gx => 6 | .hx => 7
  | .sp => 8 | .bp => 9 | .si => 10 | .di => 11
  | .pc => 12 | .flags => 13

/-- All registers, in the order of their codes (R21). -/
def RegId.all : List RegId :=
  [.ax, .bx, .cx, .dx, .ex, .fx, .gx, .hx, .sp, .bp, .si, .di, .pc, .flags]

/-- The register a field of 8 bits names, if it names one: all 8 bits count, and 14 to 255 name none (R84). -/
def RegId.ofCode (c : Byte) : Option RegId := RegId.all.find? (fun r => r.code == c)

/-- The seven flags. -/
def Flag.all : List Flag := [.carry, .zero, .sign, .interrupt, .string, .overflow, .macroFlag]

/-- The bit position of a flag in FLAGS (R27). -/
def Flag.bit : Flag → Nat
  | .carry => 0 | .zero => 6 | .sign => 7 | .interrupt => 9 | .string => 10 | .overflow => 11 | .macroFlag => 12

/-- The default `FLAG_ID_MAP`: a flag id is the flag's bit position, every other id is none (R220, log 3). -/
def defaultFlagIds : FlagIdMap := Flag.all.map (fun f => (BitVec.ofNat 8 f.bit, f))

/-- The flag a flag id selects under a map, if any (R220). -/
def flagOfId (m : FlagIdMap) (id : BitVec 8) : Option Flag := (m.find? (fun p => p.1 == id)).map (·.2)

/-- A flag id that selects the flag under the map, if any: the value the assembler encodes (R105, R234). Where a map sends
several ids to one flag the spec does not say which of them is encoded; DESIGN CHOICE: the first id of the list (log 3). -/
def idOfFlag (m : FlagIdMap) (f : Flag) : Option (BitVec 8) :=
  (m.map (·.1)).find? (fun id => flagOfId m id == some f)

-- ---------------------------------------------------------------- opcodes

/-- The 34 mnemonics of R86, one per opcode value. -/
inductive Opcode where
  | movi | movw | lodi | lodw | stri | strw | push | pop | xcgh
  | addw | subw | mul | inc | dec | neg
  | not | and | or | xor | cmpw
  | jmp | call | ret | je | jne | jgt | jge | jlt | jle | js | jco
  | setf | clrf | halt
deriving DecidableEq, Repr

/-- All opcodes, in the order of R86. -/
def Opcode.all : List Opcode :=
  [.movi, .movw, .lodi, .lodw, .stri, .strw, .push, .pop, .xcgh,
   .addw, .subw, .mul, .inc, .dec, .neg,
   .not, .and, .or, .xor, .cmpw,
   .jmp, .call, .ret, .je, .jne, .jgt, .jge, .jlt, .jle, .js, .jco,
   .setf, .clrf, .halt]

/-- The opcode byte of R86; the jump group as R87 assigns it (log 13). -/
def Opcode.byte : Opcode → Byte
  | .movi => 0x01 | .movw => 0x02 | .lodi => 0x03 | .lodw => 0x04 | .stri => 0x05 | .strw => 0x06
  | .push => 0x07 | .pop => 0x08 | .xcgh => 0x09
  | .addw => 0x10 | .subw => 0x11 | .mul => 0x12 | .inc => 0x13 | .dec => 0x14 | .neg => 0x15
  | .not => 0x20 | .and => 0x21 | .or => 0x22 | .xor => 0x23 | .cmpw => 0x30
  | .jmp => 0x40 | .call => 0x41 | .ret => 0x42 | .je => 0x43 | .jne => 0x44 | .jgt => 0x45 | .jge => 0x46
  | .jlt => 0x47 | .jle => 0x48 | .js => 0x49 | .jco => 0x4A
  | .setf => 0x60 | .clrf => 0x61 | .halt => 0xFF

/-- The opcode with a given byte; none for the 222 illegal values (R83, R88). -/
def Opcode.ofByte (b : Byte) : Option Opcode := Opcode.all.find? (fun o => o.byte == b)

-- ---------------------------------------------------------------- fields of a word

/-- Bits 31 to 24 (R80). -/
def opcodeField (iw : Word) : Byte := iw.extractLsb' 24 8
/-- Bits 23 to 16: the first register or `addr8` (R91 to R98). -/
def hiField (iw : Word) : Byte := iw.extractLsb' 16 8
/-- Bits 15 to 8: the second register (R92, R95, R98). -/
def midField (iw : Word) : Byte := iw.extractLsb' 8 8
/-- Bits 7 to 0: the flag id (R101). -/
def loField (iw : Word) : Byte := iw.extractLsb' 0 8
/-- Bits 15 to 0: `imm16` or `addr16` (R91, R93, R102). -/
def immField (iw : Word) : BitVec 16 := iw.extractLsb' 0 16
/-- Bits 23 to 0: `addr24` (R99). -/
def targetField (iw : Word) : BitVec 24 := iw.extractLsb' 0 24
/-- Bit 0: the mode bit of RM, AM and PM; set for the register form (R90). -/
def modeBit (iw : Word) : Bool := iw.getLsbD 0

-- ---------------------------------------------------------------- decoding

/-- Why a word is no instruction (R83, R84, R220). -/
inductive Reject where
  /-- The opcode byte is none of the 34 of R86. -/
  | unknownOpcode (op : Byte)
  /-- A used register field holds 14 to 255, or the flag id maps to no flag. -/
  | invalidOperand (iw : Word)
deriving DecidableEq, Repr

/-- The register of a used register field, or the InvalidOperand rejection: `reg(c, iw)` of R84. -/
def regField (iw : Word) (c : Byte) : Except Reject RegId :=
  match RegId.ofCode c with
  | some r => .ok r
  | none => .error (.invalidOperand iw)

/-- The flag of SETF and CLRF, or the InvalidOperand rejection (R220, log 9). -/
def flagField (m : FlagIdMap) (iw : Word) : Except Reject Flag :=
  match flagOfId m (loField iw) with
  | some f => .ok f
  | none => .error (.invalidOperand iw)

/-- Format R: one register (R97). -/
def decodeR (mk : RegId → Instr) (iw : Word) : Except Reject Instr :=
  match regField iw (hiField iw) with
  | .ok d => .ok (mk d)
  | .error e => .error e

/-- Formats RI and RA: a register and 16 bits, without a mode bit (R91, R93). -/
def decodeRI (mk : RegId → BitVec 16 → Instr) (iw : Word) : Except Reject Instr :=
  decodeR (fun d => mk d (immField iw)) iw

/-- Format RR: two registers, without a mode bit (R98). -/
def decodeRR (mk : RegId → RegId → Instr) (iw : Word) : Except Reject Instr :=
  match regField iw (hiField iw) with
  | .error e => .error e
  | .ok a =>
    match regField iw (midField iw) with
    | .ok b => .ok (mk a b)
    | .error e => .error e

/-- Format RM: the mode bit selects a second register or an even immediate (R90, R92). -/
def decodeRM (mkR : RegId → RegId → Instr) (mkI : RegId → BitVec 16 → Instr) (iw : Word) : Except Reject Instr :=
  if modeBit iw then decodeRR mkR iw else decodeRI mkI iw

/-- Format AI: an address of 8 bits and an immediate (R94). -/
def decodeAI (mk : BitVec 8 → BitVec 16 → Instr) (iw : Word) : Except Reject Instr :=
  .ok (mk (hiField iw) (immField iw))

/-- Format AM: an address of 8 bits, then a register or an even immediate (R95). -/
def decodeAM (mkR : BitVec 8 → RegId → Instr) (mkI : BitVec 8 → BitVec 16 → Instr) (iw : Word) :
    Except Reject Instr :=
  if modeBit iw then
    match regField iw (midField iw) with
    | .ok s => .ok (mkR (hiField iw) s)
    | .error e => .error e
  else decodeAI mkI iw

/-- Format PM: the register is in bits 23 to 16; in the immediate form those bits are not looked at (R96). -/
def decodePM (mkR : RegId → Instr) (mkI : BitVec 16 → Instr) (iw : Word) : Except Reject Instr :=
  if modeBit iw then decodeR mkR iw else .ok (mkI (immField iw))

/-- Format J: an address of 24 bits (R99). -/
def decodeJ (mk : BitVec 24 → Instr) (iw : Word) : Except Reject Instr := .ok (mk (targetField iw))

/-- Format N: no operand; bits 23 to 0 are ignored (R100). -/
def decodeN (i : Instr) : Except Reject Instr := .ok i

/-- Format F: a flag id; bits 23 to 8 are ignored (R101). -/
def decodeF (m : FlagIdMap) (mk : Flag → Instr) (iw : Word) : Except Reject Instr :=
  match flagField m iw with
  | .ok f => .ok (mk f)
  | .error e => .error e

/-- The operands of a word whose opcode is known, by the format of R86. -/
def decodeOperands (m : FlagIdMap) (op : Opcode) (iw : Word) : Except Reject Instr :=
  match op with
  | .movi => decodeRI .movi iw
  | .movw => decodeRM .movwR .movwI iw
  | .lodi => decodeRI .lodi iw
  | .lodw => decodeRI .lodw iw
  | .stri => decodeAI .stri iw
  | .strw => decodeAM .strwR .strwI iw
  | .push => decodePM .pushR .pushI iw
  | .pop => decodeR .pop iw
  | .xcgh => decodeRR .xcgh iw
  | .addw => decodeRM .addwR .addwI iw
  | .subw => decodeRM .subwR .subwI iw
  | .mul => decodeRM .mulR .mulI iw
  | .inc => decodeR .inc iw
  | .dec => decodeR .dec iw
  | .neg => decodeR .neg iw
  | .not => decodeR .not iw
  | .and => decodeRM .andR .andI iw
  | .or => decodeRM .orR .orI iw
  | .xor => decodeRM .xorR .xorI iw
  | .cmpw => decodeRM .cmpwR .cmpwI iw
  | .jmp => decodeJ .jmp iw
  | .call => decodeJ .call iw
  | .ret => decodeN .ret
  | .je => decodeJ .je iw
  | .jne => decodeJ .jne iw
  | .jgt => decodeJ .jgt iw
  | .jge => decodeJ .jge iw
  | .jlt => decodeJ .jlt iw
  | .jle => decodeJ .jle iw
  | .js => decodeJ .js iw
  | .jco => decodeJ .jco iw
  | .setf => decodeF m .setf iw
  | .clrf => decodeF m .clrf iw
  | .halt => decodeN .halt

/-- The instruction of a word under a flag id map: the opcode is looked at first, then the operand fields (R81, R285). -/
def decode (m : FlagIdMap) (iw : Word) : Except Reject Instr :=
  match Opcode.ofByte (opcodeField iw) with
  | none => .error (.unknownOpcode (opcodeField iw))
  | some op => decodeOperands m op iw

-- ---------------------------------------------------------------- bytes

/-- The value of a list of bytes, the first the least significant (R51). -/
def leValue : List Byte → Nat
  | [] => 0
  | b :: bs => b.toNat + 256 * leValue bs

/-- The low `n` bytes of a value, the least significant first (R51). -/
def leBytes : Nat → Nat → List Byte
  | 0, _ => []
  | n + 1, v => BitVec.ofNat 8 v :: leBytes n (v / 256)

/-- Why a list of bytes gives no instruction. -/
inductive ByteReject where
  /-- There are fewer than the four bytes of an instruction (R80). -/
  | tooShort (n : Nat)
  /-- The four bytes are a word that is no instruction. -/
  | word (r : Reject)
deriving DecidableEq, Repr

/-- The instruction at the start of a list of bytes, and the bytes after it: every instruction is one little-endian
word of four bytes (R80). -/
def decodeBytes (m : FlagIdMap) (bs : List Byte) : Except ByteReject (Instr × List Byte) :=
  if bs.length < 4 then .error (.tooShort bs.length)
  else
    match decode m (BitVec.ofNat 32 (leValue (bs.take 4))) with
    | .ok i => .ok (i, bs.drop 4)
    | .error r => .error (.word r)

/-- The host's question: the instruction the decoder reads from the table word `w` of `nbits` bits, the bits above
`nbits` zero, laid out as four bytes in memory order, under the default flag id map. -/
def decodeTableWord (nbits w : Nat) : Option Instr :=
  match decodeBytes defaultFlagIds (leBytes 4 (w % 2 ^ nbits)) with
  | .ok (i, _) => some i
  | .error _ => none

-- ---------------------------------------------------------------- encoding

/-- A word of an opcode and three bytes, from bits 31 to 24 down (R80). -/
def packBytes (op : Opcode) (hi mid lo : Byte) : Word := op.byte ++ hi ++ mid ++ lo

/-- A word of an opcode, a byte and 16 bits (R91, R93, R94). -/
def packImm (op : Opcode) (hi : Byte) (imm : BitVec 16) : Word := op.byte ++ hi ++ imm

/-- A word of an opcode and 24 bits (R99). -/
def packTarget (op : Opcode) (t : BitVec 24) : Word := op.byte ++ t

/-- The canonical word of SETF and CLRF: a flag that no id selects has none (R101, R234). -/
def packFlag (m : FlagIdMap) (op : Opcode) (f : Flag) : Option Word :=
  match idOfFlag m f with
  | some id => some (packBytes op 0 0 id)
  | none => none

/-- The canonical word of an instruction: ignored bits are 0 and the register forms of RM, AM and PM have bit 0 set
(R105, R262). An instruction that is not well formed has no word (R263), nor has a flag that the map leaves out. -/
def encode (m : FlagIdMap) (i : Instr) : Option Word :=
  if i.wellFormed then
    match i with
    | .movi d imm => some (packImm .movi d.code imm)
    | .movwR d s => some (packBytes .movw d.code s.code 1)
    | .movwI d imm => some (packImm .movw d.code imm)
    | .lodi d imm => some (packImm .lodi d.code imm)
    | .lodw d a => some (packImm .lodw d.code a)
    | .stri a imm => some (packImm .stri a imm)
    | .strwR a s => some (packBytes .strw a s.code 1)
    | .strwI a imm => some (packImm .strw a imm)
    | .pushR s => some (packBytes .push s.code 0 1)
    | .pushI imm => some (packImm .push 0 imm)
    | .pop d => some (packBytes .pop d.code 0 0)
    | .xcgh a b => some (packBytes .xcgh a.code b.code 0)
    | .addwR d s => some (packBytes .addw d.code s.code 1)
    | .addwI d imm => some (packImm .addw d.code imm)
    | .subwR d s => some (packBytes .subw d.code s.code 1)
    | .subwI d imm => some (packImm .subw d.code imm)
    | .mulR d s => some (packBytes .mul d.code s.code 1)
    | .mulI d imm => some (packImm .mul d.code imm)
    | .inc d => some (packBytes .inc d.code 0 0)
    | .dec d => some (packBytes .dec d.code 0 0)
    | .neg d => some (packBytes .neg d.code 0 0)
    | .not d => some (packBytes .not d.code 0 0)
    | .andR d s => some (packBytes .and d.code s.code 1)
    | .andI d imm => some (packImm .and d.code imm)
    | .orR d s => some (packBytes .or d.code s.code 1)
    | .orI d imm => some (packImm .or d.code imm)
    | .xorR d s => some (packBytes .xor d.code s.code 1)
    | .xorI d imm => some (packImm .xor d.code imm)
    | .cmpwR d s => some (packBytes .cmpw d.code s.code 1)
    | .cmpwI d imm => some (packImm .cmpw d.code imm)
    | .jmp t => some (packTarget .jmp t)
    | .call t => some (packTarget .call t)
    | .ret => some (packBytes .ret 0 0 0)
    | .je t => some (packTarget .je t)
    | .jne t => some (packTarget .jne t)
    | .jgt t => some (packTarget .jgt t)
    | .jge t => some (packTarget .jge t)
    | .jlt t => some (packTarget .jlt t)
    | .jle t => some (packTarget .jle t)
    | .js t => some (packTarget .js t)
    | .jco t => some (packTarget .jco t)
    | .setf f => packFlag m .setf f
    | .clrf f => packFlag m .clrf f
    | .halt => some (packBytes .halt 0 0 0)
  else none

end Sys2Proof
end

