-- ==== Sys2Proof/Machine/Memory.lean ====
section
/-! DEFINITION. Memory as plain data (R37, R50): a list of (address, byte) pairs in one canonical form, addresses strictly
rising and no entry equal to what an unlisted address reads as, so that equal memories are equal lists. The bounds of
the address space are checked by the access operations of Machine/Ops.lean. -/

namespace Sys2Proof.Machine

/-- The listed bytes of memory. -/
abbrev Memory := List Host.Cell

/-- What an unlisted address reads as: reset leaves every byte outside the image 0x00 (R40, log 8). -/
def Memory.background : Byte := 0

/-- One byte of memory. -/
def Memory.readByte : Memory → Nat → Byte
  | [], _ => Memory.background
  | c :: m, a => if c.1 = a then c.2 else Memory.readByte m a

/-- Put a byte in front of a memory, unless it is what an unlisted address reads as anyway. -/
def Memory.consByte (a : Nat) (b : Byte) (m : Memory) : Memory :=
  if b = Memory.background then m else (a, b) :: m

/-- Write one byte and keep the canonical form. -/
def Memory.writeByte : Memory → Nat → Byte → Memory
  | [], a, b => Memory.consByte a b []
  | c :: m, a, b =>
    if a < c.1 then Memory.consByte a b (c :: m)
    else if a = c.1 then Memory.consByte a b m
    else c :: Memory.writeByte m a b

/-- The bytes at `a`, `a + 1`, …, `a + n - 1`. -/
def Memory.readBytes (m : Memory) (a : Nat) : Nat → List Byte
  | 0 => []
  | n + 1 => Memory.readByte m a :: Memory.readBytes m (a + 1) n

/-- Write a list of bytes at consecutive addresses: the block load of R54. -/
def Memory.writeBytes (m : Memory) (a : Nat) : List Byte → Memory
  | [] => m
  | b :: bs => Memory.writeBytes (Memory.writeByte m a b) (a + 1) bs

/-- Every listed address is above `a`, the addresses rise strictly and no entry is the background byte. -/
def Memory.wfFrom : Nat → Memory → Bool
  | _, [] => true
  | lo, c :: m => decide (lo ≤ c.1) && decide (c.2 ≠ Memory.background) && Memory.wfFrom (c.1 + 1) m

/-- The canonical form holds. -/
def Memory.wf (m : Memory) : Bool := Memory.wfFrom 0 m

/-- Every listed address is below `size`: the memory has no byte outside the address space (R50). -/
def Memory.within (size : Nat) (m : Memory) : Bool := m.all (fun c => decide (c.1 < size))

end Sys2Proof.Machine
end

