-- ==== Sys2Proof/Machine/State.lean ====
section
/-! DEFINITION. The whole state of the machine as plain data (10_state.md): the 14 registers (R20, R21), memory (R37), the
driver state (R35), the three status latches (R36), the two parameters that a step reads (R6, R220) and the model's
counter of NaN draws; the faults and refusals; the state after reset (R40). -/

namespace Sys2Proof.Machine

/-- The register file: 14 independent words; PC is code 12 and FLAGS is code 13 (R20, R21). -/
structure RegFile where
  ax : Word
  bx : Word
  cx : Word
  dx : Word
  ex : Word
  fx : Word
  gx : Word
  hx : Word
  sp : Word
  bp : Word
  si : Word
  di : Word
  pc : Word
  flags : Word
deriving DecidableEq, Repr

/-- The state of the execution driver (R35). -/
inductive DriverState where
  /-- The next step fetches and executes an instruction. -/
  | ready
  /-- A HALT has executed. -/
  | halted
  /-- A step has raised a fault. -/
  | faulted
deriving DecidableEq, Repr

/-- The values of `fault_cause` (R281). -/
inductive FaultCause where
  | none | outOfBounds | unknownOpcode | invalidOperand
deriving DecidableEq, Repr

/-- The three faults of the core with their datum (R280, R281). The spec describes how each is taken (R283), so a step
that raises one answers a NEXT state whose driver state is Faulted; no step of this model ends in the outcome
`.fault` (log 1). -/
inductive Fault where
  /-- Raised by a fetch, LODW, PUSH, POP, CALL or RET whose access reaches past the end of memory; the datum is the first
  address of the access (R52, R53). Safe: it is the spec's own fault, taken as a next state. -/
  | outOfBounds (addr : Word)
  /-- Raised by a step whose word has an opcode outside R86; the datum is the opcode (R83). Safe: it is the spec's own
  fault, taken as a next state. -/
  | unknownOpcode (op : Byte)
  /-- Raised by a step whose word has a used register field above 13 (R84) or an unmapped flag id (R220); the datum is the
  word. Safe: it is the spec's own fault, taken as a next state. -/
  | invalidOperand (iw : Word)
deriving DecidableEq, Repr

/-- Requests the model turns away. No instruction and no step is refused: the last four are the preconditions of
`reset_load` (R6, R311, R312, 93_implementation_defined.md U13, U14). -/
inductive Refusal where
  /-- Raised by an arm of `exec` whose instruction has no meaning yet; there is none. Safe. -/
  | notModelled (mnemonic : String)
  /-- Raised by `reset_load` for a memory size that R6 calls a configuration error. Safe: it never reaches the core. -/
  | memSizeIllegal
  /-- Raised by `reset_load` for a TEXT_START outside memory (R311). Safe: it is outside the operation's domain. -/
  | textStartOutside
  /-- Raised by `reset_load` for a STACK_START outside memory (R311). Safe: it is outside the operation's domain. -/
  | stackStartOutside
  /-- Raised by `reset_load` for an image with a write out of bounds (R312). Safe: it is outside the operation's domain. -/
  | imageOutside
deriving DecidableEq, Repr

/-- The state of the machine. -/
structure State where
  /-- The 14 registers, PC and FLAGS among them (R20). -/
  regs : RegFile
  /-- The bytes of memory (R37). -/
  mem : Memory
  /-- `MEM_SIZE`, fixed before reset (R6, log 2). -/
  memSize : MemSize
  /-- `FLAG_ID_MAP`, fixed before reset (R8, R220, log 3). -/
  flagIds : FlagIdMap
  /-- `state` (R35). -/
  driver : DriverState
  /-- `fault_cause` (R36). -/
  faultCause : FaultCause
  /-- `fault_info` (R36). -/
  faultInfo : Word
  /-- `already_halted` (R36). -/
  alreadyHalted : Bool
  /-- The model's own: how many NaN patterns have been drawn (log 6). -/
  draws : Nat
deriving DecidableEq, Repr

/-- The outcome of one step or one instruction. -/
abbrev Result := Host.Outcome State Fault Refusal

/-- The machine after `reset_load` with the default parameters and the empty image: the table of R40 (logs 7, 8, 10). -/
def State.reset : State where
  regs := { ax := 0, bx := 0, cx := 0, dx := 0, ex := 0, fx := 0, gx := 0, hx := 0,
            sp := 0x0000F000, bp := 0, si := 0, di := 0, pc := 0, flags := 0 }
  mem := []
  memSize := defaultMemSize
  flagIds := defaultFlagIds
  driver := .ready
  faultCause := .none
  faultInfo := 0
  alreadyHalted := false
  draws := 0

end Sys2Proof.Machine
end

