-- ==== Sys2Proof/Machine/Float.lean ====
section
/-! DEFINITION. The single-precision float datapath (R150 to R154, logs 5 and 11): binary32 patterns, their exact values,
rounding to nearest with ties to even, addition, subtraction, multiplication and negation. Values are computed exactly
on integers and narrowed once at the end. -/

namespace Sys2Proof.Machine

/-- What a binary32 pattern stands for (R150). A finite value is a sign and a magnitude counted in units of 2^-149, the
smallest subnormal, of which every finite binary32 number is a whole multiple. -/
inductive FloatValue where
  | nan
  | infinity (neg : Bool)
  | finite (neg : Bool) (units : Nat)
deriving DecidableEq, Repr

/-- A binary32 number with its layout (R150): every pattern is one, so that no bit is lost, not even of a NaN. -/
structure Binary32 where
  sign : Bool
  exponent : BitVec 8
  fraction : BitVec 23
deriving DecidableEq, Repr

/-- The reinterpretation of a pattern, which changes no bit (R150). -/
def binary32 (v : Word) : Binary32 := ⟨v.getLsbD 31, v.extractLsb' 23 8, v.extractLsb' 0 23⟩

/-- `bits(f)`, the inverse of the reinterpretation (R150). -/
def Binary32.bits (f : Binary32) : Word := BitVec.ofBool f.sign ++ f.exponent ++ f.fraction

/-- The biased exponent, bits 30 to 23 (R150). -/
def floatExponent (v : Word) : Nat := v.toNat / 2 ^ 23 % 256

/-- The fraction, bits 22 to 0 (R150). -/
def floatFraction (v : Word) : Nat := v.toNat % 2 ^ 23

/-- The sign, bit 31 (R150). -/
def floatSign (v : Word) : Bool := v.getLsbD 31

/-- The magnitude of a finite pattern in units of 2^-149: exponent 0 is a zero or a subnormal, any other exponent has the
hidden bit (R150). -/
def floatUnits (e f : Nat) : Nat := if e = 0 then f else (2 ^ 23 + f) * 2 ^ (e - 1)

/-- `f32(v)`: the value of a binary32 pattern (R150). -/
def f32 (v : Word) : FloatValue :=
  if floatExponent v = 255 then
    if floatFraction v = 0 then .infinity (floatSign v) else .nan
  else .finite (floatSign v) (floatUnits (floatExponent v) (floatFraction v))

/-- The pattern is a NaN: exponent 255 and a nonzero fraction (R150). -/
def isNaN (v : Word) : Bool := decide (floatExponent v = 255) && decide (floatFraction v ≠ 0)

/-- `r == 0.0`: true for both zeros, false for a NaN (R153). -/
def floatIsZero (v : Word) : Bool :=
  match f32 v with
  | .finite _ u => decide (u = 0)
  | .infinity _ => false
  | .nan => false

/-- `r < 0.0`: false for -0.0 and for a NaN (R153, log 14). -/
def floatIsNegative (v : Word) : Bool :=
  match f32 v with
  | .finite neg u => neg && decide (u ≠ 0)
  | .infinity neg => neg
  | .nan => false

/-- A pattern of a sign and the 31 bits below it. -/
def packFloat (neg : Bool) (mag : Nat) : Word := BitVec.ofNat 32 ((if neg then 2 ^ 31 else 0) + mag)

/-- The 31 bits of infinity. -/
def infinityMag : Nat := 255 * 2 ^ 23

/-- `n / 2^s` rounded to a whole number, to nearest with ties to even (R151). -/
def roundShift (n s : Nat) : Nat :=
  if 2 ^ s < 2 * (n % 2 ^ s) ∨ (2 ^ s = 2 * (n % 2 ^ s) ∧ n / 2 ^ s % 2 = 1) then n / 2 ^ s + 1 else n / 2 ^ s

/-- How many low bits of `n` lie below the last place of the binary32 number nearest to `n / 2^k` units: at least the `k`
bits below one unit, since no binary32 number is finer, and all bits below the 24 most significant ones. -/
def lastPlace (n k : Nat) : Nat := max k (Nat.log2 n - 23)

/-- The 31 bits below the sign of the binary32 number nearest to `n / 2^k` units, ties to even (R151). With `q` the
rounded significand and `t` the binary exponent of its last place in units, the pattern is `t * 2^23 + q`: for
`q < 2^23` (then `t = 0`) that is the subnormal `q`, for `2^23 ≤ q < 2^24` it is exponent `t + 1` and fraction
`q - 2^23`, and for `q = 2^24` it is the next binade with fraction 0. From the largest finite number on it is infinity. -/
def roundMag (n k : Nat) : Nat :=
  min infinityMag ((lastPlace n k - k) * 2 ^ 23 + roundShift n (lastPlace n k))

/-- `u2f(n)`: the binary32 number equal to an unsigned integer; exact up to 65535 (R152). -/
def u2f (n : Nat) : Word := packFloat false (roundMag (n * 2 ^ 149) 0)

/-- The result of an operation: a pattern, or a NaN whose pattern is left open (R154). -/
inductive FloatResult where
  | num (v : Word)
  | nan
deriving DecidableEq, Repr

/-- The value of a sign and a magnitude as an integer number of units. -/
def signedUnits (neg : Bool) (u : Nat) : Int := if neg then -(u : Int) else (u : Int)

/-- The binary32 number nearest to an exact sum: a zero sum is -0.0 only if both operands are negative zeros (R151). -/
def roundSum (bothNeg : Bool) (z : Int) : Word :=
  if z = 0 then packFloat bothNeg 0 else packFloat (decide (z < 0)) (roundMag z.natAbs 0)

/-- Addition of two values (R151). -/
def addValues : FloatValue → FloatValue → FloatResult
  | .nan, _ => .nan
  | .infinity _, .nan => .nan
  | .finite _ _, .nan => .nan
  | .infinity s, .infinity t => if s = t then .num (packFloat s infinityMag) else .nan
  | .infinity s, .finite _ _ => .num (packFloat s infinityMag)
  | .finite _ _, .infinity t => .num (packFloat t infinityMag)
  | .finite s u, .finite t v => .num (roundSum (s && t) (signedUnits s u + signedUnits t v))

/-- Multiplication of two values: the product of two magnitudes counts units of 2^-298 (R151). -/
def mulValues : FloatValue → FloatValue → FloatResult
  | .nan, _ => .nan
  | .infinity _, .nan => .nan
  | .finite _ _, .nan => .nan
  | .infinity s, .infinity t => .num (packFloat (xor s t) infinityMag)
  | .infinity s, .finite t v => if v = 0 then .nan else .num (packFloat (xor s t) infinityMag)
  | .finite s u, .infinity t => if u = 0 then .nan else .num (packFloat (xor s t) infinityMag)
  | .finite s u, .finite t v => .num (packFloat (xor s t) (roundMag (u * v) 149))

/-- IEEE negation: only the sign bit changes, also of a zero and of a NaN (R160). -/
def floatNegate (v : Word) : Word := v ^^^ 0x80000000

/-- `fadd` (R151). -/
def fadd (a b : Word) : FloatResult := addValues (f32 a) (f32 b)

/-- `fsub`: the addition of the negated second operand (R151). -/
def fsub (a b : Word) : FloatResult := addValues (f32 a) (f32 (floatNegate b))

/-- `fmul` (R151). -/
def fmul (a b : Word) : FloatResult := mulValues (f32 a) (f32 b)

/-- The operation of the float unit. -/
def floatCompute : FloatOp → Word → Word → FloatResult
  | .add, a, b => fadd a b
  | .sub, a, b => fsub a b
  | .mul, a, b => fmul a b

/-- The NaN encoding of a drawn sign and fraction; a drawn fraction of 0, which is no NaN, stands for the fraction of the
default pattern 0x7FC00000. Every NaN encoding is the encoding of some draw (R154, log 5). -/
def nanPattern (d : Bool × BitVec 23) : Word :=
  packFloat d.1 (infinityMag + if d.2 = 0 then 2 ^ 22 else d.2.toNat)

/-- 1.0, the step of INC and DEC (R158, R159). -/
def floatOne : Word := 0x3F800000

end Sys2Proof.Machine
end

