-- ==== Sys2Proof/Machine/Flags.lean ====
section
/-! DEFINITION. The flags unit: every flag computation the spec gives, as a function on the FLAGS word (R27 to R31, R153,
R170, R171, R176, R193). -/

namespace Sys2Proof.Machine

/-- `flag(b)` of a FLAGS word (R27). -/
def getFlag (f : Flag) (w : Word) : Bool := w.getLsbD f.bit

/-- The word with only the bit of the flag set. -/
def flagMask (f : Flag) : Word := BitVec.ofNat 32 (2 ^ f.bit)

/-- `setflag(b, v)`: one flag of a FLAGS word is replaced, no other bit changes (R28). -/
def putFlag (f : Flag) (v : Bool) (w : Word) : Word := if v then w ||| flagMask f else w &&& ~~~(flagMask f)

/-- The float flag policy on the result written: zero and sign from the value, carry and overflow cleared (R153). -/
def floatFlags (r : Word) (w : Word) : Word :=
  putFlag .overflow false (putFlag .carry false (putFlag .sign (floatIsNegative r) (putFlag .zero (floatIsZero r) w)))

/-- Zero and sign of the integer policy (R170). -/
def zeroSignFlags (r : Word) (w : Word) : Word := putFlag .sign r.msb (putFlag .zero (decide (r = 0)) w)

/-- The flags after NOT, AND, OR, XOR: zero and sign of R170, carry and overflow of `LOGIC_CO` (R171, log 4). -/
def logicFlags (op : LogicOp) (a : Word) (b : Option Word) (r : Word) (w : Word) : Word :=
  putFlag .overflow (Config.logicCO op a b r).2 (putFlag .carry (Config.logicCO op a b r).1 (zeroSignFlags r w))

/-- The borrow of the subtraction `a - b` (R176, log 12). -/
def subBorrow (a b : Word) : Bool := decide (a < b)

/-- The signed overflow of the subtraction `a - b`: the operands' signs differ, and the result's differs from the first
operand's (R176, log 12). -/
def subOverflow (a b : Word) : Bool := ((a ^^^ b) &&& (a ^^^ (a - b))).msb

/-- The flags after CMPW (R176). -/
def compareFlags (a b : Word) (w : Word) : Word :=
  putFlag .overflow (subOverflow a b) (putFlag .carry (subBorrow a b) (zeroSignFlags (a - b) w))

/-- The conditions of the eight conditional jumps, in the order of R193. -/
inductive Condition where
  | e | ne | gt | ge | lt | le | s | co
deriving DecidableEq, Repr

/-- When a conditional jump is taken (R193). -/
def conditionHolds (c : Condition) (w : Word) : Bool :=
  match c with
  | .e => getFlag .zero w
  | .ne => !getFlag .zero w
  | .gt => !getFlag .zero w && !getFlag .sign w
  | .ge => !getFlag .sign w
  | .lt => !getFlag .zero w && getFlag .sign w
  | .le => getFlag .zero w || getFlag .sign w
  | .s => getFlag .sign w
  | .co => getFlag .carry w || getFlag .overflow w

end Sys2Proof.Machine
end

