-- ==== Sys2Proof/Machine/Ops.lean ====
section
/-! DEFINITION. The named operations over registers and memory, the step's prologue, and the taking of a fault as one
shared operation (R24 to R26, R51 to R55, R81, R142, R283, R284, R290, R291). -/

namespace Sys2Proof.Machine

-- ---------------------------------------------------------------- registers

/-- `x[i]` in a register file (R21). -/
def RegFile.get (r : RegFile) : RegId → Word
  | .ax => r.ax | .bx => r.bx | .cx => r.cx | .dx => r.dx
  | .ex => r.ex | .fx => r.fx | .gx => r.gx | .hx => r.hx
  | .sp => r.sp | .bp => r.bp | .si => r.si | .di => r.di
  | .pc => r.pc | .flags => r.flags

/-- `x[i] <- v` in a register file (R21). -/
def RegFile.set (r : RegFile) (i : RegId) (v : Word) : RegFile :=
  match i with
  | .ax => { r with ax := v } | .bx => { r with bx := v } | .cx => { r with cx := v } | .dx => { r with dx := v }
  | .ex => { r with ex := v } | .fx => { r with fx := v } | .gx => { r with gx := v } | .hx => { r with hx := v }
  | .sp => { r with sp := v } | .bp => { r with bp := v } | .si => { r with si := v } | .di => { r with di := v }
  | .pc => { r with pc := v } | .flags => { r with flags := v }

/-- `x[i]`: the read of a register. During an instruction code 12 reads the advanced pc (R26). -/
def State.reg (s : State) (i : RegId) : Word := s.regs.get i

/-- `x[i] <- v`: the write of a register. Code 12 is a jump, code 13 replaces the whole FLAGS word (R23, R26, R31). -/
def State.setReg (s : State) (i : RegId) (v : Word) : State := { s with regs := s.regs.set i v }

/-- Update the FLAGS word (R28). -/
def State.updateFlags (s : State) (f : Word → Word) : State := s.setReg .flags (f (s.reg .flags))

-- ---------------------------------------------------------------- memory

/-- The access of `n` bytes at `addr` lies inside memory; the sum is taken in unbounded integers (R52). -/
def State.inBounds (s : State) (addr : Word) (n : Nat) : Bool := decide (addr.toNat + n ≤ s.memSize.bytes)

/-- `MemRead(addr, n)`: none where the access raises OutOfBounds (R52). -/
def State.memRead (s : State) (addr : Word) (n : Nat) : Option (BitVec (8 * n)) :=
  if s.inBounds addr n then some (BitVec.ofNat (8 * n) (leValue (s.mem.readBytes addr.toNat n))) else none

/-- `MemWrite(addr, n, v)` of the low `8n` bits of `v`: none, and nothing is written, where the access raises
OutOfBounds (R53). -/
def State.memWrite (s : State) (addr : Word) (n : Nat) (v : Word) : Option State :=
  if s.inBounds addr n then some { s with mem := s.mem.writeBytes addr.toNat (leBytes n v.toNat) } else none

/-- The 32-bit read, the one width that instructions use (R56). -/
def State.readWord (s : State) (addr : Word) : Option Word := s.memRead addr 4

/-- The 32-bit write, the one width that instructions use (R56). -/
def State.writeWord (s : State) (addr : Word) (v : Word) : Option State := s.memWrite addr 4 v

/-- The float read: the 32-bit read followed by the reinterpretation (R56). -/
def State.readFloat (s : State) (addr : Word) : Option Binary32 := (s.readWord addr).map binary32

/-- The float write: `bits`, then the 32-bit write of the same four bytes (R56). -/
def State.writeFloat (s : State) (addr : Word) (f : Binary32) : Option State := s.writeWord addr f.bits

-- ---------------------------------------------------------------- taking a fault

/-- The code of a fault on `fault_cause` (R281). -/
def Fault.cause : Fault → FaultCause
  | .outOfBounds _ => .outOfBounds
  | .unknownOpcode _ => .unknownOpcode
  | .invalidOperand _ => .invalidOperand

/-- The datum of a fault on `fault_info` (R281). -/
def Fault.info : Fault → Word
  | .outOfBounds addr => addr
  | .unknownOpcode op => op.setWidth 32
  | .invalidOperand iw => iw

/-- `raise F(info)`: the driver becomes Faulted and the two latches are written; nothing else changes (R283, log 1). The
core has no return from a fault (R293): only `reset_load` leaves the Faulted state (R291). -/
def State.takeFault (s : State) (f : Fault) : State :=
  { s with driver := .faulted, faultCause := f.cause, faultInfo := f.info }

/-- An instruction that raises a fault: a next state (R283, log 1). -/
def raise (f : Fault) (s : State) : Result := .next (s.takeFault f)

/-- The fault of a word that is no instruction (R83, R84). -/
def Reject.fault : Reject → Fault
  | .unknownOpcode op => .unknownOpcode op
  | .invalidOperand iw => .invalidOperand iw

-- ---------------------------------------------------------------- the parts of a step

/-- The fetch: the word at `pc`, if it lies inside memory (R81). -/
def State.fetch (s : State) : Option Word := s.readWord (s.reg .pc)

/-- The prologue's advance of `pc` by exactly 4, before dispatch (R25, R81). -/
def State.advancePc (s : State) : State := s.setReg .pc (s.reg .pc + 4)

/-- A step whose fetch is out of bounds: `pc` is not advanced (R81, R284). -/
def fetchFault (s : State) : Result := raise (.outOfBounds (s.reg .pc)) s

/-- A step whose word is no instruction: `pc` has been advanced (R81, R284). -/
def rejectFault (r : Reject) (s : State) : Result := raise (Reject.fault r) s.advancePc

/-- A step of a Halted core: only the latch `already_halted` changes (R290). -/
def haltedStep (s : State) : Result := .next { s with alreadyHalted := true }

/-- A step of a Faulted core changes nothing (R291). -/
def faultedStep (s : State) : Result := .next s

-- ---------------------------------------------------------------- shared operations of the instructions

/-- `pc <- t` (R202). -/
def State.jump (s : State) (t : Word) : State := s.setReg .pc t

/-- The address a push stores at: `x[SP] - 4` modulo 2^32 (R142). -/
def State.pushAddr (s : State) : Word := s.reg .sp - 4

/-- A push: the word is stored at `x[SP] - 4`, then SP is lowered; none, and nothing changes, where the store is out of
bounds (R142). -/
def State.push (s : State) (v : Word) : Option State :=
  match s.writeWord s.pushAddr v with
  | some t => some (t.setReg .sp s.pushAddr)
  | none => none

/-- A pop: the word at `x[SP]`, then SP is raised by 4 modulo 2^32; none, and nothing changes, where the read is out of
bounds (R142). -/
def State.pop (s : State) : Option (Word × State) :=
  match s.readWord (s.reg .sp) with
  | some v => some (v, s.setReg .sp (s.reg .sp + 4))
  | none => none

/-- The pattern `bits(r)` of a float result and the state after it: a NaN draws its pattern and counts the draw
(R154, logs 5 and 6). -/
def State.floatBits (s : State) (op : FloatOp) (a b : Word) : FloatResult → Word × State
  | .num v => (v, s)
  | .nan => (nanPattern (Config.nanDraw s.draws op a b), { s with draws := s.draws + 1 })

end Sys2Proof.Machine
end

