-- ==== Sys2Proof/Machine/Operands.lean ====
section
/-! DEFINITION. Every operand form of the eleven formats (R91 to R103, R152): registers, immediates and absolute addresses. -/

namespace Sys2Proof.Machine

/-- A register operand of a move, store, push, logic or compare: the register's 32-bit pattern (R102). -/
def regOperand (s : State) (r : RegId) : Word := s.reg r

/-- An integer immediate operand: zero-extended to 32 bits (R102). -/
def immOperand (imm : BitVec 16) : Word := imm.setWidth 32

/-- A register operand of a float instruction: the pattern, which the float unit reads as binary32 (R102, R152). -/
def floatRegOperand (s : State) (r : RegId) : Word := s.reg r

/-- An immediate operand of a float instruction: the binary32 number equal to the unsigned integer (R102, R152). -/
def floatImmOperand (imm : BitVec 16) : Word := u2f imm.toNat

/-- `addr8`, absolute and zero-extended (R103). -/
def addr8Operand (a : BitVec 8) : Word := a.setWidth 32

/-- `addr16`, absolute and zero-extended (R103). -/
def addr16Operand (a : BitVec 16) : Word := a.setWidth 32

/-- `addr24`, absolute and zero-extended (R103, R202). -/
def addr24Operand (a : BitVec 24) : Word := a.setWidth 32

end Sys2Proof.Machine
end

