-- ==== Sys2Proof/Machine/Control.lean ====
section
/-! DEFINITION. The control transfer instructions JMP, CALL, RET and the eight conditional jumps (R190 to R202). Targets are
absolute and not checked here: a bad target has its effect at the next fetch (R202). `pc` is the advanced pc when a
meaning starts. -/

namespace Sys2Proof.Machine

/-- A conditional jump: if it is not taken, `pc` stays at the advanced pc (R193). -/
def jumpIf (c : Condition) (target : BitVec 24) (s : State) : Result :=
  .next (if conditionHolds c (s.reg .flags) then s.jump (addr24Operand target) else s)

/-- JMP addr24 (R190). -/
def execJmp (target : BitVec 24) (s : State) : Result := .next (s.jump (addr24Operand target))

/-- CALL addr24: the advanced pc is pushed; if the push faults the call is not made (R191). -/
def execCall (target : BitVec 24) (s : State) : Result :=
  match s.push (s.reg .pc) with
  | some t => .next (t.jump (addr24Operand target))
  | none => raise (.outOfBounds s.pushAddr) s

/-- RET (R192). -/
def execRet (s : State) : Result :=
  match s.pop with
  | some (v, t) => .next (t.jump v)
  | none => raise (.outOfBounds (s.reg .sp)) s

/-- JE addr24 (R194). -/
def execJe (target : BitVec 24) (s : State) : Result := jumpIf .e target s

/-- JNE addr24 (R195). -/
def execJne (target : BitVec 24) (s : State) : Result := jumpIf .ne target s

/-- JGT addr24 (R196). -/
def execJgt (target : BitVec 24) (s : State) : Result := jumpIf .gt target s

/-- JGE addr24 (R197). -/
def execJge (target : BitVec 24) (s : State) : Result := jumpIf .ge target s

/-- JLT addr24 (R198). -/
def execJlt (target : BitVec 24) (s : State) : Result := jumpIf .lt target s

/-- JLE addr24 (R199). -/
def execJle (target : BitVec 24) (s : State) : Result := jumpIf .le target s

/-- JS addr24 (R200). -/
def execJs (target : BitVec 24) (s : State) : Result := jumpIf .s target s

/-- JCO addr24 (R201). -/
def execJco (target : BitVec 24) (s : State) : Result := jumpIf .co target s

end Sys2Proof.Machine
end

