-- ==== Sys2Proof/Machine/FloatArith.lean ====
section
/-! DEFINITION. The single-precision float instructions ADDW, SUBW, MUL, INC, DEC and NEG (R155 to R160, log 14). The result is
written to the destination first, then the flags of R153 are put into the FLAGS word that stands after that write (R31). -/

namespace Sys2Proof.Machine

/-- Write a float result and its flags (R31, R153). -/
def floatWrite (d : RegId) (r : Word) (s : State) : State := (s.setReg d r).updateFlags (floatFlags r)

/-- `x[d] <- bits(op(x[d], b))` with the float flags: the common shape of five float instructions (R155 to R159). -/
def floatInto (op : FloatOp) (d : RegId) (b : Word) (s : State) : Result :=
  match s.floatBits op (s.reg d) b (floatCompute op (s.reg d) b) with
  | (r, t) => .next (floatWrite d r t)

/-- ADDW reg1, reg2 (R155). -/
def execAddwR (d r : RegId) (s : State) : Result := floatInto .add d (floatRegOperand s r) s

/-- ADDW reg, imm16 (R155). -/
def execAddwI (d : RegId) (imm : BitVec 16) (s : State) : Result := floatInto .add d (floatImmOperand imm) s

/-- SUBW reg1, reg2: the destination minus the second operand (R156). -/
def execSubwR (d r : RegId) (s : State) : Result := floatInto .sub d (floatRegOperand s r) s

/-- SUBW reg, imm16 (R156). -/
def execSubwI (d : RegId) (imm : BitVec 16) (s : State) : Result := floatInto .sub d (floatImmOperand imm) s

/-- MUL reg1, reg2 (R157). -/
def execMulR (d r : RegId) (s : State) : Result := floatInto .mul d (floatRegOperand s r) s

/-- MUL reg, imm16 (R157). -/
def execMulI (d : RegId) (imm : BitVec 16) (s : State) : Result := floatInto .mul d (floatImmOperand imm) s

/-- INC reg: plus 1.0 (R158). -/
def execInc (d : RegId) (s : State) : Result := floatInto .add d floatOne s

/-- DEC reg: minus 1.0 (R159). -/
def execDec (d : RegId) (s : State) : Result := floatInto .sub d floatOne s

/-- NEG reg: the sign bit is flipped, a NaN keeps its payload (R160). -/
def execNeg (d : RegId) (s : State) : Result := .next (floatWrite d (floatNegate (s.reg d)) s)

end Sys2Proof.Machine
end

