-- ==== Sys2Proof/Machine/Logic.lean ====
section
/-! DEFINITION. The bitwise logic and compare instructions NOT, AND, OR, XOR and CMPW on 32-bit integers (R172 to R176). The
result is written to the destination first, then the flags are put into the FLAGS word that stands after that write
(R31). -/

namespace Sys2Proof.Machine

/-- The result of a logic instruction with two operands (R173 to R175). -/
def logicResult (op : LogicOp) (a b : Word) : Word :=
  match op with
  | .not => ~~~a
  | .and => a &&& b
  | .or => a ||| b
  | .xor => a ^^^ b

/-- `x[d] <- x[d] op b` with the flags of R170 and R171: the common shape of AND, OR and XOR. -/
def logicInto (op : LogicOp) (d : RegId) (b : Word) (s : State) : Result :=
  .next ((s.setReg d (logicResult op (s.reg d) b)).updateFlags
    (logicFlags op (s.reg d) (some b) (logicResult op (s.reg d) b)))

/-- Compare the register with a word: only flags are written (R176, log 12). -/
def compareWith (d : RegId) (b : Word) (s : State) : Result := .next (s.updateFlags (compareFlags (s.reg d) b))

/-- NOT reg (R172). -/
def execNot (d : RegId) (s : State) : Result :=
  .next ((s.setReg d (~~~(s.reg d))).updateFlags (logicFlags .not (s.reg d) none (~~~(s.reg d))))

/-- AND reg1, reg2 (R173). -/
def execAndR (d r : RegId) (s : State) : Result := logicInto .and d (regOperand s r) s

/-- AND reg, imm16 (R173). -/
def execAndI (d : RegId) (imm : BitVec 16) (s : State) : Result := logicInto .and d (immOperand imm) s

/-- OR reg1, reg2 (R174). -/
def execOrR (d r : RegId) (s : State) : Result := logicInto .or d (regOperand s r) s

/-- OR reg, imm16 (R174). -/
def execOrI (d : RegId) (imm : BitVec 16) (s : State) : Result := logicInto .or d (immOperand imm) s

/-- XOR reg1, reg2 (R175). -/
def execXorR (d r : RegId) (s : State) : Result := logicInto .xor d (regOperand s r) s

/-- XOR reg, imm16 (R175). -/
def execXorI (d : RegId) (imm : BitVec 16) (s : State) : Result := logicInto .xor d (immOperand imm) s

/-- CMPW reg1, reg2 (R176). -/
def execCmpwR (d r : RegId) (s : State) : Result := compareWith d (regOperand s r) s

/-- CMPW reg, imm16 (R176). -/
def execCmpwI (d : RegId) (imm : BitVec 16) (s : State) : Result := compareWith d (immOperand imm) s

end Sys2Proof.Machine
end

