-- ==== Sys2Proof/Machine/Move.lean ====
section
/-! DEFINITION. The data movement instructions MOVI, MOVW, LODI, LODW, STRI, STRW and XCGH (R120 to R126, log 15). None
writes a flag unless its destination is FLAGS. -/

namespace Sys2Proof.Machine

/-- Write a value to the destination register: the end of every move to a register. -/
def moveTo (d : RegId) (v : Word) (s : State) : Result := .next (s.setReg d v)

/-- Load the word at an address into a register; a fault leaves the register as it was (R123). -/
def loadTo (d : RegId) (addr : Word) (s : State) : Result :=
  match s.readWord addr with
  | some v => moveTo d v s
  | none => raise (.outOfBounds addr) s

/-- Store a word at an address (R124, R125). -/
def storeAt (addr v : Word) (s : State) : Result :=
  match s.writeWord addr v with
  | some t => .next t
  | none => raise (.outOfBounds addr) s

/-- MOVI reg, imm16 (R120). -/
def execMovi (d : RegId) (imm : BitVec 16) (s : State) : Result := moveTo d (immOperand imm) s

/-- MOVW reg1, reg2 (R121). -/
def execMovwR (d r : RegId) (s : State) : Result := moveTo d (regOperand s r) s

/-- MOVW reg, imm16 (R121). -/
def execMovwI (d : RegId) (imm : BitVec 16) (s : State) : Result := moveTo d (immOperand imm) s

/-- LODI reg, imm16: the same effect as MOVI, and no memory access (R122). -/
def execLodi (d : RegId) (imm : BitVec 16) (s : State) : Result := moveTo d (immOperand imm) s

/-- LODW reg, addr16 (R123). -/
def execLodw (d : RegId) (addr : BitVec 16) (s : State) : Result := loadTo d (addr16Operand addr) s

/-- STRI addr8, imm16: a whole word whose upper half is 0 (R124). -/
def execStri (addr : BitVec 8) (imm : BitVec 16) (s : State) : Result := storeAt (addr8Operand addr) (immOperand imm) s

/-- STRW addr8, reg (R125). -/
def execStrwR (addr : BitVec 8) (r : RegId) (s : State) : Result := storeAt (addr8Operand addr) (regOperand s r) s

/-- STRW addr8, imm16 (R125). -/
def execStrwI (addr : BitVec 8) (imm : BitVec 16) (s : State) : Result := storeAt (addr8Operand addr) (immOperand imm) s

/-- XCGH reg1, reg2: the first register is written first, both with values read before (R126). -/
def execXcgh (a b : RegId) (s : State) : Result := .next ((s.setReg a (s.reg b)).setReg b (s.reg a))

end Sys2Proof.Machine
end

