-- ==== Sys2Proof/Machine/Stack.lean ====
section
/-! DEFINITION. The stack instructions PUSH and POP on a full-descending stack (R140 to R143, log 15). -/

namespace Sys2Proof.Machine

/-- Push a word; a fault leaves memory and SP as they were (R140). -/
def pushValue (v : Word) (s : State) : Result :=
  match s.push v with
  | some t => .next t
  | none => raise (.outOfBounds s.pushAddr) s

/-- PUSH reg: the value is read before SP is lowered (R140). -/
def execPushR (r : RegId) (s : State) : Result := pushValue (regOperand s r) s

/-- PUSH imm16 (R140). -/
def execPushI (imm : BitVec 16) (s : State) : Result := pushValue (immOperand imm) s

/-- POP reg: SP is raised first and the destination written last, so that POP SP ends with the popped value (R141). -/
def execPop (d : RegId) (s : State) : Result :=
  match s.pop with
  | some (v, t) => .next (t.setReg d v)
  | none => raise (.outOfBounds (s.reg .sp)) s

end Sys2Proof.Machine
end

