-- ==== Sys2Proof/Machine/System.lean ====
section
/-! DEFINITION. The flag instructions SETF and CLRF and the HALT instruction (R221 to R223). -/

namespace Sys2Proof.Machine

/-- SETF flag: one flag is set, nothing else changes (R221). -/
def execSetf (f : Flag) (s : State) : Result := .next (s.updateFlags (putFlag f true))

/-- CLRF flag: one flag is cleared, nothing else changes (R222). -/
def execClrf (f : Flag) (s : State) : Result := .next (s.updateFlags (putFlag f false))

/-- HALT: the driver becomes Halted (R223). -/
def execHalt (s : State) : Result := .next { s with driver := .halted }

end Sys2Proof.Machine
end

