-- ==== Sys2Proof/Machine/Dispatch.lean ====
section
/-! DEFINITION. The dispatch: one arm per constructor of `Instr`, one meaning per arm (R86). -/

namespace Sys2Proof.Machine

/-- The execution of a decoded instruction, after the prologue has advanced `pc` (R81). -/
def exec (i : Instr) (s : State) : Host.Outcome State Fault Refusal :=
  match i with
  -- moves
  | .movi d imm => Sys2Proof.Machine.execMovi d imm s
  | .movwR d r => Sys2Proof.Machine.execMovwR d r s
  | .movwI d imm => Sys2Proof.Machine.execMovwI d imm s
  | .lodi d imm => Sys2Proof.Machine.execLodi d imm s
  | .lodw d addr => Sys2Proof.Machine.execLodw d addr s
  | .stri addr imm => Sys2Proof.Machine.execStri addr imm s
  | .strwR addr r => Sys2Proof.Machine.execStrwR addr r s
  | .strwI addr imm => Sys2Proof.Machine.execStrwI addr imm s
  -- stack
  | .pushR r => Sys2Proof.Machine.execPushR r s
  | .pushI imm => Sys2Proof.Machine.execPushI imm s
  | .pop d => Sys2Proof.Machine.execPop d s
  | .xcgh a b => Sys2Proof.Machine.execXcgh a b s
  -- float arithmetic
  | .addwR d r => Sys2Proof.Machine.execAddwR d r s
  | .addwI d imm => Sys2Proof.Machine.execAddwI d imm s
  | .subwR d r => Sys2Proof.Machine.execSubwR d r s
  | .subwI d imm => Sys2Proof.Machine.execSubwI d imm s
  | .mulR d r => Sys2Proof.Machine.execMulR d r s
  | .mulI d imm => Sys2Proof.Machine.execMulI d imm s
  | .inc d => Sys2Proof.Machine.execInc d s
  | .dec d => Sys2Proof.Machine.execDec d s
  | .neg d => Sys2Proof.Machine.execNeg d s
  -- logic and compare
  | .not d => Sys2Proof.Machine.execNot d s
  | .andR d r => Sys2Proof.Machine.execAndR d r s
  | .andI d imm => Sys2Proof.Machine.execAndI d imm s
  | .orR d r => Sys2Proof.Machine.execOrR d r s
  | .orI d imm => Sys2Proof.Machine.execOrI d imm s
  | .xorR d r => Sys2Proof.Machine.execXorR d r s
  | .xorI d imm => Sys2Proof.Machine.execXorI d imm s
  | .cmpwR d r => Sys2Proof.Machine.execCmpwR d r s
  | .cmpwI d imm => Sys2Proof.Machine.execCmpwI d imm s
  -- control transfer
  | .jmp target => Sys2Proof.Machine.execJmp target s
  | .call target => Sys2Proof.Machine.execCall target s
  | .ret => Sys2Proof.Machine.execRet s
  | .je target => Sys2Proof.Machine.execJe target s
  | .jne target => Sys2Proof.Machine.execJne target s
  | .jgt target => Sys2Proof.Machine.execJgt target s
  | .jge target => Sys2Proof.Machine.execJge target s
  | .jlt target => Sys2Proof.Machine.execJlt target s
  | .jle target => Sys2Proof.Machine.execJle target s
  | .js target => Sys2Proof.Machine.execJs target s
  | .jco target => Sys2Proof.Machine.execJco target s
  -- flags and system
  | .setf f => Sys2Proof.Machine.execSetf f s
  | .clrf f => Sys2Proof.Machine.execClrf f s
  | .halt => Sys2Proof.Machine.execHalt s

end Sys2Proof.Machine
end

