-- ==== Sys2Proof/Machine/Step.lean ====
section
/-! DEFINITION. One step of the machine (R81), and the host's way to place an instruction where the next step fetches. -/

namespace Sys2Proof.Machine

/-- One step: a Halted or Faulted core executes nothing; a Ready core fetches the word at `pc`, advances `pc` by 4,
decodes and executes (R81, R290, R291). -/
def step (s : State) : Host.Outcome State Fault Refusal :=
  match s.driver with
  | .halted => haltedStep s
  | .faulted => faultedStep s
  | .ready =>
    match s.fetch with
    | none => fetchFault s
    | some iw =>
      match decode s.flagIds iw with
      | .error r => rejectFault r s
      | .ok i => exec i s.advancePc

/-- The state with the instruction word stored, in memory order, where the next step fetches: at `pc`. It stands for the
load of a program (log 10). Nothing else changes; an address that the fetch could not read is not written either. -/
def State.withFetchWord (s : State) (nbits w : Nat) : State :=
  match s.writeWord (s.reg .pc) (BitVec.ofNat 32 (w % 2 ^ nbits)) with
  | some t => t
  | none => s

end Sys2Proof.Machine
end

