-- ==== Sys2Proof/Machine/Names.lean ====
section
/-! DEFINITION. The names of registers, flags and mnemonics (R21, R27, R86, R232), as lists of characters. -/

namespace Sys2Proof.Machine

/-- A name in source text or on the inspection surface. -/
abbrev Ident := List Char

/-- The name of a register (R21). -/
def RegId.text : RegId → Ident
  | .ax => "AX".toList | .bx => "BX".toList | .cx => "CX".toList | .dx => "DX".toList
  | .ex => "EX".toList | .fx => "FX".toList | .gx => "GX".toList | .hx => "HX".toList
  | .sp => "SP".toList | .bp => "BP".toList | .si => "SI".toList | .di => "DI".toList
  | .pc => "PC".toList | .flags => "FLAGS".toList

/-- The inspection name of a flag (R27). -/
def Flag.text : Flag → Ident
  | .carry => "carry".toList | .zero => "zero".toList | .sign => "sign".toList | .interrupt => "interrupt".toList
  | .string => "string".toList | .overflow => "overflow".toList | .macroFlag => "macro".toList

/-- The assembler operand name of a flag: the flag at bit 10 is written `stack_dir` (R27, R232). -/
def Flag.operandText : Flag → Ident
  | .string => "stack_dir".toList
  | f => Flag.text f

/-- The mnemonic of an opcode (R86). -/
def Opcode.text : Opcode → Ident
  | .movi => "MOVI".toList | .movw => "MOVW".toList | .lodi => "LODI".toList | .lodw => "LODW".toList
  | .stri => "STRI".toList | .strw => "STRW".toList | .push => "PUSH".toList | .pop => "POP".toList
  | .xcgh => "XCGH".toList | .addw => "ADDW".toList | .subw => "SUBW".toList | .mul => "MUL".toList
  | .inc => "INC".toList | .dec => "DEC".toList | .neg => "NEG".toList | .not => "NOT".toList
  | .and => "AND".toList | .or => "OR".toList | .xor => "XOR".toList | .cmpw => "CMPW".toList
  | .jmp => "JMP".toList | .call => "CALL".toList | .ret => "RET".toList | .je => "JE".toList
  | .jne => "JNE".toList | .jgt => "JGT".toList | .jge => "JGE".toList | .jlt => "JLT".toList
  | .jle => "JLE".toList | .js => "JS".toList | .jco => "JCO".toList | .setf => "SETF".toList
  | .clrf => "CLRF".toList | .halt => "HALT".toList

/-- A name in lower case, for the comparisons that ignore case (R231, R232). -/
def lower (n : Ident) : Ident := n.map Char.toLower

/-- The register of a name, ignoring case (R232). -/
def regNamed (n : Ident) : Option RegId := RegId.all.find? (fun r => lower (RegId.text r) == lower n)

/-- The flag of an assembler operand name, ignoring case (R232). -/
def flagNamed (n : Ident) : Option Flag := Flag.all.find? (fun f => lower (Flag.operandText f) == lower n)

/-- The opcode of a mnemonic, ignoring case (R231). -/
def opcodeNamed (n : Ident) : Option Opcode := Opcode.all.find? (fun o => lower (Opcode.text o) == lower n)

end Sys2Proof.Machine
end

