-- ==== Sys2Proof/Machine/AsmText.lean ====
section
/-! DEFINITION. The assembler's reading of source text: lines, tokens, operands, commands and macros (R231 to R241, R254). What
the rules leave open is in logs 21 to 24. -/

namespace Sys2Proof.Machine

-- ---------------------------------------------------------------- errors

/-- The segments of the layout (R250). -/
inductive Segment where
  | text | data | stack
deriving DecidableEq, Repr

/-- The assembly errors of R268, with what each names. -/
inductive AsmFault where
  -- parse errors
  | malformedLabel
  | reservedLabel (name : Ident)
  | malformedOperand (token : Ident)
  | wrongOperands (opcode : Ident)
  | unknownDirective (name : Ident)
  | unclosedMacro (name : Ident)
  | strayEndmacro
  | nestedMacro (name : Ident)
  | duplicateMacro (name : Ident)
  | missingArgument (name : Ident)
  | missingOperand (opcode : Ident)
  | unknownRegister (name : Ident)
  | unknownFlag (name : Ident)
  | duplicateLabel (name : Ident)
  | duplicateDirective (name : Ident)
  | notPowerOfTwo (boundary : Nat)
  | negativeSize (first last : Nat)
  | instructionInData
  | dataInText
  -- layout errors
  /-- A segment from `start` up to `stop` that is not inside memory. -/
  | segmentOutside (segment : Segment) (start stop : Int)
  /-- A segment that ends at `stop` and is so large that it would start below address 0. -/
  | oversized (segment : Segment) (start stop : Int)
  /-- A segment that runs into the next one. -/
  | segmentOverlap (first : Segment) (firstStart firstStop : Int) (second : Segment) (secondStart secondStop : Int)
  -- encoding errors
  | unknownLabel (name : Ident)
  | tooWide (width value : Nat)
  | oddImmediate (value : Nat)
  | operandKind (opcode : Ident)
  | unsupportedMnemonic (name : Ident)
  | flagWithoutId (f : Flag)
deriving DecidableEq, Repr

/-- An error with its line number, counted from 1; layout errors of the whole program have line 0 (R268). -/
structure AsmError where
  line : Nat
  fault : AsmFault
deriving DecidableEq, Repr

-- ---------------------------------------------------------------- characters, lines, tokens

/-- White space inside a line. -/
def isBlank (c : Char) : Bool := c == ' ' || c == '\t' || c == '\r'

/-- The double quote. -/
def quoteChar : Char := Char.ofNat 34

/-- The lines of a text. -/
def splitLines : List Char → List (List Char)
  | [] => [[]]
  | c :: cs =>
    if c = '\n' then [] :: splitLines cs
    else
      match splitLines cs with
      | [] => [[c]]
      | l :: ls => (c :: l) :: ls

/-- A line without its comment, `;` to the end of the line (R231, log 21). -/
def stripComment (l : List Char) : List Char := l.takeWhile (fun c => c != ';')

/-- A text without leading blanks. -/
def trimLeft (l : List Char) : List Char := l.dropWhile isBlank

/-- A text without leading and trailing blanks. -/
def trim (l : List Char) : List Char := (trimLeft (trimLeft l).reverse).reverse

/-- The first token of a text without leading blanks. -/
def headToken (l : List Char) : List Char := l.takeWhile (fun c => !isBlank c)

/-- What follows the first token. -/
def afterToken (l : List Char) : List Char := l.dropWhile (fun c => !isBlank c)

/-- Where the tokenizer stands: between brackets and between quotes nothing separates (R231, log 21). -/
inductive TokenMode where
  | plain | quote | bracket
deriving DecidableEq, Repr

/-- A collected token, if it is not empty. -/
def flushToken (cur : List Char) : List (List Char) := if cur.isEmpty then [] else [cur.reverse]

/-- The operand tokens of a text, separated by commas or blanks (R231). `cur` is the token under way, reversed. DESIGN CHOICE:
an empty operand, before, between or after commas, is no token and is skipped (log 21). -/
def tokenize : TokenMode → List Char → List Char → List (List Char)
  | _, cur, [] => flushToken cur
  | .plain, cur, c :: cs =>
    if c = quoteChar then tokenize .quote (c :: cur) cs
    else if c = '[' then tokenize .bracket (c :: cur) cs
    else if isBlank c || c == ',' then flushToken cur ++ tokenize .plain [] cs
    else tokenize .plain (c :: cur) cs
  | .quote, cur, c :: cs => tokenize (if c = quoteChar then .plain else .quote) (c :: cur) cs
  | .bracket, cur, c :: cs => tokenize (if c = ']' then .plain else .bracket) (c :: cur) cs

-- ---------------------------------------------------------------- numbers

/-- The value of a digit. -/
def digitValue (c : Char) : Option Nat :=
  if '0' ≤ c ∧ c ≤ '9' then some (c.toNat - 48)
  else if 'a' ≤ c ∧ c ≤ 'f' then some (c.toNat - 87)
  else if 'A' ≤ c ∧ c ≤ 'F' then some (c.toNat - 55)
  else none

/-- The digits of a number in a base, the leading ones already read into `acc`. -/
def digitsFrom (base : Nat) : Nat → List Char → Option Nat
  | acc, [] => some acc
  | acc, c :: cs =>
    match digitValue c with
    | some d => if d < base then digitsFrom base (acc * base + d) cs else none
    | none => none

/-- A number of at least one digit that fits 32 bits (R233, log 24). -/
def digits (base : Nat) (cs : List Char) : Option Nat :=
  if cs.isEmpty then none
  else
    match digitsFrom base 0 cs with
    | some n => if n < 2 ^ 32 then some n else none
    | none => none

/-- An integer literal: decimal, `0x` hexadecimal or `0b` binary (R233). -/
def integerLiteral (cs : List Char) : Option Nat :=
  match cs with
  | '0' :: 'x' :: rest => digits 16 rest
  | '0' :: 'b' :: rest => digits 2 rest
  | _ => digits 10 cs

/-- A decimal float literal, truncated toward zero (R233): digits, a point, digits. -/
def floatLiteral (cs : List Char) : Option Nat :=
  match cs.dropWhile (fun c => c != '.') with
  | [] => none
  | _ :: fraction =>
    match digitsFrom 10 0 fraction with
    | some _ => if fraction.isEmpty then none else digits 10 (cs.takeWhile (fun c => c != '.'))
    | none => none

-- ---------------------------------------------------------------- operands

/-- The operand kinds of R232. -/
inductive Operand where
  | str (text : List Char)
  | reg (r : RegId)
  | flag (f : Flag)
  | addressReg (r : RegId)
  | address (n : Nat)
  | imm (n : Nat)
  | label (name : Ident)
deriving DecidableEq, Repr

/-- The text between the first and the last character, if they are the given ones. DESIGN CHOICE: the given characters may
stand in that text too, so that a string literal reaches from its first quote to its last (log 21). -/
def between (first last : Char) (tok : List Char) : Option (List Char) :=
  match tok with
  | [] => none
  | c :: cs =>
    match cs.reverse with
    | [] => none
    | e :: mid => if c = first ∧ e = last then some mid.reverse else none

/-- A label has no blanks and no brackets, and is not empty (R232). -/
def isLabelText (tok : List Char) : Bool := !tok.isEmpty && !tok.any (fun c => isBlank c || c == '[' || c == ']')

/-- The content of a bracketed token: a register, an integer, or else a label (R232). -/
def bracketOperand (content : List Char) : Option Operand :=
  match regNamed content with
  | some r => some (.addressReg r)
  | none =>
    match integerLiteral content with
    | some n => some (.address n)
    | none => if isLabelText content then some (.label content) else none

/-- A token that is neither a string, a register, a flag nor bracketed: a number, or else a label (R232). -/
def bareOperand (tok : List Char) : Option Operand :=
  match integerLiteral tok with
  | some n => some (.imm n)
  | none =>
    match floatLiteral tok with
    | some n => some (.imm n)
    | none => if isLabelText tok then some (.label tok) else none

/-- The class of an operand token, the first that matches (R232); none is the error of R235. DESIGN CHOICE: blanks just inside
brackets are trimmed, and a token that begins and ends with a quote is one string, whatever stands between (log 21). -/
def classify (tok : List Char) : Option Operand :=
  match between quoteChar quoteChar tok with
  | some text => some (.str text)
  | none =>
    match regNamed tok with
    | some r => some (.reg r)
    | none =>
      match flagNamed tok with
      | some f => some (.flag f)
      | none =>
        match between '[' ']' tok with
        | some content => bracketOperand (trim content)
        | none => bareOperand tok

-- ---------------------------------------------------------------- commands

/-- A parsed line (R236): an empty opcode stands for a line without one; `rawArgs` are the operand tokens as written,
which only `.macro` and `.endmacro` use. -/
structure Command where
  line : Nat
  label : Option Ident
  opcode : Ident
  operands : List Operand
  rawArgs : List Ident
deriving DecidableEq, Repr

/-- The optional label of a line and the text after it: the first token up to a `:` (R231, log 21). -/
def splitLabel (l : List Char) : Option Ident × List Char :=
  if (headToken l).contains ':' then
    (some ((headToken l).takeWhile (fun c => c != ':')),
      trimLeft (((headToken l).dropWhile (fun c => c != ':')).drop 1 ++ afterToken l))
  else (none, l)

/-- The operands of a list of tokens, or the first token that has no class. -/
def classifyAll : List Ident → Except AsmFault (List Operand)
  | [] => .ok []
  | t :: ts =>
    match classify t with
    | none => .error (.malformedOperand t)
    | some o =>
      match classifyAll ts with
      | .ok os => .ok (o :: os)
      | .error e => .error e

/-- The directive that opens a macro body. -/
def macroWord : Ident := ".macro".toList

/-- The directive that closes a macro body. -/
def endmacroWord : Ident := ".endmacro".toList

/-- A label that a line or `.equ` defines may not be empty nor be spelled like a register or a flag (R232). -/
def labelFault (label : Option Ident) : Option AsmFault :=
  match label with
  | none => none
  | some n =>
    if n.isEmpty || !isLabelText n then some .malformedLabel
    else if (regNamed n).isSome || (flagNamed n).isSome then some (.reservedLabel n)
    else none

/-- The command of an opcode and its operand tokens: at most two operands (R231). DESIGN CHOICE: a third operand on a line is a
parse error, whatever the opcode but the two macro directives (log 23). -/
def makeCommand (n : Nat) (label : Option Ident) (opcode : Ident) (tokens : List Ident) : Except AsmFault Command :=
  if opcode = macroWord ∨ opcode = endmacroWord then .ok ⟨n, label, opcode, [], tokens⟩
  else
    match classifyAll tokens with
    | .error e => .error e
    | .ok os => if 2 < os.length then .error (.wrongOperands opcode) else .ok ⟨n, label, opcode, os, tokens⟩

/-- Parse one line (R231). -/
def parseLine (n : Nat) (l : List Char) : Except AsmFault Command :=
  match splitLabel (trimLeft (stripComment l)) with
  | (label, rest) =>
    match labelFault label with
    | some e => .error e
    | none => makeCommand n label (headToken rest) (tokenize .plain [] (afterToken rest))

/-- Parse lines from a line number on, collecting every error (R268). -/
def parseLines : Nat → List (List Char) → List Command × List AsmError
  | _, [] => ([], [])
  | n, l :: ls =>
    match parseLine n l with
    | .ok c => (c :: (parseLines (n + 1) ls).1, (parseLines (n + 1) ls).2)
    | .error e => ((parseLines (n + 1) ls).1, ⟨n, e⟩ :: (parseLines (n + 1) ls).2)

-- ---------------------------------------------------------------- macros

/-- A macro: the line that opens it, its name, its parameter names in order, its body (R240). -/
structure MacroDef where
  line : Nat
  name : Ident
  params : List Ident
  body : List Command
deriving DecidableEq, Repr

/-- A command that only carries the label of another one. -/
def labelOnly (c : Command) : List Command := if c.label.isSome then [{ c with opcode := [], operands := [] }] else []

/-- What separating the macro definitions from the program gives. -/
structure MacroSplit where
  macros : List MacroDef
  commands : List Command
  errors : List AsmError
deriving DecidableEq, Repr

/-- The operands that `.endmacro` does not take (R237). -/
def endmacroErrors (c : Command) : List AsmError :=
  if c.rawArgs.isEmpty then [] else [⟨c.line, .wrongOperands c.opcode⟩]

/-- Separate the macro definitions from the program; the first argument is the definition under way (R240). DESIGN CHOICE: an
`.endmacro` without an open `.macro`, and a `.macro` inside a definition, are parse errors (log 22). -/
def splitMacros : Option MacroDef → List Command → MacroSplit
  | none, [] => ⟨[], [], []⟩
  | some d, [] => ⟨[], [], [⟨d.line, .unclosedMacro d.name⟩]⟩
  | none, c :: cs =>
    if c.opcode = macroWord then
      match c.rawArgs with
      | [] =>
        match splitMacros none cs with
        | ⟨ms, rest, es⟩ => ⟨ms, rest, ⟨c.line, .wrongOperands c.opcode⟩ :: es⟩
      | name :: params =>
        match splitMacros (some ⟨c.line, name, params, []⟩) cs with
        | ⟨ms, rest, es⟩ => ⟨ms, labelOnly c ++ rest, es⟩
    else if c.opcode = endmacroWord then
      match splitMacros none cs with
      | ⟨ms, rest, es⟩ => ⟨ms, rest, ⟨c.line, .strayEndmacro⟩ :: es⟩
    else
      match splitMacros none cs with
      | ⟨ms, rest, es⟩ => ⟨ms, c :: rest, es⟩
  | some d, c :: cs =>
    if c.opcode = endmacroWord then
      match splitMacros none cs with
      | ⟨ms, rest, es⟩ => ⟨d :: ms, labelOnly c ++ rest, endmacroErrors c ++ es⟩
    else if c.opcode = macroWord then
      match splitMacros (some d) cs with
      | ⟨ms, rest, es⟩ => ⟨ms, rest, ⟨c.line, .nestedMacro d.name⟩ :: es⟩
    else splitMacros (some { d with body := d.body ++ [c] }) cs

/-- The definitions that repeat the name of an earlier one, each at its own line; the first argument is the names seen
(R268, log 22). -/
def repeatedMacros : List Ident → List MacroDef → List AsmError
  | _, [] => []
  | seen, m :: ms =>
    (if seen.contains m.name then [⟨m.line, .duplicateMacro m.name⟩] else []) ++ repeatedMacros (m.name :: seen) ms

/-- The operand that replaces a body operand: the call-site operand at the position of the parameter (R241). DESIGN CHOICE: of
a parameter name that a macro repeats, the first position counts, and parameter names are compared letter for letter
(log 22). -/
def substitute (params : List Ident) (args : List Operand) (o : Operand) : Operand :=
  match o with
  | .label n =>
    match (params.zip args).find? (fun p => p.1 == n) with
    | some p => p.2
    | none => o
  | .str _ => o
  | .reg _ => o
  | .flag _ => o
  | .addressReg _ => o
  | .address _ => o
  | .imm _ => o

/-- The clone of a body command at a call (R241); it takes the line number of the call. -/
def cloneCommand (line : Nat) (params : List Ident) (args : List Operand) (c : Command) : Command :=
  { c with line := line, operands := c.operands.map (substitute params args) }

/-- Expand one command, one level deep (R241, log 22). The body is not expanded again: a body command that is spelled like a
macro is an unsupported mnemonic in pass 2 (D31). DESIGN CHOICE: if it is spelled like an instruction too, it is that
instruction (log 22). -/
def expandCommand (ms : List MacroDef) (c : Command) : Except AsmError (List Command) :=
  match ms.find? (fun m => m.name == c.opcode) with
  | none => .ok [c]
  | some m =>
    if c.operands.length < m.params.length then .error ⟨c.line, .missingArgument m.name⟩
    else if m.params.length < c.operands.length then .error ⟨c.line, .wrongOperands m.name⟩
    else .ok (labelOnly c ++ m.body.map (cloneCommand c.line m.params c.operands))

/-- Expand every command (R254). -/
def expandAll (ms : List MacroDef) : List Command → List Command × List AsmError
  | [] => ([], [])
  | c :: cs =>
    match expandCommand ms c with
    | .ok xs => (xs ++ (expandAll ms cs).1, (expandAll ms cs).2)
    | .error e => ((expandAll ms cs).1, e :: (expandAll ms cs).2)

end Sys2Proof.Machine
end

