-- ==== Sys2Proof/Machine/Driver.lean ====
section
/-! DEFINITION. The host operations beside `step` (R9): `reset_load` (R310 to R312), `run` (R82, R314) and `inspect` (R300), and
the outputs of R9. -/

namespace Sys2Proof.Machine

-- ---------------------------------------------------------------- reset_load

/-- What `reset_load` is given: the parameters of R8 and the image of R266. -/
structure LoadRequest where
  memSize : Nat
  flagIds : FlagIdMap
  textStart : Nat
  stackStart : Nat
  text : List Word
  dataStart : Nat
  data : List Byte
deriving DecidableEq, Repr

/-- The default request: the defaults of R8 and the empty image. -/
def defaultLoad : LoadRequest where
  memSize := 65536
  flagIds := defaultFlagIds
  textStart := 0
  stackStart := 65536 - 4096
  text := []
  dataStart := 65536 - 4096
  data := []

/-- The bytes of the text words, each little-endian (R312). -/
def textBytes : List Word → List Byte
  | [] => []
  | w :: ws => leBytes 4 w.toNat ++ textBytes ws

/-- Every write of the image lies inside memory (R312). -/
def LoadRequest.imageInside (q : LoadRequest) : Bool :=
  decide (q.textStart + 4 * q.text.length ≤ q.memSize) &&
    (q.data.isEmpty || decide (q.dataStart + q.data.length ≤ q.memSize))

/-- The memory of an image: the text, then the data over it; every other byte is 0 (R312). -/
def imageMemory (q : LoadRequest) : Memory :=
  Memory.writeBytes (Memory.writeBytes [] q.textStart (textBytes q.text)) q.dataStart q.data

/-- The state of R40 for a legal memory size. -/
def loadedState (size : MemSize) (q : LoadRequest) : State where
  regs := { ax := 0, bx := 0, cx := 0, dx := 0, ex := 0, fx := 0, gx := 0, hx := 0,
            sp := BitVec.ofNat 32 q.stackStart, bp := 0, si := 0, di := 0,
            pc := BitVec.ofNat 32 q.textStart, flags := 0 }
  mem := imageMemory q
  memSize := size
  flagIds := q.flagIds
  driver := .ready
  faultCause := .none
  faultInfo := 0
  alreadyHalted := false
  draws := 0

/-- `reset_load` (R310), refused where one of its preconditions fails (R6, R311, R312, log 17). -/
def resetLoad (q : LoadRequest) : Result :=
  if h : 65536 ≤ q.memSize ∧ q.memSize ≤ 8388608 ∧ q.memSize % 1024 = 0 then
    if q.memSize ≤ q.textStart then .refused .textStartOutside
    else if q.memSize ≤ q.stackStart then .refused .stackStartOutside
    else if q.imageInside then .next (loadedState ⟨q.memSize, h⟩ q)
    else .refused .imageOutside
  else .refused .memSizeIllegal

-- ---------------------------------------------------------------- run

/-- `pc < MEM_SIZE` (R82). -/
def State.pcInside (s : State) : Bool := decide ((s.reg .pc).toNat < s.memSize.bytes)

/-- The guard of `run`: the core is Ready and `pc < MEM_SIZE` (R82). -/
def State.running (s : State) : Bool := decide (s.driver = .ready) && s.pcInside

/-- The output `ran_off_end` (R82, R292). -/
def State.ranOffEnd (s : State) : Bool := decide (s.driver = .ready) && !s.pcInside

/-- `run` with at most `n` steps; the core itself has no step limit (R82, log 16). -/
def run : Nat → State → Result
  | 0, s => .next s
  | n + 1, s =>
    if s.running then
      match step s with
      | .next t => run n t
      | .fault f => .fault f
      | .refused r => .refused r
    else .next s

/-- How a run of the core has ended (R82, R314). -/
inductive RunEnd where
  | halted | faulted | ranOffEnd
deriving DecidableEq, Repr

/-- The stopping condition of R314 that holds, if one does. -/
def State.runEnd (s : State) : Option RunEnd :=
  match s.driver with
  | .halted => some .halted
  | .faulted => some .faulted
  | .ready => if s.pcInside then none else some .ranOffEnd

/-- The normal terminations: HALT and running off the end (R82, R314). -/
def RunEnd.normal : RunEnd → Bool
  | .halted => true
  | .faulted => false
  | .ranOffEnd => true

-- ---------------------------------------------------------------- inspect

/-- The output `state`, 2 bits (R9, R35). -/
def DriverState.code : DriverState → BitVec 2
  | .ready => 0 | .halted => 1 | .faulted => 2

/-- The output `fault_cause`, 2 bits (R9, R281). -/
def FaultCause.code : FaultCause → BitVec 2
  | .none => 0 | .outOfBounds => 1 | .unknownOpcode => 2 | .invalidOperand => 3

/-- What `inspect` shows besides raw memory (R9, R300). -/
structure Snapshot where
  registers : List (Ident × Word)
  flags : List (Ident × Bool)
  state : BitVec 2
  faultCause : BitVec 2
  faultInfo : Word
  alreadyHalted : Bool
  ranOffEnd : Bool
  /-- The word at `pc`, if the host can read it; reading it never faults the core. -/
  instruction : Option Word
deriving DecidableEq, Repr

/-- `inspect`: a read without side effect (R300, log 18). -/
def inspect (s : State) : Snapshot where
  registers := RegId.all.map (fun r => (RegId.text r, s.reg r))
  flags := Flag.all.map (fun f => (Flag.text f, getFlag f (s.reg .flags)))
  state := DriverState.code s.driver
  faultCause := FaultCause.code s.faultCause
  faultInfo := s.faultInfo
  alreadyHalted := s.alreadyHalted
  ranOffEnd := s.ranOffEnd
  instruction := s.fetch

/-- The host's read of a memory byte (R300). -/
def inspectByte (s : State) (addr : Word) : Option Byte := s.memRead addr 1

/-- The host's read of a 16-bit value, the accessor of R56. -/
def inspectHalf (s : State) (addr : Word) : Option (BitVec 16) := s.memRead addr 2

/-- The host's read of a memory word (R300). -/
def inspectWord (s : State) (addr : Word) : Option Word := s.memRead addr 4

/-- The host's read of a float, as the number its pattern stands for (R56, R150). -/
def inspectFloat (s : State) (addr : Word) : Option FloatValue := (s.readFloat addr).map (fun f => f32 f.bits)

/-- The instruction at `pc` decoded to its fields (R300). -/
def inspectDecoded (s : State) : Option (Except Reject Instr) := s.fetch.map (decode s.flagIds)

end Sys2Proof.Machine
end

