-- ==== Sys2Proof/Machine/AsmLayout.lean ====
section
/-! DEFINITION. Pass 1 of the assembler: the commands after macro expansion as items, their sizes, the symbol table, the
segment addresses and the layout checks (R237 to R239, R245 to R253). -/

namespace Sys2Proof.Machine

-- ---------------------------------------------------------------- items

/-- A command as an instruction, a directive or nothing (R237). -/
inductive Item where
  | blank
  | instr (mnemonic : Ident) (ops : List Operand)
  | textSection
  | dataSection
  | equ (name : Ident) (value : Nat)
  | textStart (value : Nat)
  | stackStart (value : Nat)
  | stackSize (value : Nat)
  | word (value : Operand)
  | byte (value : Nat)
  | str (text : List Char)
  | space (size : Nat)
  | align (boundary : Nat)
  | bitv (first last : Nat)
deriving DecidableEq, Repr

/-- A command with its line, its label and its item. -/
structure LineItem where
  line : Nat
  label : Option Ident
  item : Item
deriving DecidableEq, Repr

/-- `b` is a power of two (R248). -/
def isPowerOfTwo (b : Nat) : Bool := decide (b ≠ 0) && decide (2 ^ Nat.log2 b = b)

/-- A directive and its operands (R237, R247, R248). A label that `.equ` defines is held to the rule for every label: it is not
named like a register or a flag (R232), as it could be in brackets. DESIGN CHOICE: an `.align` of 0 or of another number that is no power of two
is a parse error of its own, and so is an operand of a kind that the directive does not take (log 23). -/
def directiveItem (op : Ident) (ops : List Operand) : Except AsmFault Item :=
  if op = ".text".toList then
    match ops with
    | [] => .ok .textSection
    | _ => .error (.wrongOperands op)
  else if op = ".data".toList then
    match ops with
    | [] => .ok .dataSection
    | _ => .error (.wrongOperands op)
  else if op = ".equ".toList then
    match ops with
    | [.label n, .imm v] =>
      match labelFault (some n) with
      | some e => .error e
      | none => .ok (.equ n v)
    | _ => .error (.wrongOperands op)
  else if op = ".text_start".toList then
    match ops with
    | [.imm v] => .ok (.textStart v)
    | _ => .error (.wrongOperands op)
  else if op = ".stack_start".toList then
    match ops with
    | [.imm v] => .ok (.stackStart v)
    | _ => .error (.wrongOperands op)
  else if op = ".stack_size".toList then
    match ops with
    | [.imm v] => .ok (.stackSize v)
    | _ => .error (.wrongOperands op)
  else if op = ".word".toList then
    match ops with
    | [.imm v] => .ok (.word (.imm v))
    | [.label n] => .ok (.word (.label n))
    | _ => .error (.wrongOperands op)
  else if op = ".byte".toList then
    match ops with
    | [.imm v] => .ok (.byte v)
    | _ => .error (.wrongOperands op)
  else if op = ".string".toList then
    match ops with
    | [.str t] => .ok (.str t)
    | _ => .error (.wrongOperands op)
  else if op = ".space".toList then
    match ops with
    | [.imm v] => .ok (.space v)
    | _ => .error (.wrongOperands op)
  else if op = ".align".toList then
    match ops with
    | [.imm b] => if isPowerOfTwo b then .ok (.align b) else .error (.notPowerOfTwo b)
    | _ => .error (.wrongOperands op)
  else if op = ".bitv".toList then
    match ops with
    | [.address b, .address e] => if e < b then .error (.negativeSize b e) else .ok (.bitv b e)
    | _ => .error (.wrongOperands op)
  else .error (.unknownDirective op)

/-- How many operands a directive takes; none for a name that is no directive (R237). The two macro directives never get
here. -/
def directiveOperands (op : Ident) : Option Nat :=
  if op ∈ [".text".toList, ".data".toList] then some 0
  else if op ∈ [".text_start".toList, ".stack_start".toList, ".stack_size".toList, ".word".toList, ".byte".toList,
      ".string".toList, ".space".toList, ".align".toList] then some 1
  else if op ∈ [".equ".toList, ".bitv".toList] then some 2
  else none

/-- What an operand position of an instruction takes, as far as parsing looks at it (R260). -/
inductive Slot where
  /-- A register and nothing else. -/
  | register
  /-- A flag and nothing else. -/
  | flag
  /-- A value or an address, in some mnemonics also a register. -/
  | value
deriving DecidableEq, Repr

/-- The operand positions of a mnemonic (R260). -/
def operandSlots : Opcode → List Slot
  | .movi => [.register, .value] | .movw => [.register, .value] | .lodi => [.register, .value]
  | .lodw => [.register, .value] | .stri => [.value, .value] | .strw => [.value, .value]
  | .push => [.value] | .pop => [.register] | .xcgh => [.register, .register]
  | .addw => [.register, .value] | .subw => [.register, .value] | .mul => [.register, .value]
  | .inc => [.register] | .dec => [.register] | .neg => [.register] | .not => [.register]
  | .and => [.register, .value] | .or => [.register, .value] | .xor => [.register, .value]
  | .cmpw => [.register, .value]
  | .jmp => [.value] | .call => [.value] | .ret => []
  | .je => [.value] | .jne => [.value] | .jgt => [.value] | .jge => [.value]
  | .jlt => [.value] | .jle => [.value] | .js => [.value] | .jco => [.value]
  | .setf => [.flag] | .clrf => [.flag] | .halt => []

/-- A word where only a register or only a flag can stand and that names none: the parse error "unknown register/flag name"
(R268, log 23). The listed names, the parameters of a macro whose body is looked at, are excused. -/
def slotFault (params : List Ident) (slot : Slot) (o : Operand) : Option AsmFault :=
  match slot, o with
  | .register, .label n => if params.contains n then none else some (.unknownRegister n)
  | .flag, .label n => if params.contains n then none else some (.unknownFlag n)
  | _, _ => none

/-- The first parse error in the operands of an instruction: a position without an operand, or an unknown name (R268).
Operands of a wrong kind and operands too many are encoding errors (R260). -/
def operandFault (params : List Ident) (name : Ident) : List Slot → List Operand → Option AsmFault
  | [], _ => none
  | _ :: _, [] => some (.missingOperand name)
  | slot :: slots, o :: os => (slotFault params slot o).or (operandFault params name slots os)

/-- A parse error that a command shows without the values of its operands: an unknown directive, an operand missing, too many
operands of a directive, an unknown register or flag name (R237, R268). An opcode that begins with `.` is a directive
(R231). -/
def shapeFault (params : List Ident) (c : Command) : Option AsmFault :=
  match c.opcode with
  | [] => none
  | '.' :: _ =>
    match directiveOperands c.opcode with
    | none => some (.unknownDirective c.opcode)
    | some n =>
      if c.operands.length < n then some (.missingOperand c.opcode)
      else if n < c.operands.length then some (.wrongOperands c.opcode)
      else none
  | _ =>
    match opcodeNamed c.opcode with
    | none => none
    | some op => operandFault params c.opcode (operandSlots op) c.operands

/-- The item of an expanded command, or its parse error (R231, R236, R268). -/
def commandItem (c : Command) : Except AsmFault Item :=
  match shapeFault [] c with
  | some e => .error e
  | none =>
    match c.opcode with
    | [] => .ok .blank
    | '.' :: _ => directiveItem c.opcode c.operands
    | _ => .ok (.instr c.opcode c.operands)

/-- The items of a list of commands, collecting every error. -/
def commandItems : List Command → List LineItem × List AsmError
  | [] => ([], [])
  | c :: cs =>
    match commandItem c with
    | .ok i => (⟨c.line, c.label, i⟩ :: (commandItems cs).1, (commandItems cs).2)
    | .error e => ((commandItems cs).1, ⟨c.line, e⟩ :: (commandItems cs).2)

/-- The operand is a placeholder of a macro with these parameters (R240). -/
def isPlaceholder (params : List Ident) (o : Operand) : Bool :=
  match o with
  | .label n => params.contains n
  | .str _ => false
  | .reg _ => false
  | .flag _ => false
  | .addressReg _ => false
  | .address _ => false
  | .imm _ => false

/-- The parse error of a command in a macro body, which is one whether or not the macro is ever called (R237, R268). What
depends on the operand that replaces a placeholder shows at the call. -/
def bodyFault (params : List Ident) (c : Command) : Option AsmFault :=
  match shapeFault params c with
  | some e => some e
  | none =>
    if c.operands.any (isPlaceholder params) then none
    else
      match commandItem c with
      | .error e => some e
      | .ok _ => none

/-- The parse errors in the body of a macro, at their own lines. -/
def MacroDef.bodyErrors (d : MacroDef) : List AsmError :=
  d.body.filterMap (fun c => (bodyFault d.params c).map (fun e => ⟨c.line, e⟩))

/-- The macro without the commands that `bodyErrors` reports, so that a call does not report them again. -/
def MacroDef.sound (d : MacroDef) : MacroDef := { d with body := d.body.filter (fun c => (bodyFault d.params c).isNone) }

-- ---------------------------------------------------------------- sizes

/-- The UTF-8 bytes of a text and the null byte (R237). -/
def stringBytes (t : List Char) : List Byte :=
  t.flatMap (fun c => (String.utf8EncodeChar c).map (fun b => b.toBitVec)) ++ [0]

/-- The padding of `.align b` at data counter `c` (R248). -/
def alignPadding (b c : Nat) : Nat := (b - c % b) % b

/-- The bytes an item occupies in the data section, the data counter being `c` (R237, R247). -/
def dataSizeOf (c : Nat) : Item → Nat
  | .word _ => 4
  | .byte _ => 1
  | .str t => (stringBytes t).length
  | .space n => n
  | .align b => alignPadding b c
  | .bitv b e => e - b + 1
  | .blank => 0
  | .instr _ _ => 0
  | .textSection => 0
  | .dataSection => 0
  | .equ _ _ => 0
  | .textStart _ => 0
  | .stackStart _ => 0
  | .stackSize _ => 0

/-- The bytes an item occupies in the text section: 4 for an instruction (R247). -/
def textSizeOf : Item → Nat
  | .instr _ _ => 4
  | .word _ => 0
  | .byte _ => 0
  | .str _ => 0
  | .space _ => 0
  | .align _ => 0
  | .bitv _ _ => 0
  | .blank => 0
  | .textSection => 0
  | .dataSection => 0
  | .equ _ _ => 0
  | .textStart _ => 0
  | .stackStart _ => 0
  | .stackSize _ => 0

/-- The directive belongs in the data section (R245). -/
def isDataItem : Item → Bool
  | .word _ => true
  | .byte _ => true
  | .str _ => true
  | .space _ => true
  | .align _ => true
  | .bitv _ _ => true
  | .instr _ _ => false
  | .blank => false
  | .textSection => false
  | .dataSection => false
  | .equ _ _ => false
  | .textStart _ => false
  | .stackStart _ => false
  | .stackSize _ => false

/-- The item is an instruction. -/
def isInstrItem : Item → Bool
  | .instr _ _ => true
  | .word _ => false
  | .byte _ => false
  | .str _ => false
  | .space _ => false
  | .align _ => false
  | .bitv _ _ => false
  | .blank => false
  | .textSection => false
  | .dataSection => false
  | .equ _ _ => false
  | .textStart _ => false
  | .stackStart _ => false
  | .stackSize _ => false

-- ---------------------------------------------------------------- pass 1

/-- A symbol before the segment addresses are known: relative to a section, or a value of `.equ` (R246, R253). -/
inductive Symbol where
  | inText (offset : Nat)
  | inData (offset : Nat)
  | constant (value : Nat)
deriving DecidableEq, Repr

/-- What pass 1 tracks (R245). -/
structure Layout where
  inData : Bool
  textSize : Nat
  dataSize : Nat
  symbols : List (Ident × Symbol)
  textStart : Option Nat
  stackStart : Option Nat
  stackSize : Option Nat
  errors : List AsmError
deriving DecidableEq, Repr

/-- The start of pass 1: the Text section, both counters 0 (R245). -/
def Layout.empty : Layout := ⟨false, 0, 0, [], none, none, none, []⟩

/-- Record an error. -/
def Layout.fail (l : Layout) (line : Nat) (e : AsmFault) : Layout := { l with errors := l.errors ++ [⟨line, e⟩] }

/-- Define a symbol; a second definition is an error (R252). DESIGN CHOICE: label names are compared letter for letter, so that
`x` and `X` are two labels (log 21). -/
def Layout.define (l : Layout) (line : Nat) (name : Ident) (v : Symbol) : Layout :=
  if l.symbols.any (fun p => p.1 == name) then l.fail line (.duplicateLabel name)
  else { l with symbols := l.symbols ++ [(name, v)] }

/-- Record the label of a line at the current section's counter, before the line's size is added (R246). -/
def Layout.defineLabel (l : Layout) (line : Nat) (label : Option Ident) : Layout :=
  match label with
  | none => l
  | some n => l.define line n (if l.inData then .inData l.dataSize else .inText l.textSize)

/-- Set a segment option, at most once in the program (R238). -/
def setOnce (old : Option Nat) (v : Nat) : Option (Option Nat) :=
  match old with
  | none => some (some v)
  | some _ => none

/-- An item that is in the wrong section (R245). DESIGN CHOICE: a line in the Data section whose mnemonic is unknown counts as an
instruction there, so that it is this error of pass 1 and not the unsupported mnemonic of pass 2 (log 23). -/
def sectionFault (inData : Bool) (i : Item) : Option AsmFault :=
  if isInstrItem i && inData then some .instructionInData
  else if isDataItem i && !inData then some .dataInText
  else none

/-- The effect of an item on the section and the options; sizes are added apart (R237 to R239). -/
def Layout.direct (l : Layout) (line : Nat) (i : Item) : Layout :=
  match i with
  | .textSection => { l with inData := false }
  | .dataSection => { l with inData := true }
  | .equ n v => l.define line n (.constant v)
  | .textStart v =>
    match setOnce l.textStart v with
    | some o => { l with textStart := o }
    | none => l.fail line (.duplicateDirective ".text_start".toList)
  | .stackStart v =>
    match setOnce l.stackStart v with
    | some o => { l with stackStart := o }
    | none => l.fail line (.duplicateDirective ".stack_start".toList)
  | .stackSize v =>
    match setOnce l.stackSize v with
    | some o => { l with stackSize := o }
    | none => l.fail line (.duplicateDirective ".stack_size".toList)
  | .blank => l
  | .instr _ _ => l
  | .word _ => l
  | .byte _ => l
  | .str _ => l
  | .space _ => l
  | .align _ => l
  | .bitv _ _ => l

/-- Check an item's section. -/
def Layout.checkSection (l : Layout) (line : Nat) (i : Item) : Layout :=
  match sectionFault l.inData i with
  | some e => l.fail line e
  | none => l

/-- Add an item's size to the counters (R247). -/
def Layout.addSize (l : Layout) (i : Item) : Layout :=
  { l with textSize := l.textSize + textSizeOf i, dataSize := l.dataSize + dataSizeOf l.dataSize i }

/-- One line of pass 1: its label, its section, its directive, its size (R245 to R247). DESIGN CHOICE: the label of a `.text`
or `.data` line belongs to the section in force before the line (log 26). -/
def Layout.next (l : Layout) (x : LineItem) : Layout :=
  (((l.defineLabel x.line x.label).checkSection x.line x.item).direct x.line x.item).addSize x.item

/-- Pass 1 (R245). -/
def layoutOf (xs : List LineItem) : Layout := xs.foldl Layout.next Layout.empty

-- ---------------------------------------------------------------- segment addresses

/-- The segment addresses (R250), as exact integers: a stack or data segment that is too large would start below address 0,
which the checks of R251 refuse. -/
structure Segments where
  textStart : Nat
  stackSize : Nat
  stackStart : Int
  dataStart : Int
deriving DecidableEq, Repr

/-- The start of the stack: as configured, or so that the stack ends with memory (R250). -/
def stackStartOf (size : Nat) (l : Layout) : Int :=
  match l.stackStart with
  | some v => v
  | none => (size : Int) - (l.stackSize.getD 4096 : Nat)

/-- The addresses after pass 1, with the defaults of R250. -/
def segmentsOf (size : Nat) (l : Layout) : Segments where
  textStart := l.textStart.getD 0
  stackSize := l.stackSize.getD 4096
  stackStart := stackStartOf size l
  dataStart := stackStartOf size l - l.dataSize

/-- The layout checks of R251; each error names the segments and their addresses. -/
def layoutFaults (size : Nat) (l : Layout) (g : Segments) : List AsmFault :=
  (if g.textStart < size then [] else [.segmentOutside .text g.textStart (g.textStart + l.textSize)]) ++
  (if 0 ≤ g.stackStart ∧ g.stackStart < size ∧ g.stackStart + g.stackSize ≤ size then []
    else [.segmentOutside .stack g.stackStart (g.stackStart + g.stackSize)]) ++
  (if 0 ≤ g.dataStart then [] else [.oversized .data g.dataStart g.stackStart]) ++
  (if (g.textStart : Int) + l.textSize ≤ g.dataStart then []
    else [.segmentOverlap .text g.textStart (g.textStart + l.textSize) .data g.dataStart g.stackStart])

/-- The address of a symbol (R253), once the layout checks have passed and no address is negative. -/
def symbolAddress (g : Segments) : Symbol → Nat
  | .inText o => g.textStart + o
  | .inData o => g.dataStart.toNat + o
  | .constant v => v

/-- The symbol table that pass 2 consults (R252, R253). -/
def symbolTable (l : Layout) (g : Segments) : List (Ident × Nat) := l.symbols.map (fun p => (p.1, symbolAddress g p.2))

end Sys2Proof.Machine
end

