-- ==== Sys2Proof/Machine/Assembler.lean ====
section
/-! DEFINITION. Pass 2 of the assembler and the assembler as a whole (R230, R260 to R269): from source text to the image that
`reset_load` takes, or to a list of errors. -/

namespace Sys2Proof.Machine

-- ---------------------------------------------------------------- operands of an instruction

/-- The number of an `Immediate` or a resolved `Label` (R260, R261). DESIGN CHOICE: the name is looked up letter for letter
(log 21). -/
def valueOf (syms : List (Ident × Nat)) (op : Ident) (o : Operand) : Except AsmFault Nat :=
  match o with
  | .imm n => .ok n
  | .label name =>
    match syms.find? (fun p => p.1 == name) with
    | some p => .ok p.2
    | none => .error (.unknownLabel name)
  | .str _ => .error (.operandKind op)
  | .reg _ => .error (.operandKind op)
  | .flag _ => .error (.operandKind op)
  | .addressReg _ => .error (.operandKind op)
  | .address _ => .error (.operandKind op)

/-- The number of an `Address` or a resolved label (R260, R261). -/
def addressOf (syms : List (Ident × Nat)) (op : Ident) (o : Operand) : Except AsmFault Nat :=
  match o with
  | .address n => .ok n
  | .label name => valueOf syms op (.label name)
  | .imm _ => .error (.operandKind op)
  | .str _ => .error (.operandKind op)
  | .reg _ => .error (.operandKind op)
  | .flag _ => .error (.operandKind op)
  | .addressReg _ => .error (.operandKind op)

/-- The target of a jump or a call: an address or a value (R260). -/
def targetOf (syms : List (Ident × Nat)) (op : Ident) (o : Operand) : Except AsmFault Nat :=
  match o with
  | .address n => .ok n
  | .imm n => .ok n
  | .label name => valueOf syms op (.label name)
  | .str _ => .error (.operandKind op)
  | .reg _ => .error (.operandKind op)
  | .flag _ => .error (.operandKind op)
  | .addressReg _ => .error (.operandKind op)

/-- A number in a field of `w` bits (R263). -/
def fit (w n : Nat) : Except AsmFault (BitVec w) :=
  if n < 2 ^ w then .ok (BitVec.ofNat w n) else .error (.tooWide w n)

/-- An immediate of a mode-bit format: 16 bits and even (R263, conflict C1). -/
def fitEven (n : Nat) : Except AsmFault (BitVec 16) :=
  if n % 2 = 1 ∧ n < 2 ^ 16 then .error (.oddImmediate n) else fit 16 n

/-- A register and a value: formats RI (R260). -/
def buildRI (syms : List (Ident × Nat)) (op : Ident) (mk : RegId → BitVec 16 → Instr) :
    List Operand → Except AsmFault Instr
  | [.reg d, o] => (valueOf syms op o).bind fun n => (fit 16 n).map (mk d)
  | _ => .error (.operandKind op)

/-- Format RM: a register, then a register or an even value (R260). -/
def buildRM (syms : List (Ident × Nat)) (op : Ident) (mkR : RegId → RegId → Instr) (mkI : RegId → BitVec 16 → Instr) :
    List Operand → Except AsmFault Instr
  | [.reg d, .reg s] => .ok (mkR d s)
  | [.reg d, o] => (valueOf syms op o).bind fun n => (fitEven n).map (mkI d)
  | _ => .error (.operandKind op)

/-- Format RA: a register and an address (R260). -/
def buildRA (syms : List (Ident × Nat)) (op : Ident) (mk : RegId → BitVec 16 → Instr) :
    List Operand → Except AsmFault Instr
  | [.reg d, o] => (addressOf syms op o).bind fun n => (fit 16 n).map (mk d)
  | _ => .error (.operandKind op)

/-- Format AI: an address of 8 bits and a value (R260). -/
def buildAI (syms : List (Ident × Nat)) (op : Ident) (mk : BitVec 8 → BitVec 16 → Instr) :
    List Operand → Except AsmFault Instr
  | [o, p] =>
    (addressOf syms op o).bind fun a => (fit 8 a).bind fun a8 =>
      (valueOf syms op p).bind fun n => (fit 16 n).map (mk a8)
  | _ => .error (.operandKind op)

/-- Format AM: an address of 8 bits, then a register or an even value (R260). -/
def buildAM (syms : List (Ident × Nat)) (op : Ident) (mkR : BitVec 8 → RegId → Instr)
    (mkI : BitVec 8 → BitVec 16 → Instr) : List Operand → Except AsmFault Instr
  | [o, .reg s] => (addressOf syms op o).bind fun a => (fit 8 a).map fun a8 => mkR a8 s
  | [o, p] =>
    (addressOf syms op o).bind fun a => (fit 8 a).bind fun a8 =>
      (valueOf syms op p).bind fun n => (fitEven n).map (mkI a8)
  | _ => .error (.operandKind op)

/-- Format PM: a register or an even value (R260). -/
def buildPM (syms : List (Ident × Nat)) (op : Ident) (mkR : RegId → Instr) (mkI : BitVec 16 → Instr) :
    List Operand → Except AsmFault Instr
  | [.reg s] => .ok (mkR s)
  | [o] => (valueOf syms op o).bind fun n => (fitEven n).map mkI
  | _ => .error (.operandKind op)

/-- Format R: one register (R260). -/
def buildR (op : Ident) (mk : RegId → Instr) : List Operand → Except AsmFault Instr
  | [.reg d] => .ok (mk d)
  | _ => .error (.operandKind op)

/-- Format RR: two registers (R260). -/
def buildRR (op : Ident) (mk : RegId → RegId → Instr) : List Operand → Except AsmFault Instr
  | [.reg a, .reg b] => .ok (mk a b)
  | _ => .error (.operandKind op)

/-- Format J: a target of 24 bits (R260). -/
def buildJ (syms : List (Ident × Nat)) (op : Ident) (mk : BitVec 24 → Instr) : List Operand → Except AsmFault Instr
  | [o] => (targetOf syms op o).bind fun n => (fit 24 n).map mk
  | _ => .error (.operandKind op)

/-- Format N: no operand (R260). -/
def buildN (op : Ident) (i : Instr) : List Operand → Except AsmFault Instr
  | [] => .ok i
  | _ => .error (.operandKind op)

/-- Format F: a flag (R260). -/
def buildF (op : Ident) (mk : Flag → Instr) : List Operand → Except AsmFault Instr
  | [.flag f] => .ok (mk f)
  | _ => .error (.operandKind op)

/-- The instruction of an opcode and its operands (R260). -/
def buildInstr (syms : List (Ident × Nat)) (name : Ident) (op : Opcode) (ops : List Operand) :
    Except AsmFault Instr :=
  match op with
  | .movi => buildRI syms name .movi ops
  | .movw => buildRM syms name .movwR .movwI ops
  | .lodi => buildRI syms name .lodi ops
  | .lodw => buildRA syms name .lodw ops
  | .stri => buildAI syms name .stri ops
  | .strw => buildAM syms name .strwR .strwI ops
  | .push => buildPM syms name .pushR .pushI ops
  | .pop => buildR name .pop ops
  | .xcgh => buildRR name .xcgh ops
  | .addw => buildRM syms name .addwR .addwI ops
  | .subw => buildRM syms name .subwR .subwI ops
  | .mul => buildRM syms name .mulR .mulI ops
  | .inc => buildR name .inc ops
  | .dec => buildR name .dec ops
  | .neg => buildR name .neg ops
  | .not => buildR name .not ops
  | .and => buildRM syms name .andR .andI ops
  | .or => buildRM syms name .orR .orI ops
  | .xor => buildRM syms name .xorR .xorI ops
  | .cmpw => buildRM syms name .cmpwR .cmpwI ops
  | .jmp => buildJ syms name .jmp ops
  | .call => buildJ syms name .call ops
  | .ret => buildN name .ret ops
  | .je => buildJ syms name .je ops
  | .jne => buildJ syms name .jne ops
  | .jgt => buildJ syms name .jgt ops
  | .jge => buildJ syms name .jge ops
  | .jlt => buildJ syms name .jlt ops
  | .jle => buildJ syms name .jle ops
  | .js => buildJ syms name .js ops
  | .jco => buildJ syms name .jco ops
  | .setf => buildF name .setf ops
  | .clrf => buildF name .clrf ops
  | .halt => buildN name .halt ops

/-- The flag of an instruction that has one: why an instruction may have no word (R234). -/
def flagFault (i : Instr) (name : Ident) : AsmFault :=
  match i with
  | .setf f => .flagWithoutId f
  | .clrf f => .flagWithoutId f
  | _ => .operandKind name

/-- The word of an instruction line (R260 to R265). -/
def assembleInstr (m : FlagIdMap) (syms : List (Ident × Nat)) (name : Ident) (ops : List Operand) :
    Except AsmFault Word :=
  match opcodeNamed name with
  | none => .error (.unsupportedMnemonic name)
  | some op =>
    (buildInstr syms name op ops).bind fun i =>
      match encode m i with
      | some w => .ok w
      | none => .error (flagFault i name)

-- ---------------------------------------------------------------- pass 2

/-- The words an item adds to the text (R265). -/
def textOf (m : FlagIdMap) (syms : List (Ident × Nat)) (i : Item) : Except AsmFault (List Word) :=
  match i with
  | .instr name ops => (assembleInstr m syms name ops).map fun w => [w]
  | .blank => .ok []
  | .textSection => .ok []
  | .dataSection => .ok []
  | .equ _ _ => .ok []
  | .textStart _ => .ok []
  | .stackStart _ => .ok []
  | .stackSize _ => .ok []
  | .word _ => .ok []
  | .byte _ => .ok []
  | .str _ => .ok []
  | .space _ => .ok []
  | .align _ => .ok []
  | .bitv _ _ => .ok []

/-- The bytes an item adds to the data, the data counter being `c` (R237, R265). -/
def dataOf (syms : List (Ident × Nat)) (c : Nat) (i : Item) : Except AsmFault (List Byte) :=
  match i with
  | .word o => (valueOf syms ".word".toList o).map fun n => leBytes 4 n
  | .byte v => (fit 8 v).map fun b => [b]
  | .str t => .ok (stringBytes t)
  | .space n => .ok (List.replicate n 0)
  | .align b => .ok (List.replicate (alignPadding b c) 0)
  | .bitv b e => .ok (List.replicate (e - b + 1) 0)
  | .blank => .ok []
  | .instr _ _ => .ok []
  | .textSection => .ok []
  | .dataSection => .ok []
  | .equ _ _ => .ok []
  | .textStart _ => .ok []
  | .stackStart _ => .ok []
  | .stackSize _ => .ok []

/-- What pass 2 has emitted. -/
structure Emitted where
  text : List Word
  data : List Byte
  errors : List AsmError
deriving DecidableEq, Repr

/-- Pass 2 from a data counter on: text words and data bytes in order, collecting every error (R265, R268). -/
def emit (m : FlagIdMap) (syms : List (Ident × Nat)) : Nat → List LineItem → Emitted
  | _, [] => ⟨[], [], []⟩
  | c, x :: xs =>
    match emit m syms (c + dataSizeOf c x.item) xs with
    | ⟨ws, bs, es⟩ =>
      match textOf m syms x.item, dataOf syms c x.item with
      | .ok w, .ok b => ⟨w ++ ws, b ++ bs, es⟩
      | .error e, _ => ⟨ws, bs, ⟨x.line, e⟩ :: es⟩
      | .ok _, .error e => ⟨ws, bs, ⟨x.line, e⟩ :: es⟩

/-- The output of the assembler (R266). -/
structure AssembledProgram where
  text : List Word
  data : List Byte
  textStart : Nat
  dataStart : Nat
  stackStart : Nat
  stackSize : Nat
deriving DecidableEq, Repr

/-- The commands of a source text after macro expansion, as items, with every parse error (R231 to R241, R254). -/
def parseSource (src : List Char) : List LineItem × List AsmError :=
  let lines := parseLines 1 (splitLines src)
  let split := splitMacros none lines.1
  let expanded := expandAll (split.macros.map MacroDef.sound) split.commands
  let items := commandItems expanded.1
  (items.1, lines.2 ++ split.errors ++ repeatedMacros [] split.macros ++ split.macros.flatMap MacroDef.bodyErrors ++
    expanded.2 ++ items.2)

/-- Both passes over parsed items: pass 1, the layout checks, pass 2 (R245 to R251, R265). -/
def assembleItems (size : MemSize) (m : FlagIdMap) (xs : List LineItem) : Except (List AsmError) AssembledProgram :=
  let l := layoutOf xs
  let g := segmentsOf size.bytes l
  let es := l.errors ++ (layoutFaults size.bytes l g).map (fun e => ⟨0, e⟩)
  if es.isEmpty then
    let out := emit m (symbolTable l g) 0 xs
    if out.errors.isEmpty then
      .ok ⟨out.text, out.data, g.textStart, g.dataStart.toNat, g.stackStart.toNat, g.stackSize⟩
    else .error out.errors
  else .error es

/-- The assembler: a function of the source text, the memory size and the numbering of flag ids (R230). -/
def assemble (size : MemSize) (m : FlagIdMap) (src : List Char) : Except (List AsmError) AssembledProgram :=
  if (parseSource src).2.isEmpty then assembleItems size m (parseSource src).1 else .error (parseSource src).2

/-- The request that loads an assembled program (R266). -/
def AssembledProgram.loadRequest (p : AssembledProgram) (size : MemSize) (m : FlagIdMap) : LoadRequest where
  memSize := size.bytes
  flagIds := m
  textStart := p.textStart
  stackStart := p.stackStart
  text := p.text
  dataStart := p.dataStart
  data := p.data

end Sys2Proof.Machine
end

