-- ==== Sys2Proof/Safety.lean ====
section
/-! DEFINITION. The invariant of the machine, what counts as a safe state, and the terms in which the statements say what a
step changes and what it leaves alone. -/

namespace Sys2Proof.Machine

/-- The latches agree with the driver state: a fault is recorded exactly in the Faulted state, `fault_info` is 0 until
then and an illegal opcode or a full word after it (R281), and `already_halted` is set only in the Halted state
(R290). -/
def State.latchesOk (s : State) : Bool :=
  match s.faultCause with
  | .none => decide (s.driver ≠ .faulted) && decide (s.faultInfo = 0) &&
      (!s.alreadyHalted || decide (s.driver = .halted))
  | .outOfBounds => decide (s.driver = .faulted) && !s.alreadyHalted
  | .unknownOpcode => decide (s.driver = .faulted) && !s.alreadyHalted && decide (s.faultInfo.toNat < 256) &&
      (Opcode.ofByte (s.faultInfo.setWidth 8)).isNone
  | .invalidOperand => decide (s.driver = .faulted) && !s.alreadyHalted &&
      (Opcode.ofByte (opcodeField s.faultInfo)).isSome

/-- The invariant: memory has its canonical form and no byte outside the address space (R50), and the latches agree with
the driver state. -/
def State.Inv (s : State) : Bool := s.mem.wf && s.mem.within s.memSize.bytes && s.latchesOk

/-- The core is Faulted: the run it was in has ended abnormally (R291, R314). -/
def State.isFaulted (s : State) : Bool := decide (s.driver = .faulted)

/-- The core is Halted (R35). -/
def State.isHalted (s : State) : Bool := decide (s.driver = .halted)

-- ---------------------------------------------------------------- what a step leaves alone

/-- Driver state, latches and parameters are unchanged. -/
def State.SameDriver (s t : State) : Prop :=
  t.driver = s.driver ∧ t.faultCause = s.faultCause ∧ t.faultInfo = s.faultInfo ∧
    t.alreadyHalted = s.alreadyHalted ∧ t.memSize = s.memSize ∧ t.flagIds = s.flagIds

/-- Every byte of memory is unchanged. -/
def State.SameMemory (s t : State) : Prop := ∀ a, t.mem.readByte a = s.mem.readByte a

/-- Every byte of memory outside the four at an address is unchanged. -/
def State.SameMemoryOutside (s t : State) (addr : Nat) : Prop :=
  ∀ a, a < addr ∨ addr + 4 ≤ a → t.mem.readByte a = s.mem.readByte a

/-- Every register outside a list is unchanged. -/
def State.SameRegsBut (s t : State) (l : List RegId) : Prop := ∀ r, r ∉ l → t.reg r = s.reg r

/-- The four bytes at an address as a word, `M[addr+3], …, M[addr]` from the top down (R52). -/
def wordAt (m : Memory) (addr : Nat) : Word :=
  m.readByte (addr + 3) ++ m.readByte (addr + 2) ++ m.readByte (addr + 1) ++ m.readByte addr

/-- The four bytes at an address are those of a word, bits 7 to 0 at the lowest address (R51, R53). -/
def HoldsWord (m : Memory) (addr : Nat) (v : Word) : Prop :=
  m.readByte addr = v.extractLsb' 0 8 ∧ m.readByte (addr + 1) = v.extractLsb' 8 8 ∧
    m.readByte (addr + 2) = v.extractLsb' 16 8 ∧ m.readByte (addr + 3) = v.extractLsb' 24 8

/-- `i` completes from `s` by writing `v` to `d` and nothing else. -/
def CompletesWith (i : Instr) (s : State) (d : RegId) (v : Word) : Prop :=
  ∃ t, exec i s = .next t ∧ t.reg d = v ∧ s.SameRegsBut t [d] ∧ s.SameMemory t ∧ s.SameDriver t ∧ t.draws = s.draws

/-- `i` raises a fault from `s`: the driver is Faulted with the fault's cause and datum, and nothing else changes (R283). -/
def Faults (i : Instr) (s : State) (cause : FaultCause) (info : Word) : Prop :=
  ∃ t, exec i s = .next t ∧ t.driver = .faulted ∧ t.faultCause = cause ∧ t.faultInfo = info ∧
    (∀ r, t.reg r = s.reg r) ∧ s.SameMemory t ∧ t.alreadyHalted = s.alreadyHalted ∧ t.memSize = s.memSize ∧
    t.flagIds = s.flagIds ∧ t.draws = s.draws

/-- `i` completes from `s` by storing `v` at `addr` and nothing else: memory outside the four bytes and every register
outside a list are unchanged. -/
def CompletesStoring (i : Instr) (s : State) (addr v : Word) (l : List RegId) (t : State) : Prop :=
  exec i s = .next t ∧ HoldsWord t.mem addr.toNat v ∧ s.SameMemoryOutside t addr.toNat ∧ s.SameRegsBut t l ∧
    s.SameDriver t ∧ t.draws = s.draws

/-- `i` completes from `s`, and a fetch at `addr` right after it reads the word `v` (R65). -/
def FetchSees (i : Instr) (s : State) (addr v : Word) : Prop :=
  ∃ t, exec i s = .next t ∧ (t.setReg .pc addr).fetch = some v ∧ (t.reg .pc = addr → t.fetch = some v)

/-- The FLAGS word `w` with the four condition flags replaced (R27, R29). -/
def FlagsAre (w w' : Word) (zero sign carry overflow : Bool) : Prop :=
  w'.getLsbD 6 = zero ∧ w'.getLsbD 7 = sign ∧ w'.getLsbD 0 = carry ∧ w'.getLsbD 11 = overflow ∧
    ∀ i, i ≠ 6 → i ≠ 7 → i ≠ 0 → i ≠ 11 → w'.getLsbD i = w.getLsbD i

/-- `i` completes from `s` by writing `v` to `d`, then the four condition flags into the FLAGS word that stands after
that write (R31), and nothing else. -/
def CompletesWithFlags (i : Instr) (s : State) (d : RegId) (v : Word) (zero sign carry overflow : Bool)
    (draws : Nat) : Prop :=
  ∃ t, exec i s = .next t ∧ (d ≠ .flags → t.reg d = v) ∧
    FlagsAre (if d = .flags then v else s.reg .flags) (t.reg .flags) zero sign carry overflow ∧
    s.SameRegsBut t [d, .flags] ∧ s.SameMemory t ∧ s.SameDriver t ∧ t.draws = draws

/-- `i` completes from `s` as the float operation `op` on `a` and `b` with destination `d`: a numeric result is written with
the flags of R153; a NaN result writes some NaN pattern with all four flags clear (R154). -/
def CompletesFloat (i : Instr) (s : State) (d : RegId) (op : FloatOp) (a b : Word) : Prop :=
  match floatCompute op a b with
  | .num v => CompletesWithFlags i s d v (floatIsZero v) (floatIsNegative v) false false s.draws
  | .nan => ∃ v, isNaN v = true ∧ CompletesWithFlags i s d v false false false false (s.draws + 1)

/-- `i` completes from `s` with `pc` at `t` and nothing else changed. -/
def CompletesAt (i : Instr) (s : State) (t : Word) : Prop := CompletesWith i s .pc t

/-- An instruction executed a number of times, each time from the state the last time left. -/
def repeatExec (i : Instr) : Nat → State → Result
  | 0, s => .next s
  | n + 1, s =>
    match exec i s with
    | .next t => repeatExec i n t
    | .fault f => .fault f
    | .refused r => .refused r

-- ---------------------------------------------------------------- what an instruction may write

/-- The destination registers an instruction names in its word (R120 to R175); CMPW names none. -/
def destRegs (i : Instr) : List RegId :=
  match i with
  | .movi d _ => [d]
  | .movwR d _ => [d]
  | .movwI d _ => [d]
  | .lodi d _ => [d]
  | .lodw d _ => [d]
  | .stri _ _ => []
  | .strwR _ _ => []
  | .strwI _ _ => []
  | .pushR _ => []
  | .pushI _ => []
  | .pop d => [d]
  | .xcgh a b => [a, b]
  | .addwR d _ => [d]
  | .addwI d _ => [d]
  | .subwR d _ => [d]
  | .subwI d _ => [d]
  | .mulR d _ => [d]
  | .mulI d _ => [d]
  | .inc d => [d]
  | .dec d => [d]
  | .neg d => [d]
  | .not d => [d]
  | .andR d _ => [d]
  | .andI d _ => [d]
  | .orR d _ => [d]
  | .orI d _ => [d]
  | .xorR d _ => [d]
  | .xorI d _ => [d]
  | .cmpwR _ _ => []
  | .cmpwI _ _ => []
  | .jmp _ => []
  | .call _ => []
  | .ret => []
  | .je _ => []
  | .jne _ => []
  | .jgt _ => []
  | .jge _ => []
  | .jlt _ => []
  | .jle _ => []
  | .js _ => []
  | .jco _ => []
  | .setf _ => []
  | .clrf _ => []
  | .halt => []

/-- The registers an instruction writes without naming them as a destination, besides the prologue's advance of `pc`
(R24, R25, R29, R221, R222). -/
def impliedRegs (i : Instr) : List RegId :=
  match i with
  | .movi _ _ => []
  | .movwR _ _ => []
  | .movwI _ _ => []
  | .lodi _ _ => []
  | .lodw _ _ => []
  | .stri _ _ => []
  | .strwR _ _ => []
  | .strwI _ _ => []
  | .pushR _ => [.sp]
  | .pushI _ => [.sp]
  | .pop _ => [.sp]
  | .xcgh _ _ => []
  | .addwR _ _ => [.flags]
  | .addwI _ _ => [.flags]
  | .subwR _ _ => [.flags]
  | .subwI _ _ => [.flags]
  | .mulR _ _ => [.flags]
  | .mulI _ _ => [.flags]
  | .inc _ => [.flags]
  | .dec _ => [.flags]
  | .neg _ => [.flags]
  | .not _ => [.flags]
  | .andR _ _ => [.flags]
  | .andI _ _ => [.flags]
  | .orR _ _ => [.flags]
  | .orI _ _ => [.flags]
  | .xorR _ _ => [.flags]
  | .xorI _ _ => [.flags]
  | .cmpwR _ _ => [.flags]
  | .cmpwI _ _ => [.flags]
  | .jmp _ => [.pc]
  | .call _ => [.sp, .pc]
  | .ret => [.sp, .pc]
  | .je _ => [.pc]
  | .jne _ => [.pc]
  | .jgt _ => [.pc]
  | .jge _ => [.pc]
  | .jlt _ => [.pc]
  | .jle _ => [.pc]
  | .js _ => [.pc]
  | .jco _ => [.pc]
  | .setf _ => [.flags]
  | .clrf _ => [.flags]
  | .halt => []

/-- The registers an instruction may write besides the prologue's advance of `pc`. -/
def regsWritten (i : Instr) : List RegId := destRegs i ++ impliedRegs i

/-- The address of the instruction's one data access, from the state after the prologue (R57). -/
def dataAddr (i : Instr) (s : State) : Option Word :=
  match i with
  | .movi _ _ => none
  | .movwR _ _ => none
  | .movwI _ _ => none
  | .lodi _ _ => none
  | .lodw _ a => some (addr16Operand a)
  | .stri a _ => some (addr8Operand a)
  | .strwR a _ => some (addr8Operand a)
  | .strwI a _ => some (addr8Operand a)
  | .pushR _ => some s.pushAddr
  | .pushI _ => some s.pushAddr
  | .pop _ => some (s.reg .sp)
  | .xcgh _ _ => none
  | .addwR _ _ => none
  | .addwI _ _ => none
  | .subwR _ _ => none
  | .subwI _ _ => none
  | .mulR _ _ => none
  | .mulI _ _ => none
  | .inc _ => none
  | .dec _ => none
  | .neg _ => none
  | .not _ => none
  | .andR _ _ => none
  | .andI _ _ => none
  | .orR _ _ => none
  | .orI _ _ => none
  | .xorR _ _ => none
  | .xorI _ _ => none
  | .cmpwR _ _ => none
  | .cmpwI _ _ => none
  | .jmp _ => none
  | .call _ => some s.pushAddr
  | .ret => some (s.reg .sp)
  | .je _ => none
  | .jne _ => none
  | .jgt _ => none
  | .jge _ => none
  | .jlt _ => none
  | .jle _ => none
  | .js _ => none
  | .jco _ => none
  | .setf _ => none
  | .clrf _ => none
  | .halt => none

/-- The address the instruction stores a word at, from the state after the prologue (R57). -/
def storeAddr (i : Instr) (s : State) : Option Word :=
  match i with
  | .stri a _ => some (addr8Operand a)
  | .strwR a _ => some (addr8Operand a)
  | .strwI a _ => some (addr8Operand a)
  | .pushR _ => some s.pushAddr
  | .pushI _ => some s.pushAddr
  | .call _ => some s.pushAddr
  | .movi _ _ => none
  | .movwR _ _ => none
  | .movwI _ _ => none
  | .lodi _ _ => none
  | .lodw _ _ => none
  | .pop _ => none
  | .xcgh _ _ => none
  | .addwR _ _ => none
  | .addwI _ _ => none
  | .subwR _ _ => none
  | .subwI _ _ => none
  | .mulR _ _ => none
  | .mulI _ _ => none
  | .inc _ => none
  | .dec _ => none
  | .neg _ => none
  | .not _ => none
  | .andR _ _ => none
  | .andI _ _ => none
  | .orR _ _ => none
  | .orI _ _ => none
  | .xorR _ _ => none
  | .xorI _ _ => none
  | .cmpwR _ _ => none
  | .cmpwI _ _ => none
  | .jmp _ => none
  | .ret => none
  | .je _ => none
  | .jne _ => none
  | .jgt _ => none
  | .jge _ => none
  | .jlt _ => none
  | .jle _ => none
  | .js _ => none
  | .jco _ => none
  | .setf _ => none
  | .clrf _ => none
  | .halt => none

/-- The bits of the instruction's word that no field uses (R85, R91 to R101). -/
def ignoredBits (i : Instr) : Word :=
  match i with
  | .movwR _ _ => 0x000000FE
  | .strwR _ _ => 0x000000FE
  | .pushR _ => 0x0000FFFE
  | .pushI _ => 0x00FF0000
  | .pop _ => 0x0000FFFF
  | .xcgh _ _ => 0x000000FF
  | .addwR _ _ => 0x000000FE
  | .subwR _ _ => 0x000000FE
  | .mulR _ _ => 0x000000FE
  | .inc _ => 0x0000FFFF
  | .dec _ => 0x0000FFFF
  | .neg _ => 0x0000FFFF
  | .not _ => 0x0000FFFF
  | .andR _ _ => 0x000000FE
  | .orR _ _ => 0x000000FE
  | .xorR _ _ => 0x000000FE
  | .cmpwR _ _ => 0x000000FE
  | .ret => 0x00FFFFFF
  | .halt => 0x00FFFFFF
  | .setf _ => 0x00FFFF00
  | .clrf _ => 0x00FFFF00
  | .movi _ _ => 0
  | .movwI _ _ => 0
  | .lodi _ _ => 0
  | .lodw _ _ => 0
  | .stri _ _ => 0
  | .strwI _ _ => 0
  | .addwI _ _ => 0
  | .subwI _ _ => 0
  | .mulI _ _ => 0
  | .andI _ _ => 0
  | .orI _ _ => 0
  | .xorI _ _ => 0
  | .cmpwI _ _ => 0
  | .jmp _ => 0
  | .call _ => 0
  | .je _ => 0
  | .jne _ => 0
  | .jgt _ => 0
  | .jge _ => 0
  | .jlt _ => 0
  | .jle _ => 0
  | .js _ => 0
  | .jco _ => 0

/-- The instructions of format RM: the opcode, the register form, the immediate form (R86, R92). -/
def registerModeForms : List (Opcode × (RegId → RegId → Instr) × (RegId → BitVec 16 → Instr)) :=
  [(.movw, .movwR, .movwI), (.addw, .addwR, .addwI), (.subw, .subwR, .subwI), (.mul, .mulR, .mulI),
   (.and, .andR, .andI), (.or, .orR, .orI), (.xor, .xorR, .xorI), (.cmpw, .cmpwR, .cmpwI)]

/-- The flag an instruction names, if it is SETF or CLRF. -/
def namedFlag (i : Instr) : Option Flag :=
  match i with
  | .setf f => some f
  | .clrf f => some f
  | _ => none

/-- The value of a finite binary32 pattern as a whole number of units of 2^-149, if it is finite (R150). -/
def finiteUnits (v : Word) : Option Int :=
  match f32 v with
  | .finite neg u => some (signedUnits neg u)
  | .infinity _ => none
  | .nan => none

/-- The pattern of an infinity of a sign (R150). -/
def infinityPattern (neg : Bool) : Word := if neg then 0xFF800000 else 0x7F800000

/-- `c` is the binary32 pattern nearest to `z / 2^k` units of 2^-149 (R151): no finite pattern is nearer, of two equally near
ones `c` has an even last bit, and `c` is the infinity of the sign of `z` exactly from the magnitude on that lies halfway
between the largest finite number and the next power of two. -/
def RoundsTo (c : Word) (z : Int) (k : Nat) : Prop :=
  (∀ u, finiteUnits c = some u → ∀ d v, finiteUnits d = some v →
    (z - u * 2 ^ k).natAbs ≤ (z - v * 2 ^ k).natAbs ∧
    (v ≠ u → (z - u * 2 ^ k).natAbs = (z - v * 2 ^ k).natAbs → c.getLsbD 0 = false)) ∧
  (finiteUnits c = none ↔ (2 ^ 25 - 1) * 2 ^ 252 * 2 ^ k ≤ z.natAbs) ∧
  (finiteUnits c = none → c = if z < 0 then 0xFF800000 else 0x7F800000)

/-- A used register field above 13, or a flag id that maps to no flag: the InvalidOperand column of R282. -/
def operandIsInvalid (m : FlagIdMap) (iw : Word) : Bool :=
  match Opcode.ofByte (opcodeField iw) with
  | none => false
  | some op =>
    if op ∈ [Opcode.movi, .lodi, .lodw, .pop, .inc, .dec, .neg, .not] then decide (13 < (hiField iw).toNat)
    else if op ∈ [Opcode.movw, .addw, .subw, .mul, .and, .or, .xor, .cmpw] then
      decide (13 < (hiField iw).toNat) || (modeBit iw && decide (13 < (midField iw).toNat))
    else if op = .xcgh then decide (13 < (hiField iw).toNat) || decide (13 < (midField iw).toNat)
    else if op = .strw then modeBit iw && decide (13 < (midField iw).toNat)
    else if op = .push then modeBit iw && decide (13 < (hiField iw).toNat)
    else if op ∈ [Opcode.setf, .clrf] then (flagOfId m (loField iw)).isNone
    else false

end Sys2Proof.Machine
end

