-- ==== Sys2Proof/Certificates/Slice0/Obligations.lean ====
section
/-! DEFINITION. The statements for the provers. Each docstring names the rules a statement formalises, and where it rests on a
decision of the spec (92_eei_decisions.md) or of the model, that decision and the log entry. -/

open Sys2Proof Sys2Proof.Machine

-- ================================================================ encoding

/-- Decode and encode agree (30_encoding.md R105): every well-formed instruction whose flag, if it names one, has an id is
encoded by a word that decodes to it and has 0 in every ignored bit; an instruction that is not well formed has no word.
The ignored bits rest on decision D5. -/
def Obligations.DecodeInvertsEncode : Prop :=
  ∀ (m : FlagIdMap) (i : Instr),
    (i.wellFormed = true → (∀ f, namedFlag i = some f → ∃ id, flagOfId m id = some f) →
      ∃ w, encode m i = some w ∧ decode m w = .ok i ∧ w &&& ignoredBits i = 0) ∧
    (i.wellFormed = false → encode m i = none)

/-- The other direction: a decoded instruction is well formed, and its canonical word decodes to it too and is the decoded
word with the ignored bits cleared (for SETF and CLRF another id of the same flag may be chosen). Rests on D5. -/
def Obligations.DecodedInstructionsAreEncodable : Prop :=
  ∀ (m : FlagIdMap) (w : Word) (i : Instr), decode m w = .ok i →
    i.wellFormed = true ∧ ∃ w', encode m i = some w' ∧ decode m w' = .ok i ∧
      (namedFlag i = none → w' = w &&& ~~~(ignoredBits i))

/-- Bits that no field uses are ignored by the decoder (30_encoding.md R85, the spec's decision D5). -/
def Obligations.IgnoredBitsDoNotMatter : Prop :=
  ∀ (m : FlagIdMap) (w w' : Word) (i : Instr), decode m w = .ok i →
    w' &&& ~~~(ignoredBits i) = w &&& ~~~(ignoredBits i) → decode m w' = .ok i

/-- The opcode set is closed (30_encoding.md R83, R88, the spec's decision D1, log 13): exactly the 222 listed opcode values
are rejected as unknown, whatever the other bits are, and the opcode that the rejection names is bits 31 to 24. -/
def Obligations.IllegalOpcodesAreUnknown : Prop :=
  ((List.range 256).filter (fun b => (Opcode.ofByte (BitVec.ofNat 8 b)).isNone) =
    [0x00] ++ List.range' 0x0A 6 ++ List.range' 0x16 10 ++ List.range' 0x24 12 ++ List.range' 0x31 15 ++
      List.range' 0x4B 21 ++ List.range' 0x62 157) ∧
  ((List.range 256).filter (fun b => (Opcode.ofByte (BitVec.ofNat 8 b)).isNone)).length = 222 ∧
  ∀ (m : FlagIdMap) (w : Word) (op : Byte), decode m w = .error (.unknownOpcode op) ↔
    op = opcodeField w ∧ Opcode.ofByte (opcodeField w) = none

/-- Which words are rejected as InvalidOperand (60_exceptions.md R282, 30_encoding.md R84, decisions D4 and D6, logs 3 and 9):
exactly those with a known opcode and a used register field above 13 or an unmapped flag id. -/
def Obligations.InvalidOperandExactly : Prop :=
  ∀ (m : FlagIdMap) (w v : Word),
    decode m w = .error (.invalidOperand v) ↔ v = w ∧ operandIsInvalid m w = true

/-- The mode bit of the formats RM, AM and PM (30_encoding.md R90, R92, R95, R96), for the ten instructions that have one: with
bit 0 set the word is a register form or is rejected as InvalidOperand, with bit 0 clear it is the immediate form of bits
15 to 0, which are even, or is rejected; every even immediate has a word, and a word packed with an odd one is a register
form, or is rejected where its second register field names no register. -/
def Obligations.ModeBitSelectsTheForm : Prop :=
  ∀ (m : FlagIdMap) (w : Word) (imm : BitVec 16),
    (∀ op mkR mkI, (op, mkR, mkI) ∈ registerModeForms →
      (∀ d s, decode m w = .ok (mkR d s) → modeBit w = true) ∧
      (∀ d, decode m w = .ok (mkI d imm) → modeBit w = false ∧ imm = immField w ∧ imm.toNat % 2 = 0) ∧
      (opcodeField w = op.byte → modeBit w = true →
        (∃ d s, decode m w = .ok (mkR d s)) ∨ decode m w = .error (.invalidOperand w)) ∧
      (opcodeField w = op.byte → modeBit w = false →
        (∃ d, decode m w = .ok (mkI d (immField w))) ∨ decode m w = .error (.invalidOperand w)) ∧
      ∀ d, (imm.toNat % 2 = 0 → decode m (packImm op d.code imm) = .ok (mkI d imm)) ∧
        (imm.toNat % 2 = 1 →
          (∀ s : RegId, imm.extractLsb' 8 8 = s.code → decode m (packImm op d.code imm) = .ok (mkR d s)) ∧
          (13 < (imm.extractLsb' 8 8).toNat →
            decode m (packImm op d.code imm) = .error (.invalidOperand (packImm op d.code imm))))) ∧
    ((∀ a s, decode m w = .ok (.strwR a s) → modeBit w = true) ∧
      (∀ a, decode m w = .ok (.strwI a imm) → modeBit w = false ∧ imm = immField w ∧ imm.toNat % 2 = 0) ∧
      (opcodeField w = 0x06 → modeBit w = true →
        (∃ a s, decode m w = .ok (.strwR a s)) ∨ decode m w = .error (.invalidOperand w)) ∧
      (opcodeField w = 0x06 → modeBit w = false → ∃ a, decode m w = .ok (.strwI a (immField w))) ∧
      ∀ a, (imm.toNat % 2 = 0 → decode m (packImm .strw a imm) = .ok (.strwI a imm)) ∧
        (imm.toNat % 2 = 1 →
          (∀ s : RegId, imm.extractLsb' 8 8 = s.code → decode m (packImm .strw a imm) = .ok (.strwR a s)) ∧
          (13 < (imm.extractLsb' 8 8).toNat →
            decode m (packImm .strw a imm) = .error (.invalidOperand (packImm .strw a imm))))) ∧
    ((∀ s, decode m w = .ok (.pushR s) → modeBit w = true) ∧
      (decode m w = .ok (.pushI imm) → modeBit w = false ∧ imm = immField w ∧ imm.toNat % 2 = 0) ∧
      (opcodeField w = 0x07 → modeBit w = true →
        (∃ s, decode m w = .ok (.pushR s)) ∨ decode m w = .error (.invalidOperand w)) ∧
      (opcodeField w = 0x07 → modeBit w = false → decode m w = .ok (.pushI (immField w))) ∧
      ∀ a, (imm.toNat % 2 = 0 → decode m (packImm .push a imm) = .ok (.pushI imm)) ∧
        (imm.toNat % 2 = 1 → (∀ s : RegId, a = s.code → decode m (packImm .push a imm) = .ok (.pushR s)) ∧
          (13 < a.toNat → decode m (packImm .push a imm) = .error (.invalidOperand (packImm .push a imm)))))

/-- A few words written out from the tables of 30_encoding.md and 95_test_vectors.md decode to the instructions they stand for
(register and jump numbering: decisions D2 and D3, log 13; flag ids: D6, log 3). -/
def Obligations.SpecWordsDecode : Prop :=
  decode defaultFlagIds 0x01001234 = .ok (.movi .ax 0x1234) ∧
  decode defaultFlagIds 0x02000301 = .ok (.movwR .ax .dx) ∧
  decode defaultFlagIds 0x05FF0102 = .ok (.stri 0xFF 0x0102) ∧
  decode defaultFlagIds 0x07FF0000 = .ok (.pushI 0) ∧
  decode defaultFlagIds 0x090001FF = .ok (.xcgh .ax .bx) ∧
  decode defaultFlagIds 0x1200000A = .ok (.mulI .ax 10) ∧
  decode defaultFlagIds 0x30000101 = .ok (.cmpwR .ax .bx) ∧
  decode defaultFlagIds 0x410000C8 = .ok (.call 200) ∧
  decode defaultFlagIds 0x42ABCDEF = .ok .ret ∧
  decode defaultFlagIds 0x60FFFF07 = .ok (.setf .sign) ∧
  decode defaultFlagIds 0x60000001 = .error (.invalidOperand 0x60000001) ∧
  decode defaultFlagIds 0x010E0001 = .error (.invalidOperand 0x010E0001) ∧
  decode defaultFlagIds 0x24010203 = .error (.unknownOpcode 0x24)

-- ================================================================ the step

/-- One step (30_encoding.md R81, 60_exceptions.md R283, R290, R291): a Halted core only sets `already_halted`, a Faulted core
changes nothing, a fetch outside memory faults with `pc` unchanged, any other step fetches the little-endian word at
`pc`, advances `pc` by exactly 4 and then runs the decoded instruction or takes the fault of the rejected word. The
latches rest on decisions D21 to D23 (logs 1 and 19). -/
def Obligations.StepRunsTheDecodedInstruction : Prop :=
  ∀ s : State,
    (s.driver = .halted → step s = .next { s with alreadyHalted := true }) ∧
    (s.driver = .faulted → step s = .next s) ∧
    (s.driver = .ready → s.memSize.bytes < (s.reg .pc).toNat + 4 →
      step s = .next { s with driver := .faulted, faultCause := .outOfBounds, faultInfo := s.reg .pc }) ∧
    (s.driver = .ready → (s.reg .pc).toNat + 4 ≤ s.memSize.bytes →
      ∀ iw, iw = wordAt s.mem (s.reg .pc).toNat →
        (∀ i, decode s.flagIds iw = .ok i → step s = exec i (s.setReg .pc (s.reg .pc + 4))) ∧
        (∀ op, decode s.flagIds iw = .error (.unknownOpcode op) →
          step s = .next { s.setReg .pc (s.reg .pc + 4) with
            driver := .faulted, faultCause := .unknownOpcode, faultInfo := op.setWidth 32 }) ∧
        (∀ v, decode s.flagIds iw = .error (.invalidOperand v) →
          step s = .next { s.setReg .pc (s.reg .pc + 4) with
            driver := .faulted, faultCause := .invalidOperand, faultInfo := iw }))

/-- Every step, and every instruction in every state, answers a next state: the faults of the core are states it enters, not
stops of the model (60_exceptions.md section 2, log 1). -/
def Obligations.StepAlwaysAnswersNext : Prop :=
  (∀ (i : Instr) (s : State), ∃ t, exec i s = .next t) ∧ ∀ s : State, ∃ t, step s = .next t

/-- Halted and Faulted are absorbing: any number of further steps changes nothing but `already_halted`, and nothing at all
when Faulted (60_exceptions.md sections 1 and 2, decisions D21 and D22, log 19). -/
def Obligations.StoppedCoreStaysStopped : Prop :=
  ∀ (n : Nat) (s : State),
    (s.driver = .halted →
      (Host.Core.run Sys2Proof.core (n + 1) s : Result) = .next { s with alreadyHalted := true }) ∧
    (s.driver = .faulted → (Host.Core.run Sys2Proof.core n s : Result) = .next s)

/-- Only HALT halts: a step from Ready ends in Halted exactly if it fetched a word that decodes to HALT (10_state.md section 4,
45_flags_halt.md). -/
def Obligations.OnlyHaltHalts : Prop :=
  ∀ s t : State, s.driver = .ready → step s = .next t →
    (t.driver = .halted ↔ ∃ iw, s.fetch = some iw ∧ decode s.flagIds iw = .ok .halt)

/-- The state a faulting step leaves (60_exceptions.md section 2, decision D20): memory, the parameters, `already_halted` and
every register but `pc` are unchanged; `pc` is unchanged for a fetch fault, whose datum it is, and advanced by 4 for every other fault. -/
def Obligations.FaultsArePrecise : Prop :=
  ∀ s t : State, s.driver = .ready → step s = .next t → t.driver = .faulted →
    s.SameMemory t ∧ s.SameRegsBut t [.pc] ∧ t.memSize = s.memSize ∧ t.flagIds = s.flagIds ∧ t.draws = s.draws ∧
    t.alreadyHalted = s.alreadyHalted ∧
    ((s.fetch = none ∧ t.reg .pc = s.reg .pc ∧ t.faultCause = .outOfBounds ∧ t.faultInfo = s.reg .pc) ∨
     (∃ iw, s.fetch = some iw ∧ t.reg .pc = s.reg .pc + 4 ∧ t.faultCause ≠ .none))

/-- Which decoded instruction faults, and when (60_exceptions.md section 1, table of causes): exactly one whose data access
reaches past the end of memory, with OutOfBounds of the access's address. -/
def Obligations.DataFaultsExactly : Prop :=
  ∀ (s t : State) (iw : Word) (i : Instr), s.driver = .ready → s.fetch = some iw → decode s.flagIds iw = .ok i →
    step s = .next t →
    (t.driver = .faulted ↔ ∃ a, dataAddr i s.advancePc = some a ∧ s.memSize.bytes < a.toNat + 4) ∧
    (t.driver = .faulted → t.faultCause = .outOfBounds ∧ dataAddr i s.advancePc = some t.faultInfo)

/-- The frame of the registers over all instructions (10_state.md R24 to R26 and section 3): a step changes only the registers
that the instruction names as destinations or implies, and `pc`, which it leaves advanced by exactly 4 unless the
instruction writes `pc`. The flag rows rest on decision D9. -/
def Obligations.StepChangesOnlyWrittenRegisters : Prop :=
  ∀ (s t : State) (iw : Word) (i : Instr), s.driver = .ready → s.fetch = some iw → decode s.flagIds iw = .ok i →
    step s = .next t →
    s.SameRegsBut t (.pc :: regsWritten i) ∧ (RegId.pc ∉ regsWritten i → t.reg .pc = s.reg .pc + 4)

/-- The frame of memory over all instructions (20_memory.md section 3): a byte that a step changes is one of the four at the
address that the decoded instruction stores to, so only STRI, STRW, PUSH and CALL change memory. -/
def Obligations.StepChangesOnlyStoredBytes : Prop :=
  ∀ (s t : State) (a : Nat), step s = .next t → t.mem.readByte a ≠ s.mem.readByte a →
    s.driver = .ready ∧ ∃ iw i addr, s.fetch = some iw ∧ decode s.flagIds iw = .ok i ∧
      storeAddr i s.advancePc = some addr ∧ addr.toNat ≤ a ∧ a < addr.toNat + 4

/-- The frame of FLAGS over all instructions (10_state.md section 3, decision D9): in a step whose instruction does not name
FLAGS as a destination, the bits other than carry, zero, sign and overflow change only by SETF and CLRF of that flag, and
an instruction that is neither arithmetic, logic, compare nor SETF or CLRF changes no bit. -/
def Obligations.StepChangesOnlyNamedFlagBits : Prop :=
  ∀ (s t : State) (iw : Word) (i : Instr), s.driver = .ready → s.fetch = some iw → decode s.flagIds iw = .ok i →
    RegId.flags ∉ destRegs i → step s = .next t →
    (∀ k, k ≠ 0 → k ≠ 6 → k ≠ 7 → k ≠ 11 → (∀ f, namedFlag i = some f → k ≠ f.bit) →
      (t.reg .flags).getLsbD k = (s.reg .flags).getLsbD k) ∧
    (∀ f, namedFlag i = some f → ∀ k, k ≠ f.bit → (t.reg .flags).getLsbD k = (s.reg .flags).getLsbD k) ∧
    (RegId.flags ∉ impliedRegs i → t.reg .flags = s.reg .flags)

/-- No step writes a parameter (00_scope.md section 5, logs 2 and 3); the recorded cause and datum change only in a step that ends
Faulted, and `already_halted` only in a step of a Halted core (10_state.md section 4, decisions D21 and D23, logs 1 and 19). -/
def Obligations.StepKeepsParameters : Prop :=
  ∀ s t : State, step s = .next t →
    t.memSize = s.memSize ∧ t.flagIds = s.flagIds ∧
    (t.driver ≠ .faulted → t.faultCause = s.faultCause ∧ t.faultInfo = s.faultInfo) ∧
    (s.driver ≠ .halted → t.alreadyHalted = s.alreadyHalted)

/-- The invariant is kept by every step, from every state that has it: memory keeps its canonical form and no byte outside the
address space (20_memory.md section 1), and the latches agree with the driver state (60_exceptions.md section 1,
decision D23, logs 1, 8 and 19). -/
def Obligations.InvariantIsKept : Prop :=
  ∀ s t : State, s.Inv = true → step s = .next t → t.Inv = true

/-- The reset state has the invariant, and is what `reset_load` answers for the default parameters and the empty image
(log 10). -/
def Obligations.ResetStateIsTheDefaultLoad : Prop :=
  State.reset.Inv = true ∧ resetLoad defaultLoad = .next State.reset

/-- The state after reset with the default parameters (10_state.md section 6; the zeros are the spec's decision D24, logs 7 and 8):
PC 0, SP 0x0000F000, every other register, FLAGS and every byte of memory 0, Ready with clear latches, 64 KiB; the first
step of that empty machine faults with UnknownOpcode(0x00), PC advanced (30_encoding.md section 4). -/
def Obligations.ResetHasTheTabledValues : Prop :=
  State.reset.reg .pc = 0 ∧ State.reset.reg .sp = 0xF000 ∧
  (∀ r, r ≠ .pc → r ≠ .sp → State.reset.reg r = 0) ∧ (∀ a, State.reset.mem.readByte a = 0) ∧
  State.reset.driver = .ready ∧ State.reset.faultCause = .none ∧ State.reset.faultInfo = 0 ∧
  State.reset.alreadyHalted = false ∧ State.reset.memSize.bytes = 65536 ∧
  ∃ t, step State.reset = .next t ∧ t.driver = .faulted ∧ t.faultCause = .unknownOpcode ∧ t.faultInfo = 0 ∧
    t.reg .pc = 4

-- ================================================================ reset_load and run

/-- `reset_load` (70_reset_and_hazards.md section 1, 10_state.md section 6, decision D24, logs 7, 8 and 17): it is refused exactly
outside its preconditions, and otherwise leaves PC and SP at the given values, every other register 0, the core Ready
with clear latches, the data bytes over the text words over zeroed memory, and the invariant. -/
def Obligations.ResetLoadLeavesTheResetState : Prop :=
  ∀ q : LoadRequest,
    ((∃ s, resetLoad q = .next s) ↔
      65536 ≤ q.memSize ∧ q.memSize ≤ 8388608 ∧ q.memSize % 1024 = 0 ∧ q.textStart < q.memSize ∧
        q.stackStart < q.memSize ∧ q.textStart + 4 * q.text.length ≤ q.memSize ∧
        (q.data = [] ∨ q.dataStart + q.data.length ≤ q.memSize)) ∧
    ∀ s, resetLoad q = .next s →
      s.Inv = true ∧ s.reg .pc = BitVec.ofNat 32 q.textStart ∧ s.reg .sp = BitVec.ofNat 32 q.stackStart ∧
      (∀ r, r ≠ .pc → r ≠ .sp → s.reg r = 0) ∧ s.driver = .ready ∧ s.faultCause = .none ∧ s.faultInfo = 0 ∧
      s.alreadyHalted = false ∧ s.memSize.bytes = q.memSize ∧ s.flagIds = q.flagIds ∧
      (∀ k (h : k < q.data.length), s.mem.readByte (q.dataStart + k) = q.data[k]) ∧
      (∀ k (h : k < q.text.length),
        (∀ j, 4 * k ≤ j → j < 4 * k + 4 →
          q.textStart + j < q.dataStart ∨ q.dataStart + q.data.length ≤ q.textStart + j) →
        HoldsWord s.mem (q.textStart + 4 * k) q.text[k]) ∧
      (∀ a, (a < q.textStart ∨ q.textStart + 4 * q.text.length ≤ a) →
        (a < q.dataStart ∨ q.dataStart + q.data.length ≤ a) → s.mem.readByte a = 0)

/-- `run` (30_encoding.md section 2, 70_reset_and_hazards.md section 1, decision D29, log 16): it always answers a state; while none
of the three stopping conditions holds it takes one step and goes on from there, and once one holds it executes nothing; it
goes on from where an earlier run stopped, and it runs off the end of memory without a fault where a bare step would fault
with OutOfBounds. -/
def Obligations.RunStopsAtTheThreeEnds : Prop :=
  (∀ (n : Nat) (s : State), ∃ t, run n s = .next t) ∧
  (∀ (n k : Nat) (s t : State), run n s = .next t → run (n + k) s = run k t) ∧
  (∀ (n : Nat) (s t : State), s.runEnd = none → step s = .next t → run (n + 1) s = run n t) ∧
  (∀ (n : Nat) (s : State), s.runEnd ≠ none → run n s = .next s) ∧
  (∀ s : State, s.runEnd = none ↔ s.driver = .ready ∧ (s.reg .pc).toNat < s.memSize.bytes) ∧
  (∀ s : State, s.driver = .ready → s.memSize.bytes ≤ (s.reg .pc).toNat →
    s.ranOffEnd = true ∧ s.runEnd = some .ranOffEnd ∧
    ∃ t, step s = .next t ∧ t.faultCause = .outOfBounds ∧ t.faultInfo = s.reg .pc)

-- ================================================================ registers

/-- The registers are independent (10_state.md R20): there are 14, every one holds any 32-bit pattern and returns exactly the
pattern last written to it, none is hardwired and none aliases another. -/
def Obligations.RegistersAreIndependent : Prop :=
  RegId.all.length = 14 ∧ RegId.all.Nodup ∧ (∀ i : RegId, i ∈ RegId.all) ∧
  ∀ (s : State) (i j : RegId) (v : Word),
    (s.setReg i v).reg i = v ∧ (j ≠ i → (s.setReg i v).reg j = s.reg j) ∧
    (s.setReg i v).mem = s.mem ∧ (s.setReg i v).driver = s.driver

-- ================================================================ memory

/-- Byte order (20_memory.md R51): a write of one, two or four bytes puts bits 7 to 0 at the lowest address and so on up, a read
of them gives that value back, and a narrower read inside a word sees the bytes the order put there; in the fetched
word the opcode is the byte at `pc + 3`, and bits 7 to 0, which hold the mode bit, are the byte at `pc`; the loader writes
each text word in the same order (where no data byte is written over it). -/
def Obligations.AccessesAreLittleEndian : Prop :=
  (∀ (s t : State) (addr v : Word) (n : Nat), s.mem.wf = true → n ≤ 4 → s.memWrite addr n v = some t →
    (∀ k, k < n → t.mem.readByte (addr.toNat + k) = v.extractLsb' (8 * k) 8) ∧
    (∀ (b : Word) (k j : Nat), k + j ≤ n → b.toNat = addr.toNat + k →
      t.memRead b j = some (v.extractLsb' (8 * k) (8 * j)))) ∧
  (∀ (s : State) (iw : Word), s.fetch = some iw →
    opcodeField iw = s.mem.readByte ((s.reg .pc).toNat + 3) ∧
    loField iw = s.mem.readByte (s.reg .pc).toNat ∧ modeBit iw = (s.mem.readByte (s.reg .pc).toNat).getLsbD 0) ∧
  (∀ (q : LoadRequest) (s : State), resetLoad q = .next s → ∀ k (h : k < q.text.length),
    (∀ j, 4 * k ≤ j → j < 4 * k + 4 →
      q.textStart + j < q.dataStart ∨ q.dataStart + q.data.length ≤ q.textStart + j) →
    HoldsWord s.mem (q.textStart + 4 * k) q.text[k])

/-- The bounds check (20_memory.md section 3, the sum in unbounded integers by decision D25): an access of `n` bytes answers
exactly if `addr + n ≤ MEM_SIZE`, a read changes nothing and a write changes nothing but the `n` bytes. -/
def Obligations.AccessesAreBoundsChecked : Prop :=
  ∀ (s : State) (addr v : Word) (n : Nat),
    ((∃ x, s.memRead addr n = some x) ↔ addr.toNat + n ≤ s.memSize.bytes) ∧
    ((∃ t, s.memWrite addr n v = some t) ↔ addr.toNat + n ≤ s.memSize.bytes) ∧
    (∀ t, s.memWrite addr n v = some t →
      t.regs = s.regs ∧ s.SameDriver t ∧ t.draws = s.draws ∧
      ∀ a, a < addr.toNat ∨ addr.toNat + n ≤ a → t.mem.readByte a = s.mem.readByte a)

/-- The float accessors of memory (20_memory.md section 5, decision D37; the layout of binary32 is taken by the spec from
IEEE 754, log 11): the reinterpretation and `bits` undo each other and lose no bit, a NaN's payload among them; a float
write inside memory stores the four bytes of the pattern, a float read gives that number back, and one past the end of
memory answers nothing. -/
def Obligations.FloatAccessorsMoveTheirBytes : Prop :=
  (∀ v : Word, (binary32 v).bits = v ∧
    (f32 v = .nan ↔ (binary32 v).exponent = 255 ∧ (binary32 v).fraction ≠ 0)) ∧
  (∀ f : Binary32, binary32 f.bits = f ∧ f.bits.toNat =
    (if f.sign then 2 ^ 31 else 0) + f.exponent.toNat * 2 ^ 23 + f.fraction.toNat) ∧
  ∀ (s : State) (addr : Word) (f : Binary32),
    (s.mem.wf = true → addr.toNat + 4 ≤ s.memSize.bytes →
      ∃ t, s.writeFloat addr f = some t ∧ HoldsWord t.mem addr.toNat f.bits ∧ t.readFloat addr = some f ∧
        s.SameMemoryOutside t addr.toNat ∧ (∀ r, t.reg r = s.reg r) ∧ s.SameDriver t ∧ t.draws = s.draws) ∧
    (addr.toNat + 4 ≤ s.memSize.bytes → s.readFloat addr = some (binary32 (wordAt s.mem addr.toNat))) ∧
    (s.memSize.bytes < addr.toNat + 4 → s.writeFloat addr f = none ∧ s.readFloat addr = none)

/-- Instruction fetch is coherent with stores at once (20_memory.md section 7): after STRI, STRW, and, with SP from 4 to MEM_SIZE,
after PUSH and CALL, in every form, a fetch from the address stored to gives the word stored, also where the instruction
itself leaves `pc` there. That each of them stores one word of four bytes rests on decision D37, and where PUSH stores it
on D17 (log 15). -/
def Obligations.StoreIsSeenByTheNextFetch : Prop :=
  ∀ s : State, s.mem.wf = true →
    (∀ (a : BitVec 8) (imm : BitVec 16) (r : RegId),
      FetchSees (.stri a imm) s (a.setWidth 32) (imm.setWidth 32) ∧
      FetchSees (.strwI a imm) s (a.setWidth 32) (imm.setWidth 32) ∧
      FetchSees (.strwR a r) s (a.setWidth 32) (s.reg r)) ∧
    (4 ≤ (s.reg .sp).toNat → (s.reg .sp).toNat ≤ s.memSize.bytes →
      ∀ (imm : BitVec 16) (r : RegId) (x : BitVec 24),
        FetchSees (.pushR r) s (s.reg .sp - 4) (s.reg r) ∧
        FetchSees (.pushI imm) s (s.reg .sp - 4) (imm.setWidth 32) ∧
        FetchSees (.call x) s (s.reg .sp - 4) (s.reg .pc))

-- ================================================================ moves

/-- MOVI, LODI and MOVW write the zero-extended immediate or the source register to the destination and nothing else
(40_move_load_store.md, readings of decisions D8, D9 and D37, log 15). -/
def Obligations.MovesWriteTheirDestination : Prop :=
  ∀ (d r : RegId) (imm : BitVec 16) (s : State),
    CompletesWith (.movi d imm) s d (imm.setWidth 32) ∧
    CompletesWith (.lodi d imm) s d (imm.setWidth 32) ∧
    CompletesWith (.movwI d imm) s d (imm.setWidth 32) ∧
    CompletesWith (.movwR d r) s d (s.reg r)

/-- LODW loads the little-endian word at the zero-extended address, aligned or not, and faults with OutOfBounds of that address
exactly where the word reaches past the end of memory (40_move_load_store.md, decision D37, log 15). -/
def Obligations.LodwLoadsTheWord : Prop :=
  ∀ (d : RegId) (a : BitVec 16) (s : State),
    (a.toNat + 4 ≤ s.memSize.bytes → CompletesWith (.lodw d a) s d (wordAt s.mem a.toNat)) ∧
    (s.memSize.bytes < a.toNat + 4 → Faults (.lodw d a) s .outOfBounds (a.setWidth 32))

/-- STRI and STRW always complete: the four bytes at the zero-extended address hold the zero-extended immediate or the register,
and nothing else changes (40_move_load_store.md, decisions D9 and D37, log 15). -/
def Obligations.StoresWriteOneWord : Prop :=
  ∀ (a : BitVec 8) (imm : BitVec 16) (r : RegId) (s : State), s.mem.wf = true →
    (∃ t, CompletesStoring (.stri a imm) s (addr8Operand a) (imm.setWidth 32) [] t) ∧
    (∃ t, CompletesStoring (.strwI a imm) s (addr8Operand a) (imm.setWidth 32) [] t) ∧
    (∃ t, CompletesStoring (.strwR a r) s (addr8Operand a) (s.reg r) [] t)

/-- XCGH exchanges two registers, PC and FLAGS among them, and nothing else (40_move_load_store.md, decision D8, log 15). -/
def Obligations.XcghExchanges : Prop :=
  ∀ (a b : RegId) (s : State),
    ∃ t, exec (.xcgh a b) s = .next t ∧ t.reg a = s.reg b ∧ t.reg b = s.reg a ∧ s.SameRegsBut t [a, b] ∧
      s.SameMemory t ∧ s.SameDriver t ∧ t.draws = s.draws

-- ================================================================ stack

/-- PUSH on a full-descending stack (41_stack.md, decision D17, log 15): with SP from 4 to MEM_SIZE the word is stored at SP - 4
and SP is lowered by 4, the value being read before; with any other SP it faults with OutOfBounds of SP - 4 modulo
2^32 and changes nothing else. -/
def Obligations.PushStoresBelowSp : Prop :=
  ∀ (r : RegId) (imm : BitVec 16) (s : State),
    (s.mem.wf = true → 4 ≤ (s.reg .sp).toNat → (s.reg .sp).toNat ≤ s.memSize.bytes →
      (∃ t, CompletesStoring (.pushR r) s (s.reg .sp - 4) (s.reg r) [.sp] t ∧ t.reg .sp = s.reg .sp - 4) ∧
      (∃ t, CompletesStoring (.pushI imm) s (s.reg .sp - 4) (imm.setWidth 32) [.sp] t ∧
        t.reg .sp = s.reg .sp - 4)) ∧
    ((s.reg .sp).toNat < 4 ∨ s.memSize.bytes < (s.reg .sp).toNat →
      Faults (.pushR r) s .outOfBounds (s.reg .sp - 4) ∧ Faults (.pushI imm) s .outOfBounds (s.reg .sp - 4))

/-- POP (41_stack.md, decisions D17 and D18, log 15): the word at SP goes to the destination, written last, and SP is raised by
4, so POP SP ends with the popped value; past the end of memory it faults with OutOfBounds of SP. -/
def Obligations.PopLoadsAtSp : Prop :=
  ∀ (d : RegId) (s : State),
    ((s.reg .sp).toNat + 4 ≤ s.memSize.bytes →
      ∃ t, exec (.pop d) s = .next t ∧ t.reg d = wordAt s.mem (s.reg .sp).toNat ∧
        (d ≠ .sp → t.reg .sp = s.reg .sp + 4) ∧ s.SameRegsBut t [d, .sp] ∧ s.SameMemory t ∧ s.SameDriver t ∧
        t.draws = s.draws) ∧
    (s.memSize.bytes < (s.reg .sp).toNat + 4 → Faults (.pop d) s .outOfBounds (s.reg .sp))

/-- A POP undoes a PUSH (41_stack.md, decision D17): pushing a register and popping into another one moves the value and
restores SP. -/
def Obligations.PopUndoesPush : Prop :=
  ∀ (r d : RegId) (s : State), s.mem.wf = true → 4 ≤ (s.reg .sp).toNat →
    (s.reg .sp).toNat ≤ s.memSize.bytes →
    ∃ t u, exec (.pushR r) s = .next t ∧ exec (.pop d) t = .next u ∧ u.reg d = s.reg r ∧
      (d ≠ .sp → u.reg .sp = s.reg .sp) ∧ s.SameRegsBut u [d, .sp]

-- ================================================================ float arithmetic

/-- ADDW, SUBW, MUL, INC and DEC in every form write the result of the float operation on the destination and the second operand
(a register's pattern, the number equal to the immediate, or 1.0) with the flags zero, sign, carry and overflow of the
float policy, and nothing else; a NaN result writes some NaN pattern (42_float_arith.md, decisions D10 to D14 and D19,
logs 5, 11 and 14). -/
def Obligations.FloatInstructionsWriteTheirResult : Prop :=
  ∀ (d r : RegId) (imm : BitVec 16) (s : State),
    CompletesFloat (.addwR d r) s d .add (s.reg d) (s.reg r) ∧
    CompletesFloat (.addwI d imm) s d .add (s.reg d) (u2f imm.toNat) ∧
    CompletesFloat (.subwR d r) s d .sub (s.reg d) (s.reg r) ∧
    CompletesFloat (.subwI d imm) s d .sub (s.reg d) (u2f imm.toNat) ∧
    CompletesFloat (.mulR d r) s d .mul (s.reg d) (s.reg r) ∧
    CompletesFloat (.mulI d imm) s d .mul (s.reg d) (u2f imm.toNat) ∧
    CompletesFloat (.inc d) s d .add (s.reg d) 0x3F800000 ∧
    CompletesFloat (.dec d) s d .sub (s.reg d) 0x3F800000

/-- NEG flips the sign bit of any pattern and sets the float flags from the new value (42_float_arith.md, decisions D12 and D14,
log 14). -/
def Obligations.NegFlipsTheSignBit : Prop :=
  ∀ (d : RegId) (s : State),
    CompletesWithFlags (.neg d) s d (s.reg d ^^^ 0x80000000) (floatIsZero (s.reg d ^^^ 0x80000000))
      (floatIsNegative (s.reg d ^^^ 0x80000000)) false false s.draws

/-- Addition and subtraction round the exact result once, to nearest with ties to even; from the overflow threshold on the result
is an infinity; an exact zero is -0.0 only where both addends are negative zeros (42_float_arith.md section 1, decision
D11, taken by the spec from IEEE 754, log 11). -/
def Obligations.AdditionIsCorrectlyRounded : Prop :=
  ∀ (a b : Word) (x y : Int), finiteUnits a = some x → finiteUnits b = some y →
    (∃ c, fadd a b = .num c ∧ RoundsTo c (x + y) 0 ∧
      (x + y = 0 → c = if a = 0x80000000 ∧ b = 0x80000000 then 0x80000000 else 0)) ∧
    (∃ c, fsub a b = .num c ∧ RoundsTo c (x - y) 0 ∧
      (x - y = 0 → c = if a = 0x80000000 ∧ b = 0 then 0x80000000 else 0))

/-- Multiplication rounds the exact product once, to nearest with ties to even, with the exclusive-or of the signs, also when the
product is zero or underflows (42_float_arith.md section 1, decision D11, taken by the spec from IEEE 754, log 11). -/
def Obligations.MultiplicationIsCorrectlyRounded : Prop :=
  ∀ (a b : Word) (x y : Int), finiteUnits a = some x → finiteUnits b = some y →
    ∃ c, fmul a b = .num c ∧ RoundsTo c (x * y) 149 ∧ c.msb = xor a.msb b.msb

/-- Operations on infinities that give a number (42_float_arith.md sections 1 and 2, decisions D11 and D14, logs 11 and 14): an
infinity plus or minus a finite number, and infinities that do not cancel, keep the infinity; an infinity times an infinity
or a finite number other than zero is an infinity with the exclusive-or of the signs; INC and DEC leave an infinity as it is
and set SF for the negative one alone. -/
def Obligations.InfiniteOperandsGiveInfinities : Prop :=
  (∀ (neg neg' : Bool) (b : Word), finiteUnits b ≠ none →
    fadd (infinityPattern neg) b = .num (infinityPattern neg) ∧
    fadd b (infinityPattern neg) = .num (infinityPattern neg) ∧
    fsub (infinityPattern neg) b = .num (infinityPattern neg) ∧
    fsub b (infinityPattern neg) = .num (infinityPattern (!neg)) ∧
    (b ≠ 0 → b ≠ 0x80000000 →
      fmul (infinityPattern neg) b = .num (infinityPattern (xor neg b.msb)) ∧
      fmul b (infinityPattern neg) = .num (infinityPattern (xor b.msb neg))) ∧
    fadd (infinityPattern neg) (infinityPattern neg) = .num (infinityPattern neg) ∧
    fsub (infinityPattern neg) (infinityPattern (!neg)) = .num (infinityPattern neg) ∧
    fmul (infinityPattern neg) (infinityPattern neg') = .num (infinityPattern (xor neg neg'))) ∧
  ∀ (neg : Bool) (d : RegId) (s : State), s.reg d = infinityPattern neg →
    CompletesWithFlags (.inc d) s d (infinityPattern neg) false neg false false s.draws ∧
    CompletesWithFlags (.dec d) s d (infinityPattern neg) false neg false false s.draws

/-- When an operation gives a NaN (42_float_arith.md section 1, decisions D11 and D13, log 5): exactly for a NaN operand,
infinities that cancel, or zero times infinity; and the drawn pattern ranges over exactly the NaN encodings. -/
def Obligations.NanResultsExactly : Prop :=
  (∀ a b : Word,
    (fadd a b = .nan ↔ isNaN a = true ∨ isNaN b = true ∨ (a = 0x7F800000 ∧ b = 0xFF800000) ∨
      (a = 0xFF800000 ∧ b = 0x7F800000)) ∧
    (fsub a b = .nan ↔ isNaN a = true ∨ isNaN b = true ∨ (a = 0x7F800000 ∧ b = 0x7F800000) ∨
      (a = 0xFF800000 ∧ b = 0xFF800000)) ∧
    (fmul a b = .nan ↔ isNaN a = true ∨ isNaN b = true ∨
      ((a = 0x7F800000 ∨ a = 0xFF800000) ∧ (b = 0 ∨ b = 0x80000000)) ∨
      ((b = 0x7F800000 ∨ b = 0xFF800000) ∧ (a = 0 ∨ a = 0x80000000)))) ∧
  (∀ d, isNaN (nanPattern d) = true) ∧ (∀ v, isNaN v = true → ∃ d, nanPattern d = v)

/-- The two tests of the float flag policy on patterns (42_float_arith.md section 1, decision D12, log 14): a result is zero if it
is +0.0 or -0.0, and negative if its sign bit is set and it is neither -0.0 nor a NaN. -/
def Obligations.FloatFlagTestsOnPatterns : Prop :=
  ∀ v : Word,
    (floatIsZero v = true ↔ v = 0 ∨ v = 0x80000000) ∧
    (floatIsNegative v = true ↔ v.msb = true ∧ v ≠ 0x80000000 ∧ isNaN v = false)

/-- The conversion of an immediate is exact (42_float_arith.md section 1, decision D10, log 14): up to 2^24 the pattern of `u2f n`
stands for the number `n`. -/
def Obligations.ImmediateConversionIsExact : Prop :=
  ∀ n : Nat, n ≤ 2 ^ 24 → f32 (u2f n) = .finite false (n * 2 ^ 149)

/-- DEC counts down exactly (42_float_arith.md section 2, decisions D11 and D14, logs 11 and 14): the float subtraction of 1.0, and
with it DEC on a register, takes (n + 1).0 to n.0 for n below 2^24 and sets ZF exactly at zero; for n up to 2^24 the first n
DEC instructions count a register from n.0 down one by one, the n-th brings it to +0.0 with ZF = 1 and none before sets ZF. -/
def Obligations.DecCountsDownExactly : Prop :=
  (∀ n : Nat, n < 2 ^ 24 → fsub (u2f (n + 1)) 0x3F800000 = .num (u2f n)) ∧
  (∀ (n : Nat) (d : RegId) (s : State), n < 2 ^ 24 → s.reg d = u2f (n + 1) →
    CompletesWithFlags (.dec d) s d (u2f n) (decide (n = 0)) false false false s.draws) ∧
  ∀ (n k : Nat) (d : RegId) (s : State), n ≤ 2 ^ 24 → k ≤ n → d ≠ .flags → s.reg d = u2f n →
    ∃ t, repeatExec (.dec d) k s = .next t ∧ t.reg d = u2f (n - k) ∧ (k = n → t.reg d = 0) ∧
      (0 < k → FlagsAre (s.reg .flags) (t.reg .flags) (decide (k = n)) false false false) ∧
      s.SameRegsBut t [d, .flags] ∧ s.SameMemory t ∧ s.SameDriver t ∧ t.draws = s.draws

-- ================================================================ logic and compare

/-- NOT, AND, OR and XOR write the bitwise result, then zero and sign from it and carry and overflow from the open function
LOGIC_CO of the operation, the operands and the result, and nothing else (43_logic_compare.md, decisions D15 and D19,
log 4). -/
def Obligations.LogicInstructionsWriteTheirResult : Prop :=
  ∀ (d r : RegId) (imm : BitVec 16) (s : State),
    (∀ v, v = ~~~(s.reg d) → CompletesWithFlags (.not d) s d v (decide (v = 0)) v.msb
      (Config.logicCO .not (s.reg d) none v).1 (Config.logicCO .not (s.reg d) none v).2 s.draws) ∧
    (∀ i b, (i = .andR d r ∧ b = s.reg r) ∨ (i = .andI d imm ∧ b = imm.setWidth 32) →
      ∀ v, v = s.reg d &&& b → CompletesWithFlags i s d v (decide (v = 0)) v.msb
        (Config.logicCO .and (s.reg d) (some b) v).1 (Config.logicCO .and (s.reg d) (some b) v).2 s.draws) ∧
    (∀ i b, (i = .orR d r ∧ b = s.reg r) ∨ (i = .orI d imm ∧ b = imm.setWidth 32) →
      ∀ v, v = s.reg d ||| b → CompletesWithFlags i s d v (decide (v = 0)) v.msb
        (Config.logicCO .or (s.reg d) (some b) v).1 (Config.logicCO .or (s.reg d) (some b) v).2 s.draws) ∧
    (∀ i b, (i = .xorR d r ∧ b = s.reg r) ∨ (i = .xorI d imm ∧ b = imm.setWidth 32) →
      ∀ v, v = s.reg d ^^^ b → CompletesWithFlags i s d v (decide (v = 0)) v.msb
        (Config.logicCO .xor (s.reg d) (some b) v).1 (Config.logicCO .xor (s.reg d) (some b) v).2 s.draws)

/-- CMPW writes no register but the four condition flags of the difference: zero, sign, the borrow and the signed overflow, the
last two as numbers (43_logic_compare.md, decision D16, taken by the spec from general knowledge, log 12). -/
def Obligations.CmpwSetsTheFlagsOfTheDifference : Prop :=
  ∀ (d r : RegId) (imm : BitVec 16) (s : State) (i : Instr) (b : Word),
    (i = .cmpwR d r ∧ b = s.reg r) ∨ (i = .cmpwI d imm ∧ b = imm.setWidth 32) →
    CompletesWithFlags i s .flags (s.reg .flags) (decide (s.reg d = b)) (s.reg d - b).msb
      (decide ((s.reg d).toNat < b.toNat))
      (decide ((s.reg d).toInt - b.toInt < -2 ^ 31 ∨ 2 ^ 31 ≤ (s.reg d).toInt - b.toInt)) s.draws

/-- What the conditional jumps mean after a compare (43_logic_compare.md section 2, 44_control_transfer.md): JE and JNE decide
equality; without signed overflow JLT, JGE, JGT, JLE and JS give the signed order, with it the opposite; JCO is taken on
a borrow or a signed overflow. Rests on decision D16 (log 12). -/
def Obligations.JumpsAfterCompare : Prop :=
  ∀ (d r : RegId) (x : BitVec 24) (s : State), ∃ t, exec (.cmpwR d r) s = .next t ∧
    ∀ (a b : Word) (ovf : Prop), a = s.reg d → b = s.reg r →
      (ovf ↔ (a.toInt - b.toInt < -2 ^ 31 ∨ 2 ^ 31 ≤ a.toInt - b.toInt)) →
      (∀ p, p = x.setWidth 32 → ∀ q, q = t.reg .pc →
        CompletesAt (.je x) t (if a = b then p else q) ∧
        CompletesAt (.jne x) t (if a = b then q else p) ∧
        (¬ovf →
          CompletesAt (.jlt x) t (if a.toInt < b.toInt then p else q) ∧
          CompletesAt (.js x) t (if a.toInt < b.toInt then p else q) ∧
          CompletesAt (.jge x) t (if b.toInt ≤ a.toInt then p else q) ∧
          CompletesAt (.jgt x) t (if b.toInt < a.toInt then p else q) ∧
          CompletesAt (.jle x) t (if a.toInt ≤ b.toInt then p else q)) ∧
        (ovf →
          CompletesAt (.jlt x) t (if a.toInt < b.toInt then q else p) ∧
          CompletesAt (.js x) t (if a.toInt < b.toInt then q else p) ∧
          CompletesAt (.jge x) t (if b.toInt ≤ a.toInt then q else p) ∧
          CompletesAt (.jgt x) t (if b.toInt < a.toInt then q else p) ∧
          CompletesAt (.jle x) t (if a.toInt ≤ b.toInt then q else p)) ∧
        (ovf → CompletesAt (.jco x) t p) ∧
        (¬ovf → CompletesAt (.jco x) t (if a.toNat < b.toNat then p else q)))

-- ================================================================ control transfer

/-- JMP (44_control_transfer.md R190): opcode 0x40 with a 24-bit target in bits 23 to 0, every such word; it sets `pc` to the
zero-extended target, unchecked, and changes nothing else; a JMP to its own address changes nothing at all, and `run`
never leaves it. -/
def Obligations.JmpSetsPc : Prop :=
  (∀ (m : FlagIdMap) (w : Word), opcodeField w = 0x40 → decode m w = .ok (.jmp (w.extractLsb' 0 24))) ∧
  (∀ (x : BitVec 24) (s : State), CompletesAt (.jmp x) s (x.setWidth 32)) ∧
  (∀ (x : BitVec 24) (s : State) (iw : Word), s.driver = .ready → s.fetch = some iw →
    decode s.flagIds iw = .ok (.jmp x) → x.setWidth 32 = s.reg .pc →
    step s = .next s ∧ s.runEnd = none ∧ ∀ n, run n s = .next s)

/-- The conditions of the eight conditional jumps on the FLAGS word as it stands (44_control_transfer.md R193): bit 6 is zero,
bit 7 sign, bit 0 carry, bit 11 overflow; a jump that is not taken leaves `pc` at the advanced pc, and nothing else
changes either way. Which jump each opcode from 0x43 to 0x49 stands for is the spec's decision D2, which the model takes as
it is (log 13); 0x4A is JCO. Every one has a 24-bit target. -/
def Obligations.ConditionalJumpsReadTheirFlags : Prop :=
  (∀ (m : FlagIdMap) (w : Word) (x : BitVec 24), x = w.extractLsb' 0 24 →
    (opcodeField w = 0x43 → decode m w = .ok (.je x)) ∧ (opcodeField w = 0x44 → decode m w = .ok (.jne x)) ∧
    (opcodeField w = 0x45 → decode m w = .ok (.jgt x)) ∧ (opcodeField w = 0x46 → decode m w = .ok (.jge x)) ∧
    (opcodeField w = 0x47 → decode m w = .ok (.jlt x)) ∧ (opcodeField w = 0x48 → decode m w = .ok (.jle x)) ∧
    (opcodeField w = 0x49 → decode m w = .ok (.js x)) ∧ (opcodeField w = 0x4A → decode m w = .ok (.jco x))) ∧
  ∀ (x : BitVec 24) (s : State) (z n c v : Bool), z = (s.reg .flags).getLsbD 6 → n = (s.reg .flags).getLsbD 7 →
    c = (s.reg .flags).getLsbD 0 → v = (s.reg .flags).getLsbD 11 →
    CompletesAt (.je x) s (if z = true then x.setWidth 32 else s.reg .pc) ∧
    CompletesAt (.jne x) s (if z = false then x.setWidth 32 else s.reg .pc) ∧
    CompletesAt (.jgt x) s (if z = false ∧ n = false then x.setWidth 32 else s.reg .pc) ∧
    CompletesAt (.jge x) s (if n = false then x.setWidth 32 else s.reg .pc) ∧
    CompletesAt (.jlt x) s (if z = false ∧ n = true then x.setWidth 32 else s.reg .pc) ∧
    CompletesAt (.jle x) s (if z = true ∨ n = true then x.setWidth 32 else s.reg .pc) ∧
    CompletesAt (.js x) s (if n = true then x.setWidth 32 else s.reg .pc) ∧
    CompletesAt (.jco x) s (if c = true ∨ v = true then x.setWidth 32 else s.reg .pc)

/-- CALL (44_control_transfer.md R191): opcode 0x41 with a 24-bit target; `pc`, which is the advanced pc, is stored at SP - 4, SP is lowered by 4 and `pc` is the
target, where SP is from 4 to MEM_SIZE; with any other SP it faults with OutOfBounds of SP - 4 modulo 2^32, makes no
call and changes nothing else. -/
def Obligations.CallPushesTheReturnAddress : Prop :=
  (∀ (m : FlagIdMap) (w : Word), opcodeField w = 0x41 → decode m w = .ok (.call (w.extractLsb' 0 24))) ∧
  ∀ (x : BitVec 24) (s : State),
    (s.mem.wf = true → 4 ≤ (s.reg .sp).toNat → (s.reg .sp).toNat ≤ s.memSize.bytes →
      ∃ t, CompletesStoring (.call x) s (s.reg .sp - 4) (s.reg .pc) [.sp, .pc] t ∧
        t.reg .sp = s.reg .sp - 4 ∧ t.reg .pc = x.setWidth 32) ∧
    ((s.reg .sp).toNat < 4 ∨ s.memSize.bytes < (s.reg .sp).toNat →
      Faults (.call x) s .outOfBounds (s.reg .sp - 4))

/-- RET (44_control_transfer.md R192): opcode 0x42 whatever the other bits are; the word at SP goes to `pc`, unchecked, and SP is raised by 4 modulo 2^32; past the end of
memory it faults with OutOfBounds of SP and changes nothing else. -/
def Obligations.RetPopsThePc : Prop :=
  (∀ (m : FlagIdMap) (w : Word), opcodeField w = 0x42 → decode m w = .ok .ret) ∧
  ∀ s : State,
    ((s.reg .sp).toNat + 4 ≤ s.memSize.bytes →
      ∃ t, exec .ret s = .next t ∧ t.reg .pc = wordAt s.mem (s.reg .sp).toNat ∧ t.reg .sp = s.reg .sp + 4 ∧
        s.SameRegsBut t [.sp, .pc] ∧ s.SameMemory t ∧ s.SameDriver t ∧ t.draws = s.draws) ∧
    (s.memSize.bytes < (s.reg .sp).toNat + 4 → Faults .ret s .outOfBounds (s.reg .sp))

/-- A RET undoes a CALL (44_control_transfer.md R191, R192): it comes back to the return address with SP restored and every other
register as it was. -/
def Obligations.RetUndoesCall : Prop :=
  ∀ (x : BitVec 24) (s : State), s.mem.wf = true → 4 ≤ (s.reg .sp).toNat →
    (s.reg .sp).toNat ≤ s.memSize.bytes →
    ∃ t u, exec (.call x) s = .next t ∧ exec .ret t = .next u ∧ ∀ r, u.reg r = s.reg r

-- ================================================================ flags and HALT

/-- SETF and CLRF (45_flags_halt.md R221, R222): the word's flag id selects a flag through FLAG_ID_MAP, whatever bits 23 to 8 are,
or the word is rejected as InvalidOperand; the instruction writes that one bit of FLAGS, 0 carry, 6 zero, 7 sign,
9 interrupt, 10 string, 11 overflow or 12 macro, and nothing else. -/
def Obligations.SetfAndClrfWriteOneFlag : Prop :=
  (∀ (m : FlagIdMap) (w : Word) (f : Flag), flagOfId m (loField w) = some f →
    (opcodeField w = 0x60 → decode m w = .ok (.setf f)) ∧ (opcodeField w = 0x61 → decode m w = .ok (.clrf f))) ∧
  (∀ (m : FlagIdMap) (w : Word), flagOfId m (loField w) = none →
    opcodeField w = 0x60 ∨ opcodeField w = 0x61 → decode m w = .error (.invalidOperand w)) ∧
  (∀ (f : Flag) (k : Nat), (f, k) ∈ [(Flag.carry, 0), (.zero, 6), (.sign, 7), (.interrupt, 9), (.string, 10),
      (.overflow, 11), (.macroFlag, 12)] → ∀ (s : State) (i : Instr) (v : Bool),
      (i = .setf f ∧ v = true) ∨ (i = .clrf f ∧ v = false) →
      ∃ t, exec i s = .next t ∧ (t.reg .flags).getLsbD k = v ∧
        (∀ j, j ≠ k → (t.reg .flags).getLsbD j = (s.reg .flags).getLsbD j) ∧
        s.SameRegsBut t [.flags] ∧ s.SameMemory t ∧ s.SameDriver t ∧ t.draws = s.draws)

/-- HALT (45_flags_halt.md R223): opcode 0xFF whatever the other bits are; the driver becomes Halted and nothing else changes,
so that a step that fetches it leaves `pc` 4 bytes past it; then `run` executes nothing more. That a further step changes no
architectural state and raises `already_halted`, and that no number of steps makes the core Ready again, is the spec's
decision D21 (60_exceptions.md R290), which the model takes as it is (log 19). -/
def Obligations.HaltStopsTheCore : Prop :=
  (∀ (m : FlagIdMap) (w : Word), opcodeField w = 0xFF → decode m w = .ok .halt) ∧
  (∀ s : State, ∃ t, exec .halt s = .next t ∧ t.driver = .halted ∧ (∀ r, t.reg r = s.reg r) ∧ s.SameMemory t ∧
    t.faultCause = s.faultCause ∧ t.faultInfo = s.faultInfo ∧ t.alreadyHalted = s.alreadyHalted ∧
    t.memSize = s.memSize ∧ t.flagIds = s.flagIds ∧ t.draws = s.draws ∧
    (∀ n, run n t = .next t) ∧
    (∃ u, step t = .next u ∧ u.alreadyHalted = true ∧ u.driver = .halted ∧ (∀ r, u.reg r = t.reg r) ∧
      t.SameMemory u ∧ u.faultCause = t.faultCause ∧ u.faultInfo = t.faultInfo) ∧
    (∀ n, ∃ u, (Host.Core.run Sys2Proof.core n t : Result) = .next u ∧ u.driver = .halted)) ∧
  (∀ (s : State) (iw : Word), s.driver = .ready → s.fetch = some iw → opcodeField iw = 0xFF →
    ∃ t, step s = .next t ∧ t.driver = .halted ∧ t.reg .pc = s.reg .pc + 4 ∧ s.SameRegsBut t [.pc] ∧ s.SameMemory t)

-- ================================================================ the assembler

/-- The layout invariant of the assembler (50_assembler.md section 4): text, data and stack of an assembled program follow each
other inside memory, and the data ends exactly at the stack. -/
def Obligations.AssembledSegmentsFit : Prop :=
  ∀ (size : MemSize) (m : FlagIdMap) (src : List Char) (p : AssembledProgram), assemble size m src = .ok p →
    p.textStart + 4 * p.text.length ≤ p.dataStart ∧ p.dataStart + p.data.length = p.stackStart ∧
    p.stackStart + p.stackSize ≤ size.bytes ∧ p.textStart < size.bytes ∧ p.stackStart < size.bytes

/-- An assembled program loads (50_assembler.md section 6, 70_reset_and_hazards.md section 1): `reset_load` takes its image, and
in the state it leaves every text word stands at its address and every data byte stands at its address. Every text word is
the canonical word of the instruction it decodes to, which rests on the round trip of 30_encoding.md R105 and on
50_assembler.md R262, the spec's decision D5; where several ids select one flag, the model's choice of the id is log 3. -/
def Obligations.AssembledProgramsLoad : Prop :=
  ∀ (size : MemSize) (m : FlagIdMap) (src : List Char) (p : AssembledProgram), assemble size m src = .ok p →
    ∃ s, resetLoad (p.loadRequest size m) = .next s ∧ s.Inv = true ∧
      s.reg .pc = BitVec.ofNat 32 p.textStart ∧ s.reg .sp = BitVec.ofNat 32 p.stackStart ∧
      (∀ k (h : k < p.text.length), wordAt s.mem (p.textStart + 4 * k) = p.text[k] ∧
        ∃ i, decode m p.text[k] = .ok i ∧ encode m i = some p.text[k]) ∧
      (∀ k (h : k < p.data.length), s.mem.readByte (p.dataStart + k) = p.data[k])

/-- The checks of the assembler on immediate values (50_assembler.md section 5, decision D30, log 23), the value being written as a
number or as a label: MOVI, LODI and STRI take exactly the values up to 0xFFFF; the immediate forms of the eight RM mnemonics,
of STRW and of PUSH take exactly the even ones; each other value is the error of its kind. -/
def Obligations.AssemblerChecksWidths : Prop :=
  ∀ (m : FlagIdMap) (syms : List (Ident × Nat)) (d : RegId) (a n : Nat) (o : Operand), a ≤ 0xFF →
    (o = .imm n ∨ ∃ l l', o = .label l ∧ syms.find? (fun p => p.1 == l) = some (l', n)) →
    (∀ op ∈ [Opcode.movi, .lodi],
      (n ≤ 0xFFFF → assembleInstr m syms (Opcode.text op) [.reg d, o] = .ok (packImm op d.code (BitVec.ofNat 16 n))) ∧
      (0xFFFF < n → assembleInstr m syms (Opcode.text op) [.reg d, o] = .error (.tooWide 16 n))) ∧
    (n ≤ 0xFFFF → assembleInstr m syms "STRI".toList [.address a, o] =
      .ok (packImm .stri (BitVec.ofNat 8 a) (BitVec.ofNat 16 n))) ∧
    (0xFFFF < n → assembleInstr m syms "STRI".toList [.address a, o] = .error (.tooWide 16 n)) ∧
    (∀ op ∈ registerModeForms.map (fun f => f.1),
      (n ≤ 0xFFFF → n % 2 = 0 →
        assembleInstr m syms (Opcode.text op) [.reg d, o] = .ok (packImm op d.code (BitVec.ofNat 16 n))) ∧
      (n ≤ 0xFFFF → n % 2 = 1 → assembleInstr m syms (Opcode.text op) [.reg d, o] = .error (.oddImmediate n)) ∧
      (0xFFFF < n → assembleInstr m syms (Opcode.text op) [.reg d, o] = .error (.tooWide 16 n))) ∧
    (n ≤ 0xFFFF → n % 2 = 0 → assembleInstr m syms "STRW".toList [.address a, o] =
      .ok (packImm .strw (BitVec.ofNat 8 a) (BitVec.ofNat 16 n))) ∧
    (n ≤ 0xFFFF → n % 2 = 1 → assembleInstr m syms "STRW".toList [.address a, o] = .error (.oddImmediate n)) ∧
    (0xFFFF < n → assembleInstr m syms "STRW".toList [.address a, o] = .error (.tooWide 16 n)) ∧
    (n ≤ 0xFFFF → n % 2 = 0 → assembleInstr m syms "PUSH".toList [o] = .ok (packImm .push 0 (BitVec.ofNat 16 n))) ∧
    (n ≤ 0xFFFF → n % 2 = 1 → assembleInstr m syms "PUSH".toList [o] = .error (.oddImmediate n)) ∧
    (0xFFFF < n → assembleInstr m syms "PUSH".toList [o] = .error (.tooWide 16 n))

/-- The checks of the assembler on addresses and on `.byte` (50_assembler.md section 5, decision D33 for the operand kinds, log 23),
the address being written in brackets or as a label: STRI and STRW take exactly the addresses up to 0xFF, LODW those up to
0xFFFF, the jumps and CALL those up to 0xFFFFFF, also as a bare number, and `.byte` the values up to 0xFF; a larger one is the
width error that names the field's width and the value. -/
def Obligations.AssemblerChecksAddressWidths : Prop :=
  ∀ (m : FlagIdMap) (syms : List (Ident × Nat)) (d : RegId) (n : Nat) (o p : Operand),
    (o = .address n ∨ ∃ l l', o = .label l ∧ syms.find? (fun q => q.1 == l) = some (l', n)) →
    (n ≤ 0xFF → ∀ v, v ≤ 0xFFFF → assembleInstr m syms "STRI".toList [o, .imm v] =
      .ok (packImm .stri (BitVec.ofNat 8 n) (BitVec.ofNat 16 v))) ∧
    (0xFF < n → assembleInstr m syms "STRI".toList [o, p] = .error (.tooWide 8 n)) ∧
    (n ≤ 0xFF → assembleInstr m syms "STRW".toList [o, .reg d] =
      .ok (packBytes .strw (BitVec.ofNat 8 n) d.code 1)) ∧
    (0xFF < n → assembleInstr m syms "STRW".toList [o, p] = .error (.tooWide 8 n)) ∧
    (n ≤ 0xFFFF → assembleInstr m syms "LODW".toList [.reg d, o] = .ok (packImm .lodw d.code (BitVec.ofNat 16 n))) ∧
    (0xFFFF < n → assembleInstr m syms "LODW".toList [.reg d, o] = .error (.tooWide 16 n)) ∧
    (∀ op ∈ [Opcode.jmp, .call, .je, .jne, .jgt, .jge, .jlt, .jle, .js, .jco], ∀ x ∈ [o, .imm n],
      (n ≤ 0xFFFFFF → assembleInstr m syms (Opcode.text op) [x] = .ok (packTarget op (BitVec.ofNat 24 n))) ∧
      (0xFFFFFF < n → assembleInstr m syms (Opcode.text op) [x] = .error (.tooWide 24 n))) ∧
    (∀ c, (n ≤ 0xFF → dataOf syms c (.byte n) = .ok [BitVec.ofNat 8 n]) ∧
      (0xFF < n → dataOf syms c (.byte n) = .error (.tooWide 8 n)))

/-- Macro expansion substitutes the call-site operands for the two parameters wherever they stand in the body, and leaves every
other label untouched (50_assembler.md section 3). -/
def Obligations.MacroArgumentsAreSubstituted : Prop :=
  ∀ (ms : List MacroDef) (c : Command) (line : Nat) (name p q : Ident) (x y : Operand) (body : List Command), p ≠ q →
    ms.find? (fun d => d.name == c.opcode) = some ⟨line, name, [p, q], body⟩ → c.operands = [x, y] → c.label = none →
    ∃ out, expandCommand ms c = .ok out ∧ out.length = body.length ∧
      ∀ k (h : k < body.length) (h' : k < out.length), (out[k]).opcode = (body[k]).opcode ∧
        (out[k]).operands = (body[k]).operands.map fun o =>
          if o = .label p then x else if o = .label q then y else o
end

