-- ==== Sys2Proof/Laws/Assembler.lean ====
section
/-! SUPPORT. The small lemmas of the assembler: mnemonics name their opcodes, and what the width checks answer. -/

namespace Sys2Proof.Machine

/-- Every mnemonic names its own opcode (R86, R231). -/
@[simp] theorem opcodeNamed_text (op : Opcode) : opcodeNamed (Opcode.text op) = some op := by cases op <;> decide +kernel

/-- A number fits a field exactly below the power of two of its width, and is not changed by it (R263). -/
theorem fit_of_lt {w n : Nat} (h : n < 2 ^ w) : fit w n = .ok (BitVec.ofNat w n) := if_pos h

theorem fit_of_le {w n : Nat} (h : 2 ^ w ≤ n) : fit w n = .error (.tooWide w n) := if_neg (Nat.not_lt.2 h)

/-- What the check of an immediate with a mode bit answers (R263). -/
theorem fitEven_of_even {n : Nat} (h : n < 2 ^ 16) (he : n % 2 = 0) : fitEven n = .ok (BitVec.ofNat 16 n) := by
  rw [fitEven, if_neg (by omega), fit_of_lt h]

theorem fitEven_of_odd {n : Nat} (h : n < 2 ^ 16) (ho : n % 2 = 1) : fitEven n = .error (.oddImmediate n) :=
  if_pos ⟨ho, h⟩

theorem fitEven_of_le {n : Nat} (h : 2 ^ 16 ≤ n) : fitEven n = .error (.tooWide 16 n) := by
  rw [fitEven, if_neg (by omega), fit_of_le h]

end Sys2Proof.Machine
end

