-- ==== Sys2Proof/Laws/Decode.lean ====
section
/-! SUPPORT. The small lemmas of decoding: register codes, opcode bytes, and the fields of packed words. -/

namespace Sys2Proof

@[simp] theorem RegId.ofCode_code (r : RegId) : RegId.ofCode r.code = some r := by cases r <;> decide

theorem RegId.code_of_ofCode {c : Byte} {r : RegId} (h : RegId.ofCode c = some r) : r.code = c := by
  simpa using List.find?_some h

/-- A field names a register exactly if it is at most 13 (R84). -/
theorem RegId.ofCode_eq_none_iff (c : Byte) : RegId.ofCode c = none ↔ 13 < c.toNat := by
  revert c; decide +kernel

@[simp] theorem Opcode.ofByte_byte (o : Opcode) : Opcode.ofByte o.byte = some o := by cases o <;> decide

theorem Opcode.byte_of_ofByte {b : Byte} {o : Opcode} (h : Opcode.ofByte b = some o) : o.byte = b := by
  simpa using List.find?_some h

@[simp] theorem regField_code (iw : Word) (r : RegId) : regField iw r.code = .ok r := by simp [regField]

theorem flagOfId_of_idOfFlag {m : FlagIdMap} {f : Flag} {id : BitVec 8} (h : idOfFlag m f = some id) :
    flagOfId m id = some f := by simpa using List.find?_some h

-- ---------------------------------------------------------------- fields of packed words

@[simp] theorem opcodeField_packBytes (op : Opcode) (hi mid lo : Byte) :
    opcodeField (packBytes op hi mid lo) = op.byte := by
  apply BitVec.eq_of_getLsbD_eq; intro i h
  simp only [opcodeField, packBytes, BitVec.getLsbD_extractLsb', BitVec.getLsbD_append]
  have h1 : ¬ 24 + i < 8 := by omega
  have h2 : ¬ 24 + i - 8 < 8 := by omega
  have h3 : ¬ 24 + i - 8 - 8 < 8 := by omega
  simp [h, h1, h2, h3, show 24 + i - 8 - 8 - 8 = i by omega]

@[simp] theorem hiField_packBytes (op : Opcode) (hi mid lo : Byte) : hiField (packBytes op hi mid lo) = hi := by
  apply BitVec.eq_of_getLsbD_eq; intro i h
  simp only [hiField, packBytes, BitVec.getLsbD_extractLsb', BitVec.getLsbD_append]
  have h1 : ¬ 16 + i < 8 := by omega
  have h2 : ¬ 16 + i - 8 < 8 := by omega
  simp [h, h1, h2, show 16 + i - 8 - 8 = i by omega]

@[simp] theorem midField_packBytes (op : Opcode) (hi mid lo : Byte) : midField (packBytes op hi mid lo) = mid := by
  apply BitVec.eq_of_getLsbD_eq; intro i h
  simp only [midField, packBytes, BitVec.getLsbD_extractLsb', BitVec.getLsbD_append]
  have h1 : ¬ 8 + i < 8 := by omega
  simp [h, h1, show 8 + i - 8 = i by omega]

@[simp] theorem loField_packBytes (op : Opcode) (hi mid lo : Byte) : loField (packBytes op hi mid lo) = lo := by
  apply BitVec.eq_of_getLsbD_eq; intro i h
  simp only [loField, packBytes, BitVec.getLsbD_extractLsb', BitVec.getLsbD_append]
  simp [h]

@[simp] theorem modeBit_packBytes (op : Opcode) (hi mid lo : Byte) :
    modeBit (packBytes op hi mid lo) = lo.getLsbD 0 := by
  simp only [modeBit, packBytes, BitVec.getLsbD_append]
  simp

@[simp] theorem opcodeField_packImm (op : Opcode) (hi : Byte) (imm : BitVec 16) :
    opcodeField (packImm op hi imm) = op.byte := by
  apply BitVec.eq_of_getLsbD_eq; intro i h
  simp only [opcodeField, packImm, BitVec.getLsbD_extractLsb', BitVec.getLsbD_append]
  have h1 : ¬ 24 + i < 16 := by omega
  have h2 : ¬ 24 + i - 16 < 8 := by omega
  simp [h, h1, h2, show 24 + i - 16 - 8 = i by omega]

@[simp] theorem hiField_packImm (op : Opcode) (hi : Byte) (imm : BitVec 16) :
    hiField (packImm op hi imm) = hi := by
  apply BitVec.eq_of_getLsbD_eq; intro i h
  simp only [hiField, packImm, BitVec.getLsbD_extractLsb', BitVec.getLsbD_append]
  have h1 : ¬ 16 + i < 16 := by omega
  simp [h, h1, show 16 + i - 16 = i by omega]

@[simp] theorem midField_packImm (op : Opcode) (hi : Byte) (imm : BitVec 16) :
    midField (packImm op hi imm) = imm.extractLsb' 8 8 := by
  apply BitVec.eq_of_getLsbD_eq; intro i h
  simp only [midField, packImm, BitVec.getLsbD_extractLsb', BitVec.getLsbD_append]
  simp [h, show 8 + i < 16 by omega]

@[simp] theorem immField_packImm (op : Opcode) (hi : Byte) (imm : BitVec 16) :
    immField (packImm op hi imm) = imm := by
  apply BitVec.eq_of_getLsbD_eq; intro i h
  simp only [immField, packImm, BitVec.getLsbD_extractLsb', BitVec.getLsbD_append]
  simp [h]

@[simp] theorem modeBit_packImm (op : Opcode) (hi : Byte) (imm : BitVec 16) :
    modeBit (packImm op hi imm) = imm.getLsbD 0 := by
  simp only [modeBit, packImm, BitVec.getLsbD_append]
  simp

@[simp] theorem opcodeField_packTarget (op : Opcode) (t : BitVec 24) :
    opcodeField (packTarget op t) = op.byte := by
  apply BitVec.eq_of_getLsbD_eq; intro i h
  simp only [opcodeField, packTarget, BitVec.getLsbD_extractLsb', BitVec.getLsbD_append]
  have h1 : ¬ 24 + i < 24 := by omega
  simp [h, h1, show 24 + i - 24 = i by omega]

@[simp] theorem targetField_packTarget (op : Opcode) (t : BitVec 24) : targetField (packTarget op t) = t := by
  apply BitVec.eq_of_getLsbD_eq; intro i h
  simp only [targetField, packTarget, BitVec.getLsbD_extractLsb', BitVec.getLsbD_append]
  simp [h]

/-- A packed flag word selects its opcode and carries an id of the flag (R101, R234). -/
theorem packFlag_eq_some {m : FlagIdMap} {op : Opcode} {f : Flag} {w : Word} (h : packFlag m op f = some w) :
    opcodeField w = op.byte ∧ flagOfId m (loField w) = some f := by
  unfold packFlag at h
  cases hid : idOfFlag m f with
  | none => rw [hid] at h; cases h
  | some id =>
    rw [hid] at h
    cases h
    exact ⟨opcodeField_packBytes _ _ _ _, by rw [loField_packBytes]; exact flagOfId_of_idOfFlag hid⟩

end Sys2Proof
end

