-- ==== Sys2Proof/Laws/Float.lean ====
section
/-! SUPPORT. The laws of binary32 patterns: the value of a packed sign and magnitude, of a negated pattern, and which patterns
are NaNs. -/

namespace Sys2Proof.Machine

/-- `bits` is the inverse of the reinterpretation (R150). -/
@[simp] theorem bits_binary32 (v : Word) : (binary32 v).bits = v := by
  apply BitVec.eq_of_getLsbD_eq; intro i h
  simp only [Binary32.bits, binary32, BitVec.getLsbD_append, BitVec.getLsbD_extractLsb', BitVec.getLsbD_ofBool]
  by_cases h1 : i < 23
  · simp [h1]
  · by_cases h2 : i - 23 < 8
    · simp [h1, h2, show 23 + (i - 23) = i by omega]
    · have : i = 31 := by omega
      subst this; simp

@[simp] theorem binary32_bits (f : Binary32) : binary32 f.bits = f := by
  obtain ⟨s, e, m⟩ := f
  simp only [binary32, Binary32.bits, Binary32.mk.injEq]
  refine ⟨by cases s <;> simp only [BitVec.getLsbD_append, BitVec.getLsbD_ofBool] <;> rfl, ?_, ?_⟩ <;>
    apply BitVec.eq_of_getLsbD_eq <;> intro i h <;> simp only [BitVec.getLsbD_extractLsb', BitVec.getLsbD_append]
  · simp [h, show ¬ 23 + i < 23 by omega, show 23 + i - 23 = i by omega]
  · simp [h]

/-- A pattern is a NaN exactly if it stands for no number (R150). -/
theorem f32_eq_nan_iff (v : Word) : f32 v = .nan ↔ isNaN v = true := by
  unfold f32 isNaN
  by_cases he : floatExponent v = 255
  · by_cases hf : floatFraction v = 0 <;> simp [he, hf]
  · simp [he]

theorem toNat_packFloat (neg : Bool) {mag : Nat} (h : mag < 2 ^ 31) :
    (packFloat neg mag).toNat = (if neg then 2 ^ 31 else 0) + mag := by
  unfold packFloat
  rw [BitVec.toNat_ofNat]
  cases neg <;> (simp; omega)

theorem floatExponent_packFloat (neg : Bool) {mag : Nat} (h : mag < 2 ^ 31) :
    floatExponent (packFloat neg mag) = mag / 2 ^ 23 := by
  unfold floatExponent
  rw [toNat_packFloat neg h]
  cases neg <;> simp <;> omega

theorem floatFraction_packFloat (neg : Bool) {mag : Nat} (h : mag < 2 ^ 31) :
    floatFraction (packFloat neg mag) = mag % 2 ^ 23 := by
  unfold floatFraction
  rw [toNat_packFloat neg h]
  cases neg
  · simp
  · simp; omega

theorem floatSign_packFloat (neg : Bool) {mag : Nat} (h : mag < 2 ^ 31) : floatSign (packFloat neg mag) = neg := by
  unfold floatSign
  rw [BitVec.getLsbD, toNat_packFloat neg h, Nat.testBit_eq_decide_div_mod_eq]
  cases neg <;> simp <;> omega

/-- Below infinity a packed sign and magnitude stand for a finite number: the upper bits of the magnitude are the exponent,
the lower 23 the fraction (R150). -/
theorem f32_packFloat_finite (neg : Bool) {mag : Nat} (h : mag < infinityMag) :
    f32 (packFloat neg mag) = .finite neg (floatUnits (mag / 2 ^ 23) (mag % 2 ^ 23)) := by
  have hlt : mag < 2 ^ 31 := by unfold infinityMag at h; omega
  have he : mag / 2 ^ 23 ≠ 255 := by unfold infinityMag at h; omega
  unfold f32
  rw [floatExponent_packFloat neg hlt, floatFraction_packFloat neg hlt, floatSign_packFloat neg hlt, if_neg he]

theorem f32_packFloat_infinity (neg : Bool) : f32 (packFloat neg infinityMag) = .infinity neg := by
  cases neg <;> decide

/-- The patterns of the two infinities (R150). -/
@[simp] theorem packFloat_infinityMag (neg : Bool) : packFloat neg infinityMag = infinityPattern neg := by
  cases neg <;> decide

@[simp] theorem f32_infinityPattern (neg : Bool) : f32 (infinityPattern neg) = .infinity neg := by
  cases neg <;> decide

@[simp] theorem floatNegate_infinityPattern (neg : Bool) :
    floatNegate (infinityPattern neg) = infinityPattern (!neg) := by cases neg <;> decide

/-- A rounded magnitude is at most that of infinity. -/
theorem roundMag_le (n k : Nat) : roundMag n k ≤ infinityMag := Nat.min_le_left _ _

/-- Rounding to a whole number goes to one of the two neighbours (R151). -/
theorem roundShift_cases (n s : Nat) : roundShift n s = n / 2 ^ s ∨ roundShift n s = n / 2 ^ s + 1 := by
  unfold roundShift
  split <;> simp

end Sys2Proof.Machine
end

