-- ==== Sys2Proof/Laws/Memory.lean ====
section
/-! SUPPORT. The laws of memory: a read after a write, the frame of a write, and that every write keeps the canonical form and
the address space. -/

namespace Sys2Proof.Machine

theorem Memory.wfFrom_mono {lo hi : Nat} (h : lo ≤ hi) : ∀ {m : Memory}, Memory.wfFrom hi m → Memory.wfFrom lo m
  | [], _ => rfl
  | c :: m, hw => by
    simp only [Memory.wfFrom, Bool.and_eq_true, decide_eq_true_eq] at hw ⊢
    exact ⟨⟨by omega, hw.1.2⟩, hw.2⟩

/-- Below the first listed address a memory reads as the background. -/
theorem Memory.readByte_below : ∀ {m : Memory} {lo a : Nat}, Memory.wfFrom lo m → a < lo →
    Memory.readByte m a = Memory.background
  | [], _, _, _, _ => rfl
  | c :: m, lo, a, hw, ha => by
    simp only [Memory.wfFrom, Bool.and_eq_true, decide_eq_true_eq] at hw
    have hne : c.1 ≠ a := by omega
    simp only [Memory.readByte, if_neg hne]
    exact Memory.readByte_below hw.2 (by omega)

theorem Memory.readByte_consByte {m : Memory} {a : Nat} {b : Byte} (hw : Memory.wfFrom (a + 1) m) (x : Nat) :
    Memory.readByte (Memory.consByte a b m) x = if x = a then b else Memory.readByte m x := by
  unfold Memory.consByte
  by_cases hb : b = Memory.background
  · by_cases hx : x = a
    · subst hx
      simp [hb, Memory.readByte_below hw (Nat.lt_succ_self x)]
    · simp [hb, hx]
  · by_cases hx : x = a
    · subst hx; simp [hb, Memory.readByte]
    · simp [hb, hx, Memory.readByte, Ne.symm hx]

theorem Memory.wfFrom_consByte {m : Memory} {lo a : Nat} {b : Byte} (hlo : lo ≤ a)
    (hw : Memory.wfFrom (a + 1) m) : Memory.wfFrom lo (Memory.consByte a b m) := by
  unfold Memory.consByte
  by_cases hb : b = Memory.background
  · simpa [hb] using Memory.wfFrom_mono (by omega) hw
  · simp [hb, Memory.wfFrom, hlo, hw]

/-- One byte after a write of one byte, in a canonical memory. -/
theorem Memory.readByte_writeByte_from : ∀ {m : Memory} {lo : Nat}, Memory.wfFrom lo m → ∀ (a : Nat) (b : Byte)
    (x : Nat), Memory.readByte (Memory.writeByte m a b) x = if x = a then b else Memory.readByte m x
  | [], _, _, a, b, x => by
    simpa [Memory.writeByte] using Memory.readByte_consByte (m := []) (b := b) (a := a) rfl x
  | c :: m, lo, hw, a, b, x => by
    have hw' := hw
    simp only [Memory.wfFrom, Bool.and_eq_true, decide_eq_true_eq] at hw'
    unfold Memory.writeByte
    by_cases h1 : a < c.1
    · simp only [if_pos h1]
      refine Memory.readByte_consByte ?_ x
      simp only [Memory.wfFrom, Bool.and_eq_true, decide_eq_true_eq]
      exact ⟨⟨by omega, hw'.1.2⟩, hw'.2⟩
    · by_cases h2 : a = c.1
      · simp only [if_neg h1, if_pos h2]
        rw [Memory.readByte_consByte (by rw [h2]; exact hw'.2)]
        by_cases hx : x = a
        · simp [hx]
        · have : c.1 ≠ x := by omega
          simp [hx, Memory.readByte, this]
      · simp only [if_neg h1, if_neg h2, Memory.readByte]
        rw [Memory.readByte_writeByte_from hw'.2 a b x]
        by_cases hc : c.1 = x
        · have : x ≠ a := by omega
          simp [hc, this]
        · simp [hc]

/-- A read after a write: the written address gives the written byte, every other address what it gave before. -/
theorem Memory.readByte_writeByte {m : Memory} (hw : m.wf) (a : Nat) (b : Byte) (x : Nat) :
    Memory.readByte (Memory.writeByte m a b) x = if x = a then b else Memory.readByte m x :=
  Memory.readByte_writeByte_from hw a b x

/-- Also in a memory that is not canonical, a write leaves every other address alone. -/
theorem Memory.readByte_writeByte_of_ne : ∀ (m : Memory) {a x : Nat} (b : Byte), x ≠ a →
    Memory.readByte (Memory.writeByte m a b) x = Memory.readByte m x
  | [], a, x, b, h => by
    unfold Memory.writeByte Memory.consByte
    by_cases hb : b = Memory.background <;> simp [hb, Memory.readByte, Ne.symm h]
  | c :: m, a, x, b, h => by
    unfold Memory.writeByte
    by_cases h1 : a < c.1
    · simp only [if_pos h1, Memory.consByte]
      by_cases hb : b = Memory.background <;> simp [hb, Memory.readByte, Ne.symm h]
    · by_cases h2 : a = c.1
      · have hcx : c.1 ≠ x := by omega
        simp only [if_neg h1, if_pos h2, Memory.consByte]
        by_cases hb : b = Memory.background <;> simp [hb, Memory.readByte, Ne.symm h, hcx]
      · simp only [if_neg h1, if_neg h2, Memory.readByte]
        rw [Memory.readByte_writeByte_of_ne m b h]

theorem Memory.wfFrom_writeByte : ∀ {m : Memory} {lo a : Nat} {b : Byte}, lo ≤ a → Memory.wfFrom lo m →
    Memory.wfFrom lo (Memory.writeByte m a b)
  | [], lo, a, b, hlo, _ => Memory.wfFrom_consByte hlo rfl
  | c :: m, lo, a, b, hlo, hw => by
    have hw' := hw
    simp only [Memory.wfFrom, Bool.and_eq_true, decide_eq_true_eq] at hw'
    unfold Memory.writeByte
    by_cases h1 : a < c.1
    · simp only [if_pos h1]
      refine Memory.wfFrom_consByte hlo ?_
      simp only [Memory.wfFrom, Bool.and_eq_true, decide_eq_true_eq]
      exact ⟨⟨by omega, hw'.1.2⟩, hw'.2⟩
    · by_cases h2 : a = c.1
      · simp only [if_neg h1, if_pos h2]
        exact Memory.wfFrom_consByte hlo (by rw [h2]; exact hw'.2)
      · simp only [if_neg h1, if_neg h2, Memory.wfFrom, Bool.and_eq_true, decide_eq_true_eq]
        exact ⟨hw'.1, Memory.wfFrom_writeByte (by omega) hw'.2⟩

/-- A write of one byte keeps the canonical form. -/
theorem Memory.wf_writeByte {m : Memory} (hw : m.wf) (a : Nat) (b : Byte) : (Memory.writeByte m a b).wf :=
  Memory.wfFrom_writeByte (Nat.zero_le a) hw

theorem Memory.within_consByte {size a : Nat} {b : Byte} {m : Memory} (ha : a < size) (hm : Memory.within size m) :
    Memory.within size (Memory.consByte a b m) := by
  unfold Memory.consByte
  by_cases hb : b = Memory.background
  · simpa [hb] using hm
  · simp only [if_neg hb, Memory.within, List.all_cons, Bool.and_eq_true, decide_eq_true_eq]
    exact ⟨ha, hm⟩

/-- A write below `size` adds no address at or above `size`. -/
theorem Memory.within_writeByte : ∀ {m : Memory} {size a : Nat} {b : Byte}, a < size → Memory.within size m →
    Memory.within size (Memory.writeByte m a b)
  | [], _, _, _, ha, hm => Memory.within_consByte ha hm
  | c :: m, size, a, b, ha, hm => by
    have hm' := hm
    simp only [Memory.within, List.all_cons, Bool.and_eq_true, decide_eq_true_eq] at hm'
    unfold Memory.writeByte
    by_cases h1 : a < c.1
    · simp only [if_pos h1]; exact Memory.within_consByte ha hm
    · by_cases h2 : a = c.1
      · simp only [if_neg h1, if_pos h2]; exact Memory.within_consByte ha hm'.2
      · simp only [if_neg h1, if_neg h2, Memory.within, List.all_cons, Bool.and_eq_true, decide_eq_true_eq]
        exact ⟨hm'.1, Memory.within_writeByte ha hm'.2⟩

-- ---------------------------------------------------------------- several bytes

/-- A block write keeps the canonical form. -/
theorem Memory.wf_writeBytes : ∀ (bs : List Byte) {m : Memory} (a : Nat), m.wf → (Memory.writeBytes m a bs).wf
  | [], _, _, hw => hw
  | _ :: bs, _, _, hw => Memory.wf_writeBytes bs _ (Memory.wf_writeByte hw _ _)

/-- A block write inside memory adds no address outside it. -/
theorem Memory.within_writeBytes : ∀ (bs : List Byte) {m : Memory} {size a : Nat}, a + bs.length ≤ size →
    Memory.within size m → Memory.within size (Memory.writeBytes m a bs)
  | [], _, _, _, _, hm => hm
  | b :: bs, m, size, a, h, hm => by
    simp only [List.length_cons] at h
    exact Memory.within_writeBytes bs (by omega) (Memory.within_writeByte (by omega) hm)

/-- A block write leaves every address outside the block alone, in every memory. -/
theorem Memory.readByte_writeBytes_outside : ∀ (bs : List Byte) (m : Memory) {a x : Nat},
    x < a ∨ a + bs.length ≤ x → Memory.readByte (Memory.writeBytes m a bs) x = Memory.readByte m x
  | [], _, _, _, _ => rfl
  | b :: bs, m, a, x, h => by
    simp only [List.length_cons] at h
    rw [Memory.writeBytes, Memory.readByte_writeBytes_outside bs _ (by omega),
      Memory.readByte_writeByte_of_ne m b (by omega)]

/-- Inside the block, a block write leaves the written bytes. -/
theorem Memory.readByte_writeBytes_inside : ∀ (bs : List Byte) {m : Memory} (_ : m.wf) (a k : Nat)
    (hk : k < bs.length), Memory.readByte (Memory.writeBytes m a bs) (a + k) = bs[k]
  | [], _, _, _, _, hk => absurd hk (Nat.not_lt_zero _)
  | b :: bs, m, hw, a, k, hk => by
    simp only [List.length_cons] at hk
    cases k with
    | zero =>
      rw [Memory.writeBytes, Memory.readByte_writeBytes_outside bs _ (by omega), Memory.readByte_writeByte hw]
      simp
    | succ k =>
      have := Memory.readByte_writeBytes_inside bs (Memory.wf_writeByte hw a b) (a + 1) k (by omega)
      rw [Memory.writeBytes, show a + (k + 1) = a + 1 + k by omega, this]
      rfl

@[simp] theorem Memory.length_readBytes (m : Memory) (a n : Nat) : (m.readBytes a n).length = n := by
  induction n generalizing a with
  | zero => rfl
  | succ n ih => simp [Memory.readBytes, ih]

/-- Equal bytes make equal blocks. -/
theorem Memory.readBytes_congr {m k : Memory} : ∀ {n a : Nat},
    (∀ i, i < n → Memory.readByte m (a + i) = Memory.readByte k (a + i)) → m.readBytes a n = k.readBytes a n
  | 0, _, _ => rfl
  | n + 1, a, h => by
    have h0 := h 0 (by omega)
    have h1 := Memory.readBytes_congr (m := m) (k := k) (n := n) (a := a + 1)
      (fun i hi => by have := h (i + 1) (by omega); rwa [show a + (i + 1) = a + 1 + i by omega] at this)
    simp only [Memory.readBytes, h1]
    simpa using h0

/-- A block read after the block write gives the block. -/
theorem Memory.readBytes_writeBytes : ∀ (bs : List Byte) {m : Memory} (_ : m.wf) (a : Nat),
    (Memory.writeBytes m a bs).readBytes a bs.length = bs
  | [], _, _, _ => rfl
  | b :: bs, m, hw, a => by
    simp only [Memory.writeBytes, List.length_cons, Memory.readBytes]
    rw [Memory.readBytes_writeBytes bs (Memory.wf_writeByte hw a b) (a + 1),
      Memory.readByte_writeBytes_outside bs _ (by omega), Memory.readByte_writeByte hw]
    simp

-- ---------------------------------------------------------------- little-endian values

@[simp] theorem length_leBytes (n v : Nat) : (leBytes n v).length = n := by
  induction n generalizing v with
  | zero => rfl
  | succ n ih => simp [leBytes, ih]

theorem leValue_lt (bs : List Byte) : leValue bs < 256 ^ bs.length := by
  induction bs with
  | nil => simp [leValue]
  | cons b bs ih =>
    have hb : b.toNat < 256 := b.isLt
    simp only [leValue, List.length_cons, Nat.pow_succ]
    omega

/-- The value of the low `n` bytes of `v` is `v` modulo `256 ^ n`. -/
theorem leValue_leBytes (n v : Nat) : leValue (leBytes n v) = v % 256 ^ n := by
  induction n generalizing v with
  | zero => simp [leBytes, leValue, Nat.mod_one]
  | succ n ih =>
    rw [Nat.pow_succ', Nat.mod_mul]
    simp only [leBytes, leValue, ih, BitVec.toNat_ofNat]

/-- The bytes of the value of a list are the list. -/
theorem leBytes_leValue (bs : List Byte) : leBytes bs.length (leValue bs) = bs := by
  induction bs with
  | nil => rfl
  | cons b bs ih =>
    have hb : b.toNat < 256 := b.isLt
    simp only [List.length_cons, leBytes, leValue]
    have h1 : (b.toNat + 256 * leValue bs) / 256 = leValue bs := by omega
    rw [h1, ih]
    congr 1
    apply BitVec.eq_of_toNat_eq
    simp only [BitVec.toNat_ofNat]
    omega

end Sys2Proof.Machine
end

