-- ==== Sys2Proof/Laws/State.lean ====
section
/-! SUPPORT. The small lemmas of the register file and of every state update: one per field and update, so that no later proof
unfolds a record update. -/

namespace Sys2Proof.Machine

-- ---------------------------------------------------------------- register file

@[simp] theorem RegFile.get_set_self (r : RegFile) (i : RegId) (v : Word) : (r.set i v).get i = v := by
  cases i <;> rfl

@[simp] theorem RegFile.get_set_of_ne (r : RegFile) {i j : RegId} (v : Word) (h : j ≠ i) :
    (r.set i v).get j = r.get j := by
  cases i <;> cases j <;> first | rfl | exact absurd rfl h

theorem RegFile.get_set (r : RegFile) (i j : RegId) (v : Word) :
    (r.set i v).get j = if j = i then v else r.get j := by
  by_cases h : j = i
  · subst h; simp
  · simp [h]

@[simp] theorem RegFile.set_get_self (r : RegFile) (i : RegId) : r.set i (r.get i) = r := by
  cases i <;> rfl

/-- Two register files with equal registers are equal. -/
theorem RegFile.eq_of_get {r t : RegFile} (h : ∀ i, r.get i = t.get i) : r = t := by
  cases r; cases t
  have h0 := h .ax; have h1 := h .bx; have h2 := h .cx; have h3 := h .dx
  have h4 := h .ex; have h5 := h .fx; have h6 := h .gx; have h7 := h .hx
  have h8 := h .sp; have h9 := h .bp; have h10 := h .si; have h11 := h .di
  have h12 := h .pc; have h13 := h .flags
  simp only [RegFile.get] at h0 h1 h2 h3 h4 h5 h6 h7 h8 h9 h10 h11 h12 h13
  simp only [h0, h1, h2, h3, h4, h5, h6, h7, h8, h9, h10, h11, h12, h13]

-- ---------------------------------------------------------------- setReg

@[simp] theorem State.reg_setReg_self (s : State) (i : RegId) (v : Word) : (s.setReg i v).reg i = v :=
  RegFile.get_set_self _ _ _

@[simp] theorem State.reg_setReg_of_ne (s : State) {i j : RegId} (v : Word) (h : j ≠ i) :
    (s.setReg i v).reg j = s.reg j := RegFile.get_set_of_ne _ _ h

theorem State.reg_setReg (s : State) (i j : RegId) (v : Word) :
    (s.setReg i v).reg j = if j = i then v else s.reg j := RegFile.get_set _ _ _ _

@[simp] theorem State.setReg_mem (s : State) (i : RegId) (v : Word) : (s.setReg i v).mem = s.mem := rfl
@[simp] theorem State.setReg_memSize (s : State) (i : RegId) (v : Word) : (s.setReg i v).memSize = s.memSize := rfl
@[simp] theorem State.setReg_flagIds (s : State) (i : RegId) (v : Word) : (s.setReg i v).flagIds = s.flagIds := rfl
@[simp] theorem State.setReg_driver (s : State) (i : RegId) (v : Word) : (s.setReg i v).driver = s.driver := rfl
@[simp] theorem State.setReg_faultCause (s : State) (i : RegId) (v : Word) :
    (s.setReg i v).faultCause = s.faultCause := rfl
@[simp] theorem State.setReg_faultInfo (s : State) (i : RegId) (v : Word) :
    (s.setReg i v).faultInfo = s.faultInfo := rfl
@[simp] theorem State.setReg_alreadyHalted (s : State) (i : RegId) (v : Word) :
    (s.setReg i v).alreadyHalted = s.alreadyHalted := rfl
@[simp] theorem State.setReg_draws (s : State) (i : RegId) (v : Word) : (s.setReg i v).draws = s.draws := rfl
@[simp] theorem State.setReg_reg_self (s : State) (i : RegId) : s.setReg i (s.reg i) = s := by
  cases s; simp [State.setReg, State.reg]

-- ---------------------------------------------------------------- updateFlags

@[simp] theorem State.reg_updateFlags_self (s : State) (f : Word → Word) :
    (s.updateFlags f).reg .flags = f (s.reg .flags) := State.reg_setReg_self _ _ _
@[simp] theorem State.reg_updateFlags_of_ne (s : State) (f : Word → Word) {j : RegId} (h : j ≠ .flags) :
    (s.updateFlags f).reg j = s.reg j := State.reg_setReg_of_ne _ _ h
@[simp] theorem State.updateFlags_mem (s : State) (f : Word → Word) : (s.updateFlags f).mem = s.mem := rfl
@[simp] theorem State.updateFlags_memSize (s : State) (f : Word → Word) : (s.updateFlags f).memSize = s.memSize := rfl
@[simp] theorem State.updateFlags_flagIds (s : State) (f : Word → Word) : (s.updateFlags f).flagIds = s.flagIds := rfl
@[simp] theorem State.updateFlags_driver (s : State) (f : Word → Word) : (s.updateFlags f).driver = s.driver := rfl
@[simp] theorem State.updateFlags_faultCause (s : State) (f : Word → Word) :
    (s.updateFlags f).faultCause = s.faultCause := rfl
@[simp] theorem State.updateFlags_faultInfo (s : State) (f : Word → Word) :
    (s.updateFlags f).faultInfo = s.faultInfo := rfl
@[simp] theorem State.updateFlags_alreadyHalted (s : State) (f : Word → Word) :
    (s.updateFlags f).alreadyHalted = s.alreadyHalted := rfl
@[simp] theorem State.updateFlags_draws (s : State) (f : Word → Word) : (s.updateFlags f).draws = s.draws := rfl

-- ---------------------------------------------------------------- advancePc and jump

@[simp] theorem State.advancePc_pc (s : State) : s.advancePc.reg .pc = s.reg .pc + 4 := State.reg_setReg_self _ _ _
@[simp] theorem State.reg_advancePc_of_ne (s : State) {j : RegId} (h : j ≠ .pc) : s.advancePc.reg j = s.reg j :=
  State.reg_setReg_of_ne _ _ h
@[simp] theorem State.advancePc_mem (s : State) : s.advancePc.mem = s.mem := rfl
@[simp] theorem State.advancePc_memSize (s : State) : s.advancePc.memSize = s.memSize := rfl
@[simp] theorem State.advancePc_flagIds (s : State) : s.advancePc.flagIds = s.flagIds := rfl
@[simp] theorem State.advancePc_driver (s : State) : s.advancePc.driver = s.driver := rfl
@[simp] theorem State.advancePc_faultCause (s : State) : s.advancePc.faultCause = s.faultCause := rfl
@[simp] theorem State.advancePc_faultInfo (s : State) : s.advancePc.faultInfo = s.faultInfo := rfl
@[simp] theorem State.advancePc_alreadyHalted (s : State) : s.advancePc.alreadyHalted = s.alreadyHalted := rfl
@[simp] theorem State.advancePc_draws (s : State) : s.advancePc.draws = s.draws := rfl

@[simp] theorem State.jump_pc (s : State) (t : Word) : (s.jump t).reg .pc = t := State.reg_setReg_self _ _ _
@[simp] theorem State.reg_jump_of_ne (s : State) (t : Word) {j : RegId} (h : j ≠ .pc) :
    (s.jump t).reg j = s.reg j := State.reg_setReg_of_ne _ _ h
@[simp] theorem State.jump_mem (s : State) (t : Word) : (s.jump t).mem = s.mem := rfl
@[simp] theorem State.jump_memSize (s : State) (t : Word) : (s.jump t).memSize = s.memSize := rfl
@[simp] theorem State.jump_flagIds (s : State) (t : Word) : (s.jump t).flagIds = s.flagIds := rfl
@[simp] theorem State.jump_driver (s : State) (t : Word) : (s.jump t).driver = s.driver := rfl
@[simp] theorem State.jump_faultCause (s : State) (t : Word) : (s.jump t).faultCause = s.faultCause := rfl
@[simp] theorem State.jump_faultInfo (s : State) (t : Word) : (s.jump t).faultInfo = s.faultInfo := rfl
@[simp] theorem State.jump_alreadyHalted (s : State) (t : Word) : (s.jump t).alreadyHalted = s.alreadyHalted := rfl
@[simp] theorem State.jump_draws (s : State) (t : Word) : (s.jump t).draws = s.draws := rfl

-- ---------------------------------------------------------------- takeFault

@[simp] theorem State.reg_takeFault (s : State) (f : Fault) (j : RegId) : (s.takeFault f).reg j = s.reg j := rfl
@[simp] theorem State.takeFault_regs (s : State) (f : Fault) : (s.takeFault f).regs = s.regs := rfl
@[simp] theorem State.takeFault_mem (s : State) (f : Fault) : (s.takeFault f).mem = s.mem := rfl
@[simp] theorem State.takeFault_memSize (s : State) (f : Fault) : (s.takeFault f).memSize = s.memSize := rfl
@[simp] theorem State.takeFault_flagIds (s : State) (f : Fault) : (s.takeFault f).flagIds = s.flagIds := rfl
@[simp] theorem State.takeFault_driver (s : State) (f : Fault) : (s.takeFault f).driver = .faulted := rfl
@[simp] theorem State.takeFault_faultCause (s : State) (f : Fault) : (s.takeFault f).faultCause = f.cause := rfl
@[simp] theorem State.takeFault_faultInfo (s : State) (f : Fault) : (s.takeFault f).faultInfo = f.info := rfl
@[simp] theorem State.takeFault_alreadyHalted (s : State) (f : Fault) :
    (s.takeFault f).alreadyHalted = s.alreadyHalted := rfl
@[simp] theorem State.takeFault_draws (s : State) (f : Fault) : (s.takeFault f).draws = s.draws := rfl

/-- Two states with equal fields are equal; the registers are compared one by one. -/
theorem State.eq_of_fields {s t : State} (hr : ∀ i, s.reg i = t.reg i) (hm : s.mem = t.mem)
    (hz : s.memSize = t.memSize) (hf : s.flagIds = t.flagIds) (hd : s.driver = t.driver)
    (hc : s.faultCause = t.faultCause) (hi : s.faultInfo = t.faultInfo)
    (ha : s.alreadyHalted = t.alreadyHalted) (hn : s.draws = t.draws) : s = t := by
  have hregs : s.regs = t.regs := RegFile.eq_of_get hr
  cases s; cases t
  simp only at hregs hm hz hf hd hc hi ha hn
  simp only [hregs, hm, hz, hf, hd, hc, hi, ha, hn]

end Sys2Proof.Machine
end

