-- ==== Sys2Proof/Laws/Ops.lean ====
section
/-! SUPPORT. One lemma per shared operation that says once everything it can do: memory accesses, push and pop, the float
result, and the five cases of a step. Proofs cite these instead of unfolding the operations. -/

namespace Sys2Proof.Machine

-- ---------------------------------------------------------------- memory accesses

theorem State.inBounds_iff (s : State) (addr : Word) (n : Nat) :
    s.inBounds addr n = true ↔ addr.toNat + n ≤ s.memSize.bytes := by simp [State.inBounds]

/-- A word read answers exactly inside memory, with the little-endian value of the four bytes (R51, R52). -/
theorem State.readWord_eq_some_iff (s : State) (addr v : Word) : s.readWord addr = some v ↔
    addr.toNat + 4 ≤ s.memSize.bytes ∧ v = BitVec.ofNat 32 (leValue (s.mem.readBytes addr.toNat 4)) := by
  unfold State.readWord State.memRead
  by_cases h : s.inBounds addr 4
  · rw [if_pos h]
    rw [State.inBounds_iff] at h
    constructor
    · intro e; exact ⟨h, (Option.some.inj e).symm⟩
    · rintro ⟨-, rfl⟩; rfl
  · rw [if_neg h]
    rw [State.inBounds_iff] at h
    constructor
    · intro e; cases e
    · rintro ⟨h', -⟩; exact absurd h' h

theorem State.readWord_eq_none_iff (s : State) (addr : Word) :
    s.readWord addr = none ↔ s.memSize.bytes < addr.toNat + 4 := by
  unfold State.readWord State.memRead
  by_cases h : s.inBounds addr 4
  · rw [if_pos h]
    rw [State.inBounds_iff] at h
    constructor
    · intro e; cases e
    · intro h'; omega
  · rw [if_neg h]
    rw [State.inBounds_iff] at h
    exact ⟨fun _ => by omega, fun _ => rfl⟩

/-- A word write answers exactly inside memory; only memory changes (R53). -/
theorem State.writeWord_eq_some_iff (s t : State) (addr v : Word) : s.writeWord addr v = some t ↔
    addr.toNat + 4 ≤ s.memSize.bytes ∧
      t = { s with mem := s.mem.writeBytes addr.toNat (leBytes 4 v.toNat) } := by
  unfold State.writeWord State.memWrite
  by_cases h : s.inBounds addr 4
  · rw [if_pos h]
    rw [State.inBounds_iff] at h
    constructor
    · intro e; exact ⟨h, (Option.some.inj e).symm⟩
    · rintro ⟨-, rfl⟩; rfl
  · rw [if_neg h]
    rw [State.inBounds_iff] at h
    constructor
    · intro e; cases e
    · rintro ⟨h', -⟩; exact absurd h' h

theorem State.writeWord_eq_none_iff (s : State) (addr v : Word) :
    s.writeWord addr v = none ↔ s.memSize.bytes < addr.toNat + 4 := by
  unfold State.writeWord State.memWrite
  by_cases h : s.inBounds addr 4
  · rw [if_pos h]
    rw [State.inBounds_iff] at h
    constructor
    · intro e; cases e
    · intro h'; omega
  · rw [if_neg h]
    rw [State.inBounds_iff] at h
    exact ⟨fun _ => by omega, fun _ => rfl⟩

/-- The memory after reset has the canonical form. -/
theorem State.reset_mem_wf : State.reset.mem.wf = true := rfl

/-- The float accessors move the bytes of the 32-bit ones (R56). -/
theorem State.readFloat_eq_some_iff (s : State) (addr : Word) (f : Binary32) :
    s.readFloat addr = some f ↔ s.readWord addr = some f.bits := by
  unfold State.readFloat
  constructor
  · intro h
    obtain ⟨v, hv, rfl⟩ := Option.map_eq_some_iff.1 h
    rw [hv, bits_binary32]
  · intro h
    rw [h, Option.map_some, binary32_bits]

theorem State.writeFloat_eq_some_iff (s t : State) (addr : Word) (f : Binary32) :
    s.writeFloat addr f = some t ↔ addr.toNat + 4 ≤ s.memSize.bytes ∧
      t = { s with mem := s.mem.writeBytes addr.toNat (leBytes 4 f.bits.toNat) } :=
  State.writeWord_eq_some_iff s t addr f.bits

/-- A write of any width keeps the canonical form. -/
theorem State.memWrite_wf {s t : State} {addr v : Word} {n : Nat} (hw : s.mem.wf = true)
    (h : s.memWrite addr n v = some t) : t.mem.wf = true := by
  unfold State.memWrite at h
  split at h
  · cases h; exact Memory.wf_writeBytes _ _ hw
  · cases h

/-- The memory of a loaded image has the canonical form. -/
theorem imageMemory_wf (q : LoadRequest) : (imageMemory q).wf = true :=
  Memory.wf_writeBytes _ _ (Memory.wf_writeBytes _ _ rfl)

-- ---------------------------------------------------------------- push and pop

/-- A push answers exactly where the store at `x[SP] - 4` is inside memory; it writes those four bytes and SP (R142). -/
theorem State.push_eq_some_iff (s t : State) (v : Word) : s.push v = some t ↔
    s.pushAddr.toNat + 4 ≤ s.memSize.bytes ∧
      t = { s with mem := s.mem.writeBytes s.pushAddr.toNat (leBytes 4 v.toNat)
                   regs := s.regs.set .sp s.pushAddr } := by
  unfold State.push
  cases h : s.writeWord s.pushAddr v with
  | none =>
    rw [State.writeWord_eq_none_iff] at h
    constructor
    · intro e; cases e
    · rintro ⟨h', -⟩; omega
  | some u =>
    rw [State.writeWord_eq_some_iff] at h
    obtain ⟨h1, rfl⟩ := h
    constructor
    · intro e; exact ⟨h1, (Option.some.inj e).symm⟩
    · rintro ⟨-, rfl⟩; rfl

theorem State.push_eq_none_iff (s : State) (v : Word) :
    s.push v = none ↔ s.memSize.bytes < s.pushAddr.toNat + 4 := by
  unfold State.push
  cases h : s.writeWord s.pushAddr v with
  | none => exact ⟨fun _ => (State.writeWord_eq_none_iff _ _ _).1 h, fun _ => rfl⟩
  | some u =>
    have := ((State.writeWord_eq_some_iff _ _ _ _).1 h).1
    constructor
    · intro e; cases e
    · intro h'; omega

/-- A pop answers exactly where the word at `x[SP]` is inside memory; it writes SP alone (R142). -/
theorem State.pop_eq_some_iff (s t : State) (v : Word) : s.pop = some (v, t) ↔
    (s.reg .sp).toNat + 4 ≤ s.memSize.bytes ∧
      v = BitVec.ofNat 32 (leValue (s.mem.readBytes (s.reg .sp).toNat 4)) ∧
      t = s.setReg .sp (s.reg .sp + 4) := by
  unfold State.pop
  cases h : s.readWord (s.reg .sp) with
  | none =>
    rw [State.readWord_eq_none_iff] at h
    constructor
    · intro e; cases e
    · rintro ⟨h', -⟩; omega
  | some u =>
    rw [State.readWord_eq_some_iff] at h
    obtain ⟨h1, rfl⟩ := h
    constructor
    · intro e
      simp only [Option.some.injEq, Prod.mk.injEq] at e
      exact ⟨h1, e.1.symm, e.2.symm⟩
    · rintro ⟨-, rfl, rfl⟩; rfl

theorem State.pop_eq_none_iff (s : State) : s.pop = none ↔ s.memSize.bytes < (s.reg .sp).toNat + 4 := by
  unfold State.pop
  cases h : s.readWord (s.reg .sp) with
  | none => exact ⟨fun _ => (State.readWord_eq_none_iff _ _).1 h, fun _ => rfl⟩
  | some u =>
    have := ((State.readWord_eq_some_iff _ _ _).1 h).1
    constructor
    · intro e; cases e
    · intro h'; omega

-- ---------------------------------------------------------------- the float result

/-- The pattern of a float result: the computed one, or a draw that counts itself (R154). -/
theorem State.floatBits_cases (s : State) (op : FloatOp) (a b : Word) (r : FloatResult) :
    (∃ v, r = .num v ∧ s.floatBits op a b r = (v, s)) ∨
    (r = .nan ∧ s.floatBits op a b r =
      (nanPattern (Config.nanDraw s.draws op a b), { s with draws := s.draws + 1 })) := by
  cases r with
  | num v => exact .inl ⟨v, rfl, rfl⟩
  | nan => exact .inr ⟨rfl, rfl⟩

-- ---------------------------------------------------------------- the step

/-- The five cases of a step (R81, R290, R291). -/
theorem step_cases (s : State) :
    (s.driver = .halted ∧ step s = .next { s with alreadyHalted := true }) ∨
    (s.driver = .faulted ∧ step s = .next s) ∨
    (s.driver = .ready ∧ s.fetch = none ∧ step s = .next (s.takeFault (.outOfBounds (s.reg .pc)))) ∨
    (∃ iw r, s.driver = .ready ∧ s.fetch = some iw ∧ decode s.flagIds iw = .error r ∧
      step s = .next (s.advancePc.takeFault (Reject.fault r))) ∨
    (∃ iw i, s.driver = .ready ∧ s.fetch = some iw ∧ decode s.flagIds iw = .ok i ∧
      step s = exec i s.advancePc) := by
  have hd : s.driver = .halted ∨ s.driver = .faulted ∨ s.driver = .ready := by cases s.driver <;> simp
  rcases hd with hd | hd | hd
  · exact .inl ⟨hd, by simp only [step, hd, haltedStep]⟩
  · exact .inr (.inl ⟨hd, by simp only [step, hd, faultedStep]⟩)
  · cases hf : s.fetch with
    | none => exact .inr (.inr (.inl ⟨hd, rfl, by simp only [step, hd, hf, fetchFault, raise]⟩))
    | some iw =>
      cases hi : decode s.flagIds iw with
      | error r =>
        exact .inr (.inr (.inr (.inl ⟨iw, r, hd, rfl, hi, by simp only [step, hd, hf, hi, rejectFault, raise]⟩)))
      | ok i => exact .inr (.inr (.inr (.inr ⟨iw, i, hd, rfl, hi, by simp only [step, hd, hf, hi]⟩)))

end Sys2Proof.Machine
end

