-- ==== Sys2Proof/Laws/Exec.lean ====
section
/-! SUPPORT. What every instruction can do, said once over all constructors of `Instr`, and the words that four bytes of memory
hold. Proofs about `step` and `exec` cite these instead of unfolding the meanings. -/

namespace Sys2Proof.Machine

-- ---------------------------------------------------------------- words in memory

/-- The little-endian value of four bytes is the word they make. -/
theorem wordAt_eq (m : Memory) (a : Nat) : BitVec.ofNat 32 (leValue (m.readBytes a 4)) = wordAt m a := by
  apply BitVec.eq_of_toNat_eq
  simp only [wordAt, Memory.readBytes, leValue, BitVec.toNat_ofNat, BitVec.toNat_append]
  have h0 := (m.readByte a).isLt
  have h1 := (m.readByte (a + 1)).isLt
  have h2 := (m.readByte (a + 1 + 1)).isLt
  have h3 := (m.readByte (a + 1 + 1 + 1)).isLt
  rw [show a + 3 = a + 1 + 1 + 1 by omega, show a + 2 = a + 1 + 1 by omega,
    ← Nat.shiftLeft_add_eq_or_of_lt h2, ← Nat.shiftLeft_add_eq_or_of_lt h1, ← Nat.shiftLeft_add_eq_or_of_lt h0]
  simp only [Nat.shiftLeft_eq]
  omega

/-- A word written to a canonical memory stands there. -/
theorem holdsWord_writeBytes {m : Memory} (hw : m.wf) (a : Nat) (v : Word) :
    HoldsWord (m.writeBytes a (leBytes 4 v.toNat)) a v := by
  have h := Memory.readByte_writeBytes_inside (leBytes 4 v.toNat) hw a
  refine ⟨(h 0 (by simp)).trans ?_, (h 1 (by simp)).trans ?_, (h 2 (by simp)).trans ?_, (h 3 (by simp)).trans ?_⟩ <;>
    apply BitVec.eq_of_toNat_eq <;> simp [leBytes, Nat.shiftRight_eq_div_pow, Nat.div_div_eq_div_mul]

-- ---------------------------------------------------------------- all instructions

/-- What an instruction that raises no fault leaves behind: its data access was inside memory, only the registers of
`regsWritten` changed, memory changed at most by a word at `storeAddr`, and of the rest only HALT changes the driver. -/
structure Completed (i : Instr) (s t : State) : Prop where
  access : ∀ a, dataAddr i s = some a → a.toNat + 4 ≤ s.memSize.bytes
  regs : s.SameRegsBut t (regsWritten i)
  mem : (storeAddr i s = none ∧ t.mem = s.mem) ∨
    ∃ a v, storeAddr i s = some a ∧ t.mem = s.mem.writeBytes a.toNat (leBytes 4 v)
  memSize : t.memSize = s.memSize
  flagIds : t.flagIds = s.flagIds
  faultCause : t.faultCause = s.faultCause
  faultInfo : t.faultInfo = s.faultInfo
  alreadyHalted : t.alreadyHalted = s.alreadyHalted
  driver : t.driver = if i = .halt then .halted else s.driver

/-- The fault of an instruction: its data access reaches past the end of memory and only the fault is taken. -/
def FaultsAt (i : Instr) (s : State) : Prop :=
  ∃ a, dataAddr i s = some a ∧ s.memSize.bytes < a.toNat + 4 ∧ exec i s = .next (s.takeFault (.outOfBounds a))

theorem storeAt_cases {i : Instr} {s : State} {a v : Word} (he : exec i s = storeAt a v s)
    (ha : dataAddr i s = some a) (hs : storeAddr i s = some a) (hi : i ≠ .halt) :
    FaultsAt i s ∨ ∃ t, exec i s = .next t ∧ Completed i s t := by
  rw [he, FaultsAt, he]
  unfold storeAt
  cases h : s.writeWord a v with
  | none => exact .inl ⟨a, ha, (State.writeWord_eq_none_iff _ _ _).1 h, rfl⟩
  | some t =>
    obtain ⟨h1, rfl⟩ := (State.writeWord_eq_some_iff _ _ _ _).1 h
    exact .inr ⟨_, rfl, fun b hb => by rw [ha] at hb; cases hb; exact h1, fun _ _ => rfl, .inr ⟨a, _, hs, rfl⟩,
      rfl, rfl, rfl, rfl, rfl, by simp [hi]⟩

theorem pushValue_cases {i : Instr} {s : State} {v : Word} (he : exec i s = pushValue v s)
    (ha : dataAddr i s = some s.pushAddr) (hs : storeAddr i s = some s.pushAddr) (hr : RegId.sp ∈ regsWritten i)
    (hi : i ≠ .halt) : FaultsAt i s ∨ ∃ t, exec i s = .next t ∧ Completed i s t := by
  rw [he, FaultsAt, he]
  unfold pushValue
  cases h : s.push v with
  | none => exact .inl ⟨_, ha, (State.push_eq_none_iff _ _).1 h, rfl⟩
  | some t =>
    obtain ⟨h1, rfl⟩ := (State.push_eq_some_iff _ _ _).1 h
    refine .inr ⟨_, rfl, fun b hb => by rw [ha] at hb; cases hb; exact h1, fun r hn => ?_, .inr ⟨_, _, hs, rfl⟩,
      rfl, rfl, rfl, rfl, rfl, by simp [hi]⟩
    exact RegFile.get_set_of_ne _ _ (fun e => hn (e ▸ hr))

theorem jumpIf_completed {i : Instr} {s : State} {c : Condition} {x : BitVec 24} (he : exec i s = jumpIf c x s)
    (ha : dataAddr i s = none) (hs : storeAddr i s = none) (hr : RegId.pc ∈ regsWritten i) (hi : i ≠ .halt) :
    ∃ t, exec i s = .next t ∧ Completed i s t := by
  rw [he]
  refine ⟨_, rfl, by simp [ha], fun r hn => ?_, .inl ⟨hs, ?_⟩, ?_, ?_, ?_, ?_, ?_, by rw [if_neg hi]; split <;> rfl⟩
  · split
    · exact State.reg_jump_of_ne _ _ (fun e => hn (e ▸ hr))
    · rfl
  · split <;> rfl
  · split <;> rfl
  · split <;> rfl
  · split <;> rfl
  · split <;> rfl
  · split <;> rfl

theorem floatInto_completed {i : Instr} {s : State} {op : FloatOp} {d : RegId} {b : Word}
    (he : exec i s = floatInto op d b s) (ha : dataAddr i s = none) (hs : storeAddr i s = none)
    (hr : regsWritten i = [d, .flags]) (hi : i ≠ .halt) : ∃ t, exec i s = .next t ∧ Completed i s t := by
  rw [he]
  unfold floatInto
  rcases State.floatBits_cases s op (s.reg d) b (floatCompute op (s.reg d) b) with ⟨v, _, h⟩ | ⟨_, h⟩ <;> rw [h] <;>
  · refine ⟨_, rfl, by simp [ha], fun r hn => ?_, .inl ⟨hs, rfl⟩, rfl, rfl, rfl, rfl, rfl, by simp [hi, floatWrite]⟩
    simp only [hr, List.mem_cons, List.not_mem_nil, or_false, not_or] at hn
    rw [floatWrite, State.reg_updateFlags_of_ne _ _ hn.2, State.reg_setReg_of_ne _ _ hn.1]
    try rfl

theorem pop_cases {i : Instr} {s : State} {d : RegId}
    (he : exec i s =
      match s.pop with | some (v, t) => .next (t.setReg d v) | none => raise (.outOfBounds (s.reg .sp)) s)
    (ha : dataAddr i s = some (s.reg .sp)) (hs : storeAddr i s = none) (hd : d ∈ regsWritten i)
    (hr : RegId.sp ∈ regsWritten i) (hi : i ≠ .halt) : FaultsAt i s ∨ ∃ t, exec i s = .next t ∧ Completed i s t := by
  rw [he, FaultsAt, he]
  cases h : s.pop with
  | none => exact .inl ⟨_, ha, (State.pop_eq_none_iff _).1 h, rfl⟩
  | some p =>
    obtain ⟨v, t⟩ := p
    obtain ⟨h1, -, rfl⟩ := (State.pop_eq_some_iff _ _ _).1 h
    refine .inr ⟨_, rfl, fun b hb => by rw [ha] at hb; cases hb; exact h1, fun r hn => ?_, .inl ⟨hs, rfl⟩,
      rfl, rfl, rfl, rfl, rfl, by simp [hi]⟩
    have h2 : r ≠ d := fun e => hn (e ▸ hd)
    have h3 : r ≠ .sp := fun e => hn (e ▸ hr)
    rw [State.reg_setReg_of_ne _ _ h2, State.reg_setReg_of_ne _ _ h3]

/-- Everything an instruction can do in the fields other than the bits of FLAGS and the counter of draws. -/
theorem exec_cases (i : Instr) (s : State) : FaultsAt i s ∨ ∃ t, exec i s = .next t ∧ Completed i s t := by
  cases i
  case stri | strwR | strwI => exact storeAt_cases rfl rfl rfl (by simp)
  case pushR | pushI => exact pushValue_cases rfl rfl rfl (by simp [regsWritten, impliedRegs]) (by simp)
  case pop d =>
    exact pop_cases (d := d) rfl rfl rfl (by simp [regsWritten, destRegs]) (by simp [regsWritten, impliedRegs]) (by simp)
  case ret =>
    exact pop_cases (d := .pc) rfl rfl rfl (by simp [regsWritten, impliedRegs]) (by simp [regsWritten, impliedRegs])
      (by simp)
  case lodw d a =>
    simp only [FaultsAt, exec, execLodw, loadTo]
    cases h : s.readWord (addr16Operand a) with
    | none => exact .inl ⟨_, rfl, (State.readWord_eq_none_iff _ _).1 h, rfl⟩
    | some v =>
      refine .inr ⟨_, rfl, fun b hb => by cases hb; exact ((State.readWord_eq_some_iff _ _ _).1 h).1,
        fun r hr => ?_, .inl ⟨rfl, rfl⟩, rfl, rfl, rfl, rfl, rfl, by simp [State.setReg]⟩
      simp [regsWritten, destRegs, impliedRegs] at hr
      simp [hr]
  case call x =>
    simp only [FaultsAt, exec, execCall]
    cases h : s.push (s.reg .pc) with
    | none => exact .inl ⟨_, rfl, (State.push_eq_none_iff _ _).1 h, rfl⟩
    | some t =>
      obtain ⟨h1, rfl⟩ := (State.push_eq_some_iff _ _ _).1 h
      refine .inr ⟨_, rfl, fun b hb => by cases hb; exact h1, fun r hr => ?_, .inr ⟨_, _, rfl, rfl⟩,
        rfl, rfl, rfl, rfl, rfl, by simp⟩
      simp [regsWritten, destRegs, impliedRegs] at hr
      rw [State.reg_jump_of_ne _ _ hr.2]
      exact RegFile.get_set_of_ne _ _ hr.1
  all_goals right
  case je | jne | jgt | jge | jlt | jle | js | jco =>
    exact jumpIf_completed rfl rfl rfl (by simp [regsWritten, impliedRegs]) (by simp)
  case addwR | addwI | subwR | subwI | mulR | mulI | inc | dec => exact floatInto_completed rfl rfl rfl rfl (by simp)
  case halt => exact ⟨_, rfl, by simp [dataAddr], fun _ _ => rfl, .inl ⟨rfl, rfl⟩, rfl, rfl, rfl, rfl, rfl, rfl⟩
  all_goals
    refine ⟨_, rfl, by simp [dataAddr], fun r hr => ?_, .inl ⟨rfl, rfl⟩, rfl, rfl, rfl, rfl, rfl, rfl⟩
    simp [regsWritten, destRegs, impliedRegs] at hr
    simp [hr, floatWrite]

end Sys2Proof.Machine
end

