-- ==== Sys2Proof/Laws/Flags.lean ====
section
/-! SUPPORT. The laws of the flags unit: reading a flag after one is put, the bits that an update leaves alone. -/

namespace Sys2Proof.Machine

theorem Flag.bit_lt (f : Flag) : f.bit < 32 := by cases f <;> decide

/-- The seven flags have seven bit positions. -/
theorem Flag.bit_injective {f g : Flag} (h : f.bit = g.bit) : f = g := by
  cases f <;> cases g <;> first | rfl | exact absurd h (by decide)

theorem getLsbD_flagMask (f : Flag) (i : Nat) : (flagMask f).getLsbD i = decide (i = f.bit) := by
  by_cases hi : i < 32
  · have h : ∀ g : Flag, ∀ j : Fin 32, (flagMask g).getLsbD j.val = decide (j.val = g.bit) := by
      intro g; cases g <;> decide
    exact h f ⟨i, hi⟩
  · have hne : i ≠ f.bit := by have := Flag.bit_lt f; omega
    simp [BitVec.getLsbD_of_ge _ _ (Nat.le_of_not_lt hi), hne]

/-- The bits of a FLAGS word after one flag is put: its own bit is the value, every other bit is kept (R28). -/
theorem getLsbD_putFlag (f : Flag) (v : Bool) (w : Word) (i : Nat) :
    (putFlag f v w).getLsbD i = if i = f.bit then v else w.getLsbD i := by
  have hf := Flag.bit_lt f
  by_cases hi : i = f.bit
  · subst hi
    cases v <;> simp [putFlag, getLsbD_flagMask, hf]
  · cases v
    · by_cases h32 : i < 32
      · simp only [putFlag, Bool.false_eq_true, if_false, BitVec.getLsbD_and, BitVec.getLsbD_not, getLsbD_flagMask]
        simp [hi, h32]
      · simp [putFlag, hi, BitVec.getLsbD_of_ge _ _ (Nat.le_of_not_lt h32)]
    · simp [putFlag, getLsbD_flagMask, hi]

@[simp] theorem getFlag_putFlag_self (f : Flag) (v : Bool) (w : Word) : getFlag f (putFlag f v w) = v := by
  simp [getFlag, getLsbD_putFlag]

@[simp] theorem getFlag_putFlag_of_ne {f g : Flag} (v : Bool) (w : Word) (h : g ≠ f) :
    getFlag g (putFlag f v w) = getFlag g w := by
  have : g.bit ≠ f.bit := fun e => h (Flag.bit_injective e)
  simp [getFlag, getLsbD_putFlag, this]

theorem getLsbD_zeroSignFlags (r w : Word) (i : Nat) : (zeroSignFlags r w).getLsbD i =
    if i = 7 then r.msb else if i = 6 then decide (r = 0) else w.getLsbD i := by
  simp only [zeroSignFlags, getLsbD_putFlag]
  rfl

theorem getLsbD_floatFlags (r w : Word) (i : Nat) : (floatFlags r w).getLsbD i =
    if i = 11 then false else if i = 0 then false else if i = 7 then floatIsNegative r
    else if i = 6 then floatIsZero r else w.getLsbD i := by
  simp only [floatFlags, getLsbD_putFlag]
  rfl

theorem getLsbD_logicFlags (op : LogicOp) (a : Word) (b : Option Word) (r w : Word) (i : Nat) :
    (logicFlags op a b r w).getLsbD i =
    if i = 11 then (Config.logicCO op a b r).2 else if i = 0 then (Config.logicCO op a b r).1
    else if i = 7 then r.msb else if i = 6 then decide (r = 0) else w.getLsbD i := by
  simp only [logicFlags, getLsbD_putFlag, getLsbD_zeroSignFlags]
  rfl

theorem getLsbD_compareFlags (a b w : Word) (i : Nat) : (compareFlags a b w).getLsbD i =
    if i = 11 then subOverflow a b else if i = 0 then subBorrow a b
    else if i = 7 then (a - b).msb else if i = 6 then decide (a - b = 0) else w.getLsbD i := by
  simp only [compareFlags, getLsbD_putFlag, getLsbD_zeroSignFlags]
  rfl

end Sys2Proof.Machine
end

