-- ==== Sys2Proof/Laws/PerInstr.lean ====
section
/-! SUPPORT. One lemma per instruction: its canonical word matches its row of spec/opcode_table.json, the opcode byte and, where
the row has one, the mode bit (R86, R90, R105). The masks and patterns are the rows' own `0` and `1` positions. -/

namespace Sys2Proof.Laws.EncodesRow

/-- The fixed bits of the instruction's row and their values. -/
def row (i : Instr) : Word × Word :=
  match i with
  | .movi _ _ => (0xFF000000, 0x01000000)
  | .movwR _ _ => (0xFF000001, 0x02000001)
  | .movwI _ _ => (0xFF000001, 0x02000000)
  | .lodi _ _ => (0xFF000000, 0x03000000)
  | .lodw _ _ => (0xFF000000, 0x04000000)
  | .stri _ _ => (0xFF000000, 0x05000000)
  | .strwR _ _ => (0xFF000001, 0x06000001)
  | .strwI _ _ => (0xFF000001, 0x06000000)
  | .pushR _ => (0xFF000001, 0x07000001)
  | .pushI _ => (0xFF000001, 0x07000000)
  | .pop _ => (0xFF000000, 0x08000000)
  | .xcgh _ _ => (0xFF000000, 0x09000000)
  | .addwR _ _ => (0xFF000001, 0x10000001)
  | .addwI _ _ => (0xFF000001, 0x10000000)
  | .subwR _ _ => (0xFF000001, 0x11000001)
  | .subwI _ _ => (0xFF000001, 0x11000000)
  | .mulR _ _ => (0xFF000001, 0x12000001)
  | .mulI _ _ => (0xFF000001, 0x12000000)
  | .inc _ => (0xFF000000, 0x13000000)
  | .dec _ => (0xFF000000, 0x14000000)
  | .neg _ => (0xFF000000, 0x15000000)
  | .not _ => (0xFF000000, 0x20000000)
  | .andR _ _ => (0xFF000001, 0x21000001)
  | .andI _ _ => (0xFF000001, 0x21000000)
  | .orR _ _ => (0xFF000001, 0x22000001)
  | .orI _ _ => (0xFF000001, 0x22000000)
  | .xorR _ _ => (0xFF000001, 0x23000001)
  | .xorI _ _ => (0xFF000001, 0x23000000)
  | .cmpwR _ _ => (0xFF000001, 0x30000001)
  | .cmpwI _ _ => (0xFF000001, 0x30000000)
  | .jmp _ => (0xFF000000, 0x40000000)
  | .call _ => (0xFF000000, 0x41000000)
  | .ret => (0xFF000000, 0x42000000)
  | .je _ => (0xFF000000, 0x43000000)
  | .jne _ => (0xFF000000, 0x44000000)
  | .jgt _ => (0xFF000000, 0x45000000)
  | .jge _ => (0xFF000000, 0x46000000)
  | .jlt _ => (0xFF000000, 0x47000000)
  | .jle _ => (0xFF000000, 0x48000000)
  | .js _ => (0xFF000000, 0x49000000)
  | .jco _ => (0xFF000000, 0x4A000000)
  | .setf _ => (0xFF000000, 0x60000000)
  | .clrf _ => (0xFF000000, 0x61000000)
  | .halt => (0xFF000000, 0xFF000000)

/-- Every word that encodes the instruction has the fixed bits of its row. -/
def Statement (i : Instr) : Prop := ∀ (m : FlagIdMap) (w : Word), encode m i = some w → w &&& (row i).1 = (row i).2

/-- A word under a mask of the opcode byte and bit 0 is known from its opcode and its mode bit. -/
theorem masked_eq {w : Word} {op : Byte} {b : Bool} (ho : opcodeField w = op) (hb : modeBit w = b) :
    w &&& 0xFF000001 = op ++ (0 : BitVec 23) ++ BitVec.ofBool b := by
  subst ho; subst hb
  apply BitVec.eq_of_getLsbD_eq; intro i hi
  have hm : ∀ j : Fin 32, (0xFF000001 : Word).getLsbD j.val = decide (j.val = 0 ∨ 24 ≤ j.val) := by decide
  have hm := hm ⟨i, hi⟩
  simp only at hm
  simp only [BitVec.getLsbD_and, hm, BitVec.getLsbD_append, opcodeField, modeBit, BitVec.getLsbD_extractLsb']
  by_cases h0 : i = 0
  · subst h0; simp
  · by_cases h1 : i < 24
    · have : i - 1 < 23 := by omega
      simp [h0, show ¬ 24 ≤ i by omega, show ¬ i < 1 by omega, this]
    · simp [h0, show 24 ≤ i by omega, show ¬ i < 1 by omega, show ¬ i - 1 < 23 by omega, show i - 1 - 23 < 8 by omega,
        show 24 + (i - 1 - 23) = i by omega]

/-- A word under a mask of the opcode byte is known from its opcode. -/
theorem opcode_masked_eq {w : Word} {op : Byte} (ho : opcodeField w = op) : w &&& 0xFF000000 = op ++ (0 : BitVec 24) := by
  have h : (0xFF000000 : Word) = 0xFF000001 &&& 0xFF000000 := by decide
  rw [h, ← BitVec.and_assoc, masked_eq ho rfl]
  clear ho
  cases modeBit w <;> (revert op; decide +kernel)

theorem movi (d : RegId) (imm : BitVec 16) : Statement (.movi d imm) := by
  intro m w h
  cases h
  exact opcode_masked_eq (opcodeField_packImm _ _ _)

theorem movwR (d : RegId) (s : RegId) : Statement (.movwR d s) := by
  intro m w h
  cases h
  exact masked_eq (opcodeField_packBytes _ _ _ _) (modeBit_packBytes _ _ _ _)

theorem movwI (d : RegId) (imm : BitVec 16) : Statement (.movwI d imm) := by
  intro m w h
  unfold encode at h
  split at h
  · rename_i hw
    cases h
    refine masked_eq (b := false) (opcodeField_packImm _ _ _) ((modeBit_packImm _ _ _).trans ?_)
    simpa [Instr.wellFormed, evenImm] using hw
  · cases h

theorem lodi (d : RegId) (imm : BitVec 16) : Statement (.lodi d imm) := by
  intro m w h
  cases h
  exact opcode_masked_eq (opcodeField_packImm _ _ _)

theorem lodw (d : RegId) (addr : BitVec 16) : Statement (.lodw d addr) := by
  intro m w h
  cases h
  exact opcode_masked_eq (opcodeField_packImm _ _ _)

theorem stri (addr : BitVec 8) (imm : BitVec 16) : Statement (.stri addr imm) := by
  intro m w h
  cases h
  exact opcode_masked_eq (opcodeField_packImm _ _ _)

theorem strwR (addr : BitVec 8) (s : RegId) : Statement (.strwR addr s) := by
  intro m w h
  cases h
  exact masked_eq (opcodeField_packBytes _ _ _ _) (modeBit_packBytes _ _ _ _)

theorem strwI (addr : BitVec 8) (imm : BitVec 16) : Statement (.strwI addr imm) := by
  intro m w h
  unfold encode at h
  split at h
  · rename_i hw
    cases h
    refine masked_eq (b := false) (opcodeField_packImm _ _ _) ((modeBit_packImm _ _ _).trans ?_)
    simpa [Instr.wellFormed, evenImm] using hw
  · cases h

theorem pushR (s : RegId) : Statement (.pushR s) := by
  intro m w h
  cases h
  exact masked_eq (opcodeField_packBytes _ _ _ _) (modeBit_packBytes _ _ _ _)

theorem pushI (imm : BitVec 16) : Statement (.pushI imm) := by
  intro m w h
  unfold encode at h
  split at h
  · rename_i hw
    cases h
    refine masked_eq (b := false) (opcodeField_packImm _ _ _) ((modeBit_packImm _ _ _).trans ?_)
    simpa [Instr.wellFormed, evenImm] using hw
  · cases h

theorem pop (d : RegId) : Statement (.pop d) := by
  intro m w h
  cases h
  exact opcode_masked_eq (opcodeField_packBytes _ _ _ _)

theorem xcgh (a : RegId) (b : RegId) : Statement (.xcgh a b) := by
  intro m w h
  cases h
  exact opcode_masked_eq (opcodeField_packBytes _ _ _ _)

theorem addwR (d : RegId) (s : RegId) : Statement (.addwR d s) := by
  intro m w h
  cases h
  exact masked_eq (opcodeField_packBytes _ _ _ _) (modeBit_packBytes _ _ _ _)

theorem addwI (d : RegId) (imm : BitVec 16) : Statement (.addwI d imm) := by
  intro m w h
  unfold encode at h
  split at h
  · rename_i hw
    cases h
    refine masked_eq (b := false) (opcodeField_packImm _ _ _) ((modeBit_packImm _ _ _).trans ?_)
    simpa [Instr.wellFormed, evenImm] using hw
  · cases h

theorem subwR (d : RegId) (s : RegId) : Statement (.subwR d s) := by
  intro m w h
  cases h
  exact masked_eq (opcodeField_packBytes _ _ _ _) (modeBit_packBytes _ _ _ _)

theorem subwI (d : RegId) (imm : BitVec 16) : Statement (.subwI d imm) := by
  intro m w h
  unfold encode at h
  split at h
  · rename_i hw
    cases h
    refine masked_eq (b := false) (opcodeField_packImm _ _ _) ((modeBit_packImm _ _ _).trans ?_)
    simpa [Instr.wellFormed, evenImm] using hw
  · cases h

theorem mulR (d : RegId) (s : RegId) : Statement (.mulR d s) := by
  intro m w h
  cases h
  exact masked_eq (opcodeField_packBytes _ _ _ _) (modeBit_packBytes _ _ _ _)

theorem mulI (d : RegId) (imm : BitVec 16) : Statement (.mulI d imm) := by
  intro m w h
  unfold encode at h
  split at h
  · rename_i hw
    cases h
    refine masked_eq (b := false) (opcodeField_packImm _ _ _) ((modeBit_packImm _ _ _).trans ?_)
    simpa [Instr.wellFormed, evenImm] using hw
  · cases h

theorem inc (d : RegId) : Statement (.inc d) := by
  intro m w h
  cases h
  exact opcode_masked_eq (opcodeField_packBytes _ _ _ _)

theorem dec (d : RegId) : Statement (.dec d) := by
  intro m w h
  cases h
  exact opcode_masked_eq (opcodeField_packBytes _ _ _ _)

theorem neg (d : RegId) : Statement (.neg d) := by
  intro m w h
  cases h
  exact opcode_masked_eq (opcodeField_packBytes _ _ _ _)

theorem not (d : RegId) : Statement (.not d) := by
  intro m w h
  cases h
  exact opcode_masked_eq (opcodeField_packBytes _ _ _ _)

theorem andR (d : RegId) (s : RegId) : Statement (.andR d s) := by
  intro m w h
  cases h
  exact masked_eq (opcodeField_packBytes _ _ _ _) (modeBit_packBytes _ _ _ _)

theorem andI (d : RegId) (imm : BitVec 16) : Statement (.andI d imm) := by
  intro m w h
  unfold encode at h
  split at h
  · rename_i hw
    cases h
    refine masked_eq (b := false) (opcodeField_packImm _ _ _) ((modeBit_packImm _ _ _).trans ?_)
    simpa [Instr.wellFormed, evenImm] using hw
  · cases h

theorem orR (d : RegId) (s : RegId) : Statement (.orR d s) := by
  intro m w h
  cases h
  exact masked_eq (opcodeField_packBytes _ _ _ _) (modeBit_packBytes _ _ _ _)

theorem orI (d : RegId) (imm : BitVec 16) : Statement (.orI d imm) := by
  intro m w h
  unfold encode at h
  split at h
  · rename_i hw
    cases h
    refine masked_eq (b := false) (opcodeField_packImm _ _ _) ((modeBit_packImm _ _ _).trans ?_)
    simpa [Instr.wellFormed, evenImm] using hw
  · cases h

theorem xorR (d : RegId) (s : RegId) : Statement (.xorR d s) := by
  intro m w h
  cases h
  exact masked_eq (opcodeField_packBytes _ _ _ _) (modeBit_packBytes _ _ _ _)

theorem xorI (d : RegId) (imm : BitVec 16) : Statement (.xorI d imm) := by
  intro m w h
  unfold encode at h
  split at h
  · rename_i hw
    cases h
    refine masked_eq (b := false) (opcodeField_packImm _ _ _) ((modeBit_packImm _ _ _).trans ?_)
    simpa [Instr.wellFormed, evenImm] using hw
  · cases h

theorem cmpwR (d : RegId) (s : RegId) : Statement (.cmpwR d s) := by
  intro m w h
  cases h
  exact masked_eq (opcodeField_packBytes _ _ _ _) (modeBit_packBytes _ _ _ _)

theorem cmpwI (d : RegId) (imm : BitVec 16) : Statement (.cmpwI d imm) := by
  intro m w h
  unfold encode at h
  split at h
  · rename_i hw
    cases h
    refine masked_eq (b := false) (opcodeField_packImm _ _ _) ((modeBit_packImm _ _ _).trans ?_)
    simpa [Instr.wellFormed, evenImm] using hw
  · cases h

theorem jmp (target : BitVec 24) : Statement (.jmp target) := by
  intro m w h
  cases h
  exact opcode_masked_eq (opcodeField_packTarget _ _)

theorem call (target : BitVec 24) : Statement (.call target) := by
  intro m w h
  cases h
  exact opcode_masked_eq (opcodeField_packTarget _ _)

theorem ret : Statement .ret := by
  intro m w h
  cases h
  exact opcode_masked_eq (opcodeField_packBytes _ _ _ _)

theorem je (target : BitVec 24) : Statement (.je target) := by
  intro m w h
  cases h
  exact opcode_masked_eq (opcodeField_packTarget _ _)

theorem jne (target : BitVec 24) : Statement (.jne target) := by
  intro m w h
  cases h
  exact opcode_masked_eq (opcodeField_packTarget _ _)

theorem jgt (target : BitVec 24) : Statement (.jgt target) := by
  intro m w h
  cases h
  exact opcode_masked_eq (opcodeField_packTarget _ _)

theorem jge (target : BitVec 24) : Statement (.jge target) := by
  intro m w h
  cases h
  exact opcode_masked_eq (opcodeField_packTarget _ _)

theorem jlt (target : BitVec 24) : Statement (.jlt target) := by
  intro m w h
  cases h
  exact opcode_masked_eq (opcodeField_packTarget _ _)

theorem jle (target : BitVec 24) : Statement (.jle target) := by
  intro m w h
  cases h
  exact opcode_masked_eq (opcodeField_packTarget _ _)

theorem js (target : BitVec 24) : Statement (.js target) := by
  intro m w h
  cases h
  exact opcode_masked_eq (opcodeField_packTarget _ _)

theorem jco (target : BitVec 24) : Statement (.jco target) := by
  intro m w h
  cases h
  exact opcode_masked_eq (opcodeField_packTarget _ _)

theorem setf (f : Flag) : Statement (.setf f) := by
  intro m w h
  exact opcode_masked_eq (packFlag_eq_some (by simpa [encode, Instr.wellFormed] using h)).1

theorem clrf (f : Flag) : Statement (.clrf f) := by
  intro m w h
  exact opcode_masked_eq (packFlag_eq_some (by simpa [encode, Instr.wellFormed] using h)).1

theorem halt : Statement .halt := by
  intro m w h
  cases h
  exact opcode_masked_eq (opcodeField_packBytes _ _ _ _)

end Sys2Proof.Laws.EncodesRow
end

