-- ==== Sys2Proof/Tests/Slice0.lean ====
section
/-! SUPPORT. The model's own tests. The smoke test of WellFormed; the decoding of words written out from the tables of
30_encoding.md and 95_test_vectors.md, every constructor once; at most two one-step vectors of 95_test_vectors.md per
instruction; and one witness for the hypotheses of every statement. -/

namespace Sys2Proof.Tests

open Sys2Proof.Machine

-- ================================================================ WellFormed: one ill-formed term per check

/-- An odd immediate has no encoding in a format with a mode bit (30_encoding.md R90). -/
theorem test_ill_formed_terms_are_refused :
    Instr.wellFormed (.movwI .ax 1) = false ∧ Instr.wellFormed (.strwI 0x80 0x0301) = false ∧
    Instr.wellFormed (.pushI 0xFFFF) = false ∧ Instr.wellFormed (.addwI .ax 3) = false ∧
    Instr.wellFormed (.subwI .ax 5) = false ∧ Instr.wellFormed (.mulI .ax 7) = false ∧
    Instr.wellFormed (.andI .ax 9) = false ∧ Instr.wellFormed (.orI .ax 11) = false ∧
    Instr.wellFormed (.xorI .ax 0x000F) = false ∧ Instr.wellFormed (.cmpwI .ax 13) = false := by decide

/-- The same operands with an even immediate are instructions. -/
theorem test_well_formed_terms_are_accepted :
    Instr.wellFormed (.movwI .ax 2) = true ∧ Instr.wellFormed (.strwI 0x80 0x0300) = true ∧
    Instr.wellFormed (.pushI 0xFFFE) = true ∧ Instr.wellFormed (.xorI .ax 0x000E) = true := by decide

/-- Ill-formed terms have no word. -/
theorem test_ill_formed_terms_have_no_word :
    encode defaultFlagIds (.xorI .ax 0x000F) = none ∧ encode defaultFlagIds (.pushI 1) = none := by decide

-- ================================================================ decoding of words written out from the spec

/-- Vectors of 95_test_vectors.md 2.1. -/
theorem test_decode_moves :
    decodeTableWord 32 0x01001234 = some (.movi .ax 0x1234) ∧
    decodeTableWord 32 0x02000301 = some (.movwR .ax .dx) ∧
    decodeTableWord 32 0x02020100 = some (.movwI .cx 0x0100) ∧
    decodeTableWord 32 0x03030007 = some (.lodi .dx 7) ∧
    decodeTableWord 32 0x0400F000 = some (.lodw .ax 0xF000) ∧
    decodeTableWord 32 0x05FF0102 = some (.stri 0xFF 0x0102) ∧
    decodeTableWord 32 0x06800001 = some (.strwR 0x80 .ax) ∧
    decodeTableWord 32 0x06841234 = some (.strwI 0x84 0x1234) ∧
    decodeTableWord 32 0x090001FF = some (.xcgh .ax .bx) := by decide

/-- Vectors of 95_test_vectors.md 2.2. -/
theorem test_decode_stack :
    decodeTableWord 32 0x07080001 = some (.pushR .sp) ∧
    decodeTableWord 32 0x07FF0000 = some (.pushI 0) ∧
    decodeTableWord 32 0x080D0000 = some (.pop .flags) := by decide

/-- Vectors of 95_test_vectors.md 2.3. -/
theorem test_decode_float :
    decodeTableWord 32 0x10000101 = some (.addwR .ax .bx) ∧
    decodeTableWord 32 0x1000FFFE = some (.addwI .ax 0xFFFE) ∧
    decodeTableWord 32 0x11000101 = some (.subwR .ax .bx) ∧
    decodeTableWord 32 0x11000004 = some (.subwI .ax 4) ∧
    decodeTableWord 32 0x12000201 = some (.mulR .ax .cx) ∧
    decodeTableWord 32 0x1200000A = some (.mulI .ax 10) ∧
    decodeTableWord 32 0x130C0000 = some (.inc .pc) ∧
    decodeTableWord 32 0x14020000 = some (.dec .cx) ∧
    decodeTableWord 32 0x15000000 = some (.neg .ax) := by decide

/-- Vectors of 95_test_vectors.md 2.4. -/
theorem test_decode_logic :
    decodeTableWord 32 0x200D0000 = some (.not .flags) ∧
    decodeTableWord 32 0x21000101 = some (.andR .ax .bx) ∧
    decodeTableWord 32 0x210000F0 = some (.andI .ax 0x00F0) ∧
    decodeTableWord 32 0x22000101 = some (.orR .ax .bx) ∧
    decodeTableWord 32 0x22008000 = some (.orI .ax 0x8000) ∧
    decodeTableWord 32 0x2300000F = some (.xorR .ax .ax) ∧
    decodeTableWord 32 0x2300000E = some (.xorI .ax 0x000E) ∧
    decodeTableWord 32 0x30000101 = some (.cmpwR .ax .bx) ∧
    decodeTableWord 32 0x30000008 = some (.cmpwI .ax 8) := by decide

/-- Vectors of 95_test_vectors.md 2.5. -/
theorem test_decode_control :
    decodeTableWord 32 0x40FFFFFF = some (.jmp 0xFFFFFF) ∧
    decodeTableWord 32 0x410000C8 = some (.call 200) ∧
    decodeTableWord 32 0x42ABCDEF = some (.ret) ∧
    decodeTableWord 32 0x43000020 = some (.je 0x20) ∧
    decodeTableWord 32 0x44000020 = some (.jne 0x20) ∧
    decodeTableWord 32 0x45000020 = some (.jgt 0x20) ∧
    decodeTableWord 32 0x46000020 = some (.jge 0x20) ∧
    decodeTableWord 32 0x47000020 = some (.jlt 0x20) ∧
    decodeTableWord 32 0x48000020 = some (.jle 0x20) ∧
    decodeTableWord 32 0x49000020 = some (.js 0x20) ∧
    decodeTableWord 32 0x4A000020 = some (.jco 0x20) := by decide

/-- Vectors of 95_test_vectors.md 2.6. -/
theorem test_decode_flags_and_halt :
    decodeTableWord 32 0x60FFFF07 = some (.setf .sign) ∧
    decodeTableWord 32 0x6000000B = some (.setf .overflow) ∧
    decodeTableWord 32 0x61000006 = some (.clrf .zero) ∧
    decodeTableWord 32 0xFF123456 = some (.halt) := by decide

/-- Unknown opcodes, register fields above 13 and unmapped flag ids of 95_test_vectors.md 2.1 to 2.7. -/
theorem test_decode_rejects :
    decodeTableWord 32 0x00000000 = none ∧
    decodeTableWord 32 0x0A000000 = none ∧
    decodeTableWord 32 0x24010203 = none ∧
    decodeTableWord 32 0xFEFFFFFF = none ∧
    decodeTableWord 32 0x010E0001 = none ∧
    decodeTableWord 32 0x02002001 = none ∧
    decodeTableWord 32 0x150E0000 = none ∧
    decodeTableWord 32 0x60000001 = none ∧
    decodeTableWord 32 0x610000FF = none := by decide

/-- The canonical words of 95_test_vectors.md (S11), one of each format, are what the encoder writes. -/
theorem test_encode :
    encode defaultFlagIds (.movi .ax 0x1234) = some 0x01001234 ∧
    encode defaultFlagIds (.movwR .ax .bx) = some 0x02000101 ∧
    encode defaultFlagIds (.movwI .cx 0x0100) = some 0x02020100 ∧
    encode defaultFlagIds (.lodw .ax 0xF000) = some 0x0400F000 ∧
    encode defaultFlagIds (.stri 0x80 0xBEEF) = some 0x0580BEEF ∧
    encode defaultFlagIds (.strwR 0x80 .ax) = some 0x06800001 ∧
    encode defaultFlagIds (.pushR .pc) = some 0x070C0001 ∧
    encode defaultFlagIds (.pop .bx) = some 0x08010000 ∧
    encode defaultFlagIds (.xcgh .ax .bx) = some 0x09000100 ∧
    encode defaultFlagIds (.call 200) = some 0x410000C8 ∧
    encode defaultFlagIds .ret = some 0x42000000 ∧
    encode defaultFlagIds (.setf .string) = some 0x6000000A ∧
    encode defaultFlagIds .halt = some 0xFF000000 := by decide

-- ================================================================ one-step vectors

/-- The conventions of 95_test_vectors.md: the reset state with some registers and bytes set and the word at `pc`. -/
def start (w : Nat) (regs : List (RegId × Word)) (cells : List (Nat × List Byte)) : State :=
  let s : State := regs.foldl (fun s p => s.setReg p.1 p.2) State.reset
  State.withFetchWord { s with mem := cells.foldl (fun m (c : Nat × List Byte) => Memory.writeBytes m c.1 c.2) s.mem } 32 w

/-- The state after one step. -/
def after (s : State) : State :=
  match step s with
  | .next t => t
  | .fault _ => s
  | .refused _ => s

/-- The listed registers and bytes have the listed values. -/
def shows (s : State) (regs : List (RegId × Word)) (cells : List (Nat × List Byte)) : Bool :=
  regs.all (fun p => s.reg p.1 == p.2) && cells.all (fun c => s.mem.readBytes c.1 c.2.length == c.2)

/-- The step ends Ready and shows the listed registers and bytes. -/
def gives (s : State) (regs : List (RegId × Word)) (cells : List (Nat × List Byte)) : Bool :=
  decide ((after s).driver = .ready) && shows (after s) regs cells

/-- The step ends Faulted with the cause and the datum. -/
def faultsWith (s : State) (cause : FaultCause) (info : Word) : Bool :=
  decide ((after s).driver = .faulted) && decide ((after s).faultCause = cause) && decide ((after s).faultInfo = info)

-- moves (95_test_vectors.md 2.1)
theorem test_movi_clears_the_upper_half : gives (start 0x0100FFFF [(.ax, 0xDEADBEEF)] [])
    [(.ax, 0xFFFF), (.pc, 0x4)] [] = true := by decide
theorem test_movi_pc_jumps : gives (start 0x010C0100 [] [])
    [(.pc, 0x100)] [] = true := by decide
theorem test_movw_reads_the_advanced_pc : gives (start 0x02000C01 [(.pc, 0x20)] [])
    [(.ax, 0x24), (.pc, 0x24)] [] = true := by decide
theorem test_movw_immediate : gives (start 0x02020100 [] [])
    [(.cx, 0x100), (.pc, 0x4)] [] = true := by decide
theorem test_lodi : gives (start 0x03030007 [] [])
    [(.dx, 0x7), (.pc, 0x4)] [] = true := by decide
theorem test_lodw_is_little_endian : gives (start 0x0400F000 [] [(0xF000, [0x78, 0x56, 0x34, 0x12])])
    [(.ax, 0x12345678)] [] = true := by decide
theorem test_lodw_at_the_boundary :
    faultsWith (start 0x0400FFFD [(.ax, 0x5)] []) .outOfBounds 0xFFFD = true ∧
    shows (after (start 0x0400FFFD [(.ax, 0x5)] [])) [(.ax, 0x5), (.pc, 0x4)] [] = true := by decide
theorem test_stri_writes_a_whole_word : gives (start 0x0580BEEF [] [(0x80, [0xAA, 0xAA, 0xAA, 0xAA])])
    [(.pc, 0x4)] [(0x80, [0xEF, 0xBE, 0x00, 0x00])] = true := by decide
theorem test_strw_register : gives (start 0x06800001 [(.ax, 0xCAFEBABE)] [])
    [(.pc, 0x4)] [(0x80, [0xBE, 0xBA, 0xFE, 0xCA])] = true := by decide
theorem test_strw_immediate : gives (start 0x06841234 [] [])
    [(.pc, 0x4)] [(0x84, [0x34, 0x12, 0x00, 0x00])] = true := by decide
theorem test_xcgh : gives (start 0x090001FF [(.ax, 0x1), (.bx, 0x2)] [])
    [(.ax, 0x2), (.bx, 0x1)] [] = true := by decide
theorem test_xcgh_with_pc : gives (start 0x09000C00 [(.ax, 0x40), (.pc, 0x10)] [])
    [(.ax, 0x14), (.pc, 0x40)] [] = true := by decide

-- stack (2.2)
theorem test_push_sp_stores_the_old_sp : gives (start 0x07080001 [] [])
    [(.sp, 0xEFFC)] [(0xEFFC, [0x00, 0xF0, 0x00, 0x00])] = true := by decide
theorem test_push_below_zero :
    faultsWith (start 0x07000001 [(.sp, 0x3)] []) .outOfBounds 0xFFFFFFFF = true ∧
    shows (after (start 0x07000001 [(.sp, 0x3)] [])) [(.sp, 0x3), (.pc, 0x4)] [] = true := by decide
theorem test_push_immediate : gives (start 0x07000100 [] [])
    [(.sp, 0xEFFC)] [(0xEFFC, [0x00, 0x01, 0x00, 0x00])] = true := by decide
theorem test_pop : gives (start 0x08010000 [] [(0xF000, [0x44, 0x33, 0x22, 0x11])])
    [(.bx, 0x11223344), (.sp, 0xF004)] [] = true := by decide
theorem test_pop_sp_ends_with_the_popped_value : gives (start 0x08080000 [] [(0xF000, [0x00, 0x10, 0x00, 0x00])])
    [(.sp, 0x1000)] [] = true := by decide

-- float arithmetic (2.3)
theorem test_addw : gives (start 0x10000101 [(.ax, 0x41200000), (.bx, 0x40B00000)] [])
    [(.ax, 0x41780000), (.flags, 0x0)] [] = true := by decide
theorem test_addw_flags_destination : gives (start 0x100D0001 [(.ax, 0xC0000000)] [])
    [(.flags, 0xC0000080)] [] = true := by decide
theorem test_addw_immediate : gives (start 0x1000FFFE [(.ax, 0x3F800000)] [])
    [(.ax, 0x477FFF00)] [] = true := by decide
theorem test_subw : gives (start 0x11000101 [(.ax, 0x40A00000), (.bx, 0x41200000)] [])
    [(.ax, 0xC0A00000), (.flags, 0x80)] [] = true := by decide
theorem test_subw_immediate : gives (start 0x11000004 [(.ax, 0x3F800000)] [])
    [(.ax, 0xC0400000), (.flags, 0x80)] [] = true := by decide
theorem test_mul_signed_zero : gives (start 0x12000101 [(.bx, 0xBF800000)] [])
    [(.ax, 0x80000000), (.flags, 0x40)] [] = true := by decide
theorem test_mul_rounds : gives (start 0x12000001 [(.ax, 0x3F8CCCCD)] [])
    [(.ax, 0x3F9AE148), (.flags, 0x0)] [] = true := by decide +kernel
theorem test_mul_immediate : gives (start 0x1200000A [(.ax, 0x41200000)] [])
    [(.ax, 0x42C80000), (.flags, 0x0)] [] = true := by decide +kernel
theorem test_inc_integer_five : gives (start 0x13000000 [(.ax, 0x5)] [])
    [(.ax, 0x3F800000), (.flags, 0x0)] [] = true := by decide
theorem test_inc_ties_to_even : gives (start 0x13000000 [(.ax, 0x4B800000)] [])
    [(.ax, 0x4B800000), (.flags, 0x0)] [] = true := by decide
theorem test_dec_to_zero : gives (start 0x14020000 [(.cx, 0x3F800000)] [])
    [(.cx, 0x0), (.flags, 0x40)] [] = true := by decide
theorem test_dec_below_zero : gives (start 0x14000000 [] [])
    [(.ax, 0xBF800000), (.flags, 0x80)] [] = true := by decide
theorem test_neg_zero : gives (start 0x15000000 [] [])
    [(.ax, 0x80000000), (.flags, 0x40)] [] = true := by decide
theorem test_neg_nan : gives (start 0x15000000 [(.ax, 0x7FC00001)] [])
    [(.ax, 0xFFC00001), (.flags, 0x0)] [] = true := by decide

-- logic and compare (2.4); carry and overflow after a logic instruction are open, so its tests look at the result alone
theorem test_not : gives (start 0x20000000 [(.ax, 0xFFFF)] [])
    [(.ax, 0xFFFF0000)] [] = true := by decide
theorem test_and : gives (start 0x21000101 [(.ax, 0xC), (.bx, 0xA)] [])
    [(.ax, 0x8)] [] = true := by decide
theorem test_and_immediate : gives (start 0x210000F0 [(.ax, 0x12345678)] [])
    [(.ax, 0x70)] [] = true := by decide
theorem test_or : gives (start 0x22000101 [(.ax, 0xC), (.bx, 0xA)] [])
    [(.ax, 0xE)] [] = true := by decide
theorem test_or_immediate_is_zero_extended : gives (start 0x22008000 [(.ax, 0x1)] [])
    [(.ax, 0x8001)] [] = true := by decide
theorem test_xor : gives (start 0x23000101 [(.ax, 0x7FFFFFFF), (.bx, 0xFFFFFFFF)] [])
    [(.ax, 0x80000000)] [] = true := by decide
theorem test_xor_immediate : gives (start 0x2300000E [(.ax, 0xA)] [])
    [(.ax, 0x4)] [] = true := by decide
theorem test_cmpw_overflow_and_borrow : gives (start 0x30000101 [(.ax, 0x7FFFFFFF), (.bx, 0xFFFFFFFF)] [])
    [(.ax, 0x7FFFFFFF), (.flags, 0x881)] [] = true := by decide
theorem test_cmpw_keeps_the_other_bits : gives (start 0x30000101 [(.ax, 0x1), (.bx, 0x1), (.flags, 0xFFFFFFFF)] [])
    [(.flags, 0xFFFFF77E)] [] = true := by decide
theorem test_cmpw_immediate : gives (start 0x30000008 [(.ax, 0x9)] [])
    [(.flags, 0x0)] [] = true := by decide

-- control transfer (2.5)
theorem test_jmp : gives (start 0x40FFFFFF [] [])
    [(.pc, 0xFFFFFF)] [] = true := by decide
theorem test_call : gives (start 0x410000C8 [(.pc, 0x64), (.sp, 0x3FC)] [])
    [(.pc, 0xC8), (.sp, 0x3F8)] [(0x3F8, [0x68, 0x00, 0x00, 0x00])] = true := by decide
theorem test_call_with_sp_zero :
    faultsWith (start 0x41000040 [(.sp, 0x0)] []) .outOfBounds 0xFFFFFFFC = true ∧
    shows (after (start 0x41000040 [(.sp, 0x0)] [])) [(.sp, 0x0), (.pc, 0x4)] [] = true := by decide
theorem test_ret_to_a_wild_address : gives (start 0x42000000 [] [(0xF000, [0xEF, 0xBE, 0xAD, 0xDE])])
    [(.pc, 0xDEADBEEF), (.sp, 0xF004)] [] = true := by decide
theorem test_ret_past_the_end :
    faultsWith (start 0x42000000 [(.sp, 0xFFFE)] []) .outOfBounds 0xFFFE = true ∧
    shows (after (start 0x42000000 [(.sp, 0xFFFE)] [])) [(.sp, 0xFFFE), (.pc, 0x4)] [] = true := by decide

/-- The table of 2.5: for the six FLAGS words none, Z, S, ZS, C and V, whether the jump to 0x20 is taken. -/
def taken (op : Nat) : List Bool :=
  [0, 0x40, 0x80, 0xC0, 0x1, 0x800].map fun f => decide ((after (start (op * 2 ^ 24 + 0x20) [(.flags, f)] [])).reg .pc = 0x20)

theorem test_je : taken 0x43 = [false, true, false, true, false, false] := by decide
theorem test_jne : taken 0x44 = [true, false, true, false, true, true] := by decide
theorem test_jgt : taken 0x45 = [true, false, false, false, true, true] := by decide
theorem test_jge : taken 0x46 = [true, true, false, false, true, true] := by decide
theorem test_jlt : taken 0x47 = [false, false, true, false, false, false] := by decide
theorem test_jle : taken 0x48 = [false, true, true, true, false, false] := by decide
theorem test_js : taken 0x49 = [false, false, true, true, false, false] := by decide
theorem test_jco : taken 0x4A = [false, false, false, false, true, true] := by decide

-- flags and HALT (2.6)
theorem test_setf_carry : gives (start 0x60000000 [(.flags, 0x40)] [])
    [(.flags, 0x41)] [] = true := by decide
theorem test_setf_unmapped_id :
    faultsWith (start 0x6000000D [] []) .invalidOperand 0x6000000D = true ∧
    shows (after (start 0x6000000D [] [])) [(.flags, 0x0), (.pc, 0x4)] [] = true := by decide
theorem test_clrf_carry : gives (start 0x61000000 [(.flags, 0xFFFFFFFF)] [])
    [(.flags, 0xFFFFFFFE)] [] = true := by decide
theorem test_clrf_unmapped_id :
    faultsWith (start 0x610000FF [(.flags, 0xFFFFFFFF)] []) .invalidOperand 0x610000FF = true ∧
    shows (after (start 0x610000FF [(.flags, 0xFFFFFFFF)] [])) [(.flags, 0xFFFFFFFF)] [] = true := by decide
theorem test_halt : (after (start 0xFF123456 [] [])).driver = .halted ∧ (after (start 0xFF123456 [] [])).reg .pc = 4 := by
  decide

-- faults and the driver (2.7)
theorem test_zeroed_memory :
    faultsWith (start 0x00000000 [] []) .unknownOpcode 0x0 = true ∧
    shows (after (start 0x00000000 [] [])) [(.pc, 0x4)] [] = true := by decide
theorem test_unknown_opcode :
    faultsWith (start 0xFEFFFFFF [] []) .unknownOpcode 0xFE = true ∧
    shows (after (start 0xFEFFFFFF [] [])) [(.pc, 0x4)] [] = true := by decide
theorem test_register_field_before_address :
    faultsWith (start 0x0410FFFE [] []) .invalidOperand 0x410FFFE = true ∧
    shows (after (start 0x0410FFFE [] [])) [(.ax, 0x0)] [] = true := by decide
theorem test_fetch_past_the_end :
    faultsWith (start 0x00000000 [(.pc, 0xFFFD)] []) .outOfBounds 0xFFFD = true ∧
    shows (after (start 0x00000000 [(.pc, 0xFFFD)] [])) [(.pc, 0xFFFD)] [] = true := by decide

theorem test_fetch_of_the_last_word : (after (start 0xFF000000 [(.pc, 0xFFFC)] [])).driver = .halted ∧
    (after (start 0xFF000000 [(.pc, 0xFFFC)] [])).reg .pc = 0x10000 := by decide

theorem test_step_after_halt : (after (after (start 0xFF000000 [] [(4, [0x01, 0, 0, 0x01])]))).alreadyHalted = true ∧
    shows (after (after (start 0xFF000000 [] [(4, [0x01, 0, 0, 0x01])]))) [(.ax, 0), (.pc, 4)] [] = true := by
  decide

theorem test_run_at_the_end_executes_nothing : run 3 (State.reset.setReg .pc 0x10000) =
    .next (State.reset.setReg .pc 0x10000) ∧ (State.reset.setReg .pc 0x10000).ranOffEnd = true := ⟨rfl, rfl⟩

-- ================================================================ the assembler (50_assembler.md section 8, P7)

/-- The source text of program P7. -/
def p7 : List Char :=
  "        .data\nten:    .word 0x41200000      ; 10.0 as binary32\n        .text\nstart:  LODW AX, [ten]\n        MUL  AX, 10\n        HALT\n".toList

theorem test_assemble_p7 : assemble defaultMemSize defaultFlagIds p7 =
    .ok ⟨[0x0400EFFC, 0x1200000A, 0xFF000000], [0x00, 0x00, 0x20, 0x41], 0, 0xEFFC, 0xF000, 4096⟩ := by decide +kernel

/-- The macro of S13. -/
def s13 : List Char := ".macro ADDTO dst val\nADDW dst, val\nJNE again\n.endmacro\n.equ again, 0x14\nADDTO CX, 4\n".toList

theorem test_assemble_s13 : assemble defaultMemSize defaultFlagIds s13 =
    .ok ⟨[0x10020004, 0x44000014], [], 0, 0xF000, 0xF000, 4096⟩ := by decide +kernel

theorem test_assemble_width_error : assemble defaultMemSize defaultFlagIds "MOVI AX, 0x10000".toList =
    .error [⟨1, .tooWide 16 0x10000⟩] := by decide +kernel

theorem test_assemble_odd_immediate : assemble defaultMemSize defaultFlagIds "XOR AX, 0b1111".toList =
    .error [⟨1, .oddImmediate 15⟩] := by decide +kernel

/-- A missing operand is a parse error, found although the layout is wrong too; so is a word that names no flag (R268). -/
theorem test_assemble_missing_operand : assemble defaultMemSize defaultFlagIds
    ".text_start 0x10000\nMOVI AX\nSETF bogus\n".toList =
    .error [⟨2, .missingOperand "MOVI".toList⟩, ⟨3, .unknownFlag "bogus".toList⟩] := by decide +kernel

/-- An unknown directive in a macro that no line calls, and an operand of `.endmacro` (R237). -/
theorem test_assemble_macro_errors : assemble defaultMemSize defaultFlagIds
    ".macro M\n.bogus\n.endmacro X\nHALT\n".toList =
    .error [⟨3, .wrongOperands ".endmacro".toList⟩, ⟨2, .unknownDirective ".bogus".toList⟩] := by decide +kernel

/-- The second of two definitions is reported at its own line (R268). -/
theorem test_assemble_duplicate_macro : assemble defaultMemSize defaultFlagIds
    ".macro M\n.endmacro\n.macro M\n.endmacro\n".toList = .error [⟨3, .duplicateMacro "M".toList⟩] := by decide +kernel

/-- A label cannot be named like a flag, not even in brackets (R232); the last letter makes the difference. -/
theorem test_assemble_reserved_label : assemble defaultMemSize defaultFlagIds
    ".equ [carry], 5\n.equ [carry2], 5\nMOVI AX, [carry2]\n".toList =
      .error [⟨1, .reservedLabel "carry".toList⟩] := by decide +kernel

/-- A stack larger than memory: its start, and with it the data's end, is MEM_SIZE - STACK_SIZE, below 0 (R250, R251). -/
theorem test_assemble_oversized_stack : assemble defaultMemSize defaultFlagIds
    ".stack_size 0x10004\nHALT\n".toList = .error [⟨0, .segmentOutside .stack (-4) 0x10000⟩,
      ⟨0, .oversized .data (-4) (-4)⟩, ⟨0, .segmentOverlap .text 0 4 .data (-4) (-4)⟩] := by decide +kernel

/-- The float accessors keep the payload of a NaN: 0xFFC00001 has sign 1, exponent 255 and fraction 0x400001 (R56, R150). -/
theorem test_float_accessors : ((State.reset.writeFloat 0x100 ⟨true, 255, 0x400001⟩).map fun t =>
    (t.mem.readBytes 0x100 4, t.readFloat 0x100)) =
    some ([0x01, 0x00, 0xC0, 0xFF], some ⟨true, 255, 0x400001⟩) := by decide

/-- Data too large for its place: both errors name the segment and its addresses (R251). -/
theorem test_assemble_oversized_data : assemble defaultMemSize defaultFlagIds
    ".stack_start 8\n.data\n.space 10\n".toList =
    .error [⟨0, .oversized .data (-2) 8⟩, ⟨0, .segmentOverlap .text 0 0 .data (-2) 8⟩] := by decide +kernel

-- ================================================================ witnesses for the hypotheses of the statements

/-- The reset state with a word at `pc` = 0. -/
def holding (w : Nat) : State := start w [] []

/-- The reset state with SP at a value and a word at `pc`. -/
def spAt (w : Nat) (sp : Word) : State := start w [(.sp, sp)] []

/-- The reset state with one register set. -/
def regAt (r : RegId) (v : Word) : State := State.reset.setReg r v

theorem witness_DecodeInvertsEncode : Instr.wellFormed (.addwI .flags 0xFFFE) = true ∧
    namedFlag (.addwI .flags 0xFFFE) = none ∧ Instr.wellFormed (.setf .overflow) = true ∧
    flagOfId defaultFlagIds 11 = some .overflow ∧ Instr.wellFormed (.addwI .flags 0xFFFF) = false := by decide

theorem witness_DecodedInstructionsAreEncodable : (decode defaultFlagIds 0x020003FF).toOption = some (.movwR .ax .dx) ∧
    namedFlag (.movwR .ax .dx) = none ∧ (decode defaultFlagIds 0x60FFFF07).toOption = some (.setf .sign) := by decide

theorem witness_IgnoredBitsDoNotMatter : (decode defaultFlagIds 0x02000301).toOption = some (.movwR .ax .dx) ∧
    (0x020003FF : Word) &&& ~~~(ignoredBits (.movwR .ax .dx)) =
      0x02000301 &&& ~~~(ignoredBits (.movwR .ax .dx)) := by decide

/-- Both sides of the boundary between register codes and no register. -/
theorem witness_InvalidOperandExactly : operandIsInvalid defaultFlagIds 0x010E0001 = true ∧
    operandIsInvalid defaultFlagIds 0x010D0001 = false ∧ operandIsInvalid defaultFlagIds 0x60000001 = true ∧
    operandIsInvalid defaultFlagIds 0x60000000 = false := by decide

theorem witness_ModeBitSelectsTheForm : (Opcode.movw, Instr.movwR, Instr.movwI) ∈ registerModeForms ∧
    (decode defaultFlagIds 0x02000DFF).toOption = some (.movwR .ax .flags) ∧
    (decode defaultFlagIds 0x0200FFFE).toOption = some (.movwI .ax 0xFFFE) ∧
    (decode defaultFlagIds 0x06FF0001).toOption = some (.strwR 0xFF .ax) ∧
    (decode defaultFlagIds 0x06FF0000).toOption = some (.strwI 0xFF 0) ∧
    (decode defaultFlagIds 0x070D0001).toOption = some (.pushR .flags) ∧
    (decode defaultFlagIds 0x07FFFFFE).toOption = some (.pushI 0xFFFE) ∧ modeBit 0x02000E01 = true ∧
    modeBit 0x020E0000 = false := ⟨.head _, by decide, by decide, by decide, by decide, by decide, by decide, rfl, rfl⟩

/-- The immediates at the boundaries: even and odd, with bits 15 to 8 the last register code and the first that is none. -/
theorem witness_ModeBitSelectsTheForm_immediates : opcodeField 0x02000E01 = Opcode.movw.byte ∧
    opcodeField 0x06FF0001 = 0x06 ∧ opcodeField 0x070D0001 = 0x07 ∧ (0xFFFE : BitVec 16).toNat % 2 = 0 ∧
    (0x0D01 : BitVec 16).toNat % 2 = 1 ∧ (0x0D01 : BitVec 16).extractLsb' 8 8 = RegId.flags.code ∧
    (0x0E01 : BitVec 16).toNat % 2 = 1 ∧ 13 < ((0x0E01 : BitVec 16).extractLsb' 8 8).toNat ∧
    13 < (0x0E : Byte).toNat ∧ (0x0D : Byte) = RegId.flags.code := by decide

/-- A Halted and a Faulted state; a fetch one byte past the end and one that just fits; the three results of decoding. -/
theorem witness_StepRunsTheDecodedInstruction : (after (holding 0xFF000000)).driver = .halted ∧
    (after (holding 0)).driver = .faulted ∧ (regAt .pc 0xFFFD).driver = .ready ∧
    (regAt .pc 0xFFFD).memSize.bytes < ((regAt .pc 0xFFFD).reg .pc).toNat + 4 ∧
    ((regAt .pc 0xFFFC).reg .pc).toNat + 4 ≤ (regAt .pc 0xFFFC).memSize.bytes ∧
    (decode defaultFlagIds 0x01001234).toOption = some (.movi .ax 0x1234) ∧
    decode defaultFlagIds 0 = .error (.unknownOpcode 0) ∧
    decode defaultFlagIds 0x010E0001 = .error (.invalidOperand 0x010E0001) :=
  ⟨rfl, rfl, rfl, by decide, by decide, by decide, rfl, rfl⟩

theorem witness_StoppedCoreStaysStopped :
    (after (holding 0xFF000000)).driver = .halted ∧ (after (holding 0)).driver = .faulted := by decide

theorem witness_OnlyHaltHalts : (holding 0xFF000000).driver = .ready ∧
    step (holding 0xFF000000) = .next (after (holding 0xFF000000)) := ⟨rfl, rfl⟩

/-- A fetch fault and a fault of a fetched word. -/
theorem witness_FaultsArePrecise : (regAt .pc 0xFFFD).driver = .ready ∧
    step (regAt .pc 0xFFFD) = .next (after (regAt .pc 0xFFFD)) ∧ (after (regAt .pc 0xFFFD)).driver = .faulted ∧
    step (holding 0) = .next (after (holding 0)) ∧ (after (holding 0)).driver = .faulted := ⟨rfl, rfl, rfl, rfl, rfl⟩

/-- A load that reaches one byte past the end, and one that just fits. -/
theorem witness_DataFaultsExactly : (holding 0x0400FFFD).driver = .ready ∧
    (holding 0x0400FFFD).fetch = some 0x0400FFFD ∧ decode defaultFlagIds 0x0400FFFD = .ok (.lodw .ax 0xFFFD) ∧
    step (holding 0x0400FFFD) = .next (after (holding 0x0400FFFD)) ∧
    (after (holding 0x0400FFFD)).driver = .faulted ∧ (after (holding 0x0400FFFC)).driver = .ready :=
  ⟨rfl, rfl, rfl, rfl, rfl, rfl⟩

/-- An instruction that does not write `pc`, and one that does. -/
theorem witness_StepChangesOnlyWrittenRegisters : (holding 0x01001234).driver = .ready ∧
    (holding 0x01001234).fetch = some 0x01001234 ∧ decode defaultFlagIds 0x01001234 = .ok (.movi .ax 0x1234) ∧
    step (holding 0x01001234) = .next (after (holding 0x01001234)) ∧ RegId.pc ∉ regsWritten (.movi .ax 0x1234) ∧
    RegId.pc ∈ regsWritten (.jmp 0x10) := ⟨rfl, rfl, rfl, rfl, by decide, by decide⟩

theorem witness_StepChangesOnlyStoredBytes : step (holding 0x07000100) = .next (after (holding 0x07000100)) ∧
    (after (holding 0x07000100)).mem.readByte 0xEFFD ≠ (holding 0x07000100).mem.readByte 0xEFFD :=
  ⟨rfl, by decide⟩

/-- An instruction that names a flag, one that writes the condition flags, and one that writes none. -/
theorem witness_StepChangesOnlyNamedFlagBits : (holding 0x6000000B).driver = .ready ∧
    (holding 0x6000000B).fetch = some 0x6000000B ∧ decode defaultFlagIds 0x6000000B = .ok (.setf .overflow) ∧
    RegId.flags ∉ destRegs (.setf .overflow) ∧ step (holding 0x6000000B) = .next (after (holding 0x6000000B)) ∧
    namedFlag (.setf .overflow) = some .overflow ∧ RegId.flags ∉ impliedRegs (.movi .ax 1) ∧
    RegId.flags ∉ destRegs (.cmpwR .flags .ax) := ⟨rfl, rfl, rfl, by decide, rfl, rfl, by decide, by decide⟩

theorem witness_StepKeepsParameters : step (holding 0x01001234) = .next (after (holding 0x01001234)) ∧
    (after (holding 0x01001234)).driver ≠ .faulted ∧ (holding 0x01001234).driver ≠ .halted :=
  ⟨rfl, by decide, by decide⟩

theorem witness_InvariantIsKept : (holding 0x07000100).Inv = true ∧
    step (holding 0x07000100) = .next (after (holding 0x07000100)) := ⟨by decide, rfl⟩

/-- A legal request whose text ends just under its data, with an unmapped rest; entry point and stack at the last byte. -/
def request : LoadRequest := { defaultLoad with text := [0x0400EFFC, 0xFF000000], dataStart := 8, data := [1, 2] }

theorem witness_ResetLoadLeavesTheResetState : resetLoad request = .next (loadedState defaultMemSize request) ∧
    (∀ j, 4 * 1 ≤ j → j < 4 * 1 + 4 →
      request.textStart + j < request.dataStart ∨ request.dataStart + request.data.length ≤ request.textStart + j) ∧
    resetLoad { defaultLoad with textStart := 65535, stackStart := 65535 } =
      .next (loadedState defaultMemSize { defaultLoad with textStart := 65535, stackStart := 65535 }) :=
  ⟨rfl, by intro j h1 h2; left; show 0 + j < 8; omega, rfl⟩

/-- A run that goes on, a stopped one, and the two sides of the end of memory. -/
theorem witness_RunStopsAtTheThreeEnds : (holding 0xFF000000).runEnd = none ∧
    step (holding 0xFF000000) = .next (after (holding 0xFF000000)) ∧
    run 1 (holding 0xFF000000) = .next (after (holding 0xFF000000)) ∧
    (after (holding 0xFF000000)).runEnd = some .halted ∧ (regAt .pc 0x10000).driver = .ready ∧
    (regAt .pc 0x10000).memSize.bytes ≤ ((regAt .pc 0x10000).reg .pc).toNat ∧ (regAt .pc 0xFFFF).runEnd = none :=
  ⟨rfl, rfl, rfl, rfl, rfl, by decide, by decide⟩

theorem witness_RegistersAreIndependent : RegId.flags ≠ RegId.pc := by decide

/-- A write of the widest access at the last place it fits, read back whole and in part; a fetch; a load. -/
theorem witness_AccessesAreLittleEndian : State.reset.mem.wf = true ∧
    (State.reset.memWrite 0xFFFC 4 0x11223344).isSome = true ∧ (0xFFFD : Word).toNat = (0xFFFC : Word).toNat + 1 ∧
    1 + 2 ≤ 4 ∧ (holding 0x01001234).fetch = some 0x01001234 ∧
    resetLoad request = .next (loadedState defaultMemSize request) := ⟨rfl, rfl, rfl, by decide, rfl, rfl⟩

/-- The two sides of the bound. -/
theorem witness_AccessesAreBoundsChecked : (State.reset.memWrite 0xFFFC 4 1).isSome = true ∧
    (State.reset.memWrite 0xFFFD 4 1).isSome = false ∧ (State.reset.memRead 0xFFFFFFFE 4).isSome = false := by decide

/-- The two sides of the bound. -/
theorem witness_FloatAccessorsMoveTheirBytes : State.reset.mem.wf = true ∧
    (0xFFFC : Word).toNat + 4 ≤ State.reset.memSize.bytes ∧ State.reset.memSize.bytes < (0xFFFD : Word).toNat + 4 := by
  decide

/-- Both ends of the range of SP; a CALL to the very bytes it stores, so that `pc` is left at the address stored to. -/
theorem witness_StoreIsSeenByTheNextFetch : (spAt 0 4).mem.wf = true ∧ 4 ≤ ((spAt 0 4).reg .sp).toNat ∧
    ((spAt 0 0x10000).reg .sp).toNat ≤ (spAt 0 0x10000).memSize.bytes ∧
    (after (spAt 0x4100EFFC 0xF000)).reg .pc = (spAt 0x4100EFFC 0xF000).reg .sp - 4 := by decide

/-- The two sides of the bound. -/
theorem witness_LodwLoadsTheWord : (0xFFFC : BitVec 16).toNat + 4 ≤ State.reset.memSize.bytes ∧
    State.reset.memSize.bytes < (0xFFFD : BitVec 16).toNat + 4 := by decide

theorem witness_StoresWriteOneWord : State.reset.mem.wf = true := rfl

/-- Both ends of the range of SP, and the values just outside it. -/
theorem witness_PushStoresBelowSp : (spAt 0 4).mem.wf = true ∧ 4 ≤ ((spAt 0 4).reg .sp).toNat ∧
    ((spAt 0 0x10000).reg .sp).toNat ≤ (spAt 0 0x10000).memSize.bytes ∧ ((spAt 0 3).reg .sp).toNat < 4 ∧
    (spAt 0 0x10001).memSize.bytes < ((spAt 0 0x10001).reg .sp).toNat := by decide

/-- The two sides of the bound. -/
theorem witness_PopLoadsAtSp : ((spAt 0 0xFFFC).reg .sp).toNat + 4 ≤ (spAt 0 0xFFFC).memSize.bytes ∧
    (spAt 0 0xFFFD).memSize.bytes < ((spAt 0 0xFFFD).reg .sp).toNat + 4 ∧ RegId.ax ≠ RegId.sp := by decide

theorem witness_PopUndoesPush : (spAt 0 4).mem.wf = true ∧ 4 ≤ ((spAt 0 4).reg .sp).toNat ∧
    ((spAt 0 4).reg .sp).toNat ≤ (spAt 0 4).memSize.bytes ∧ RegId.ax ≠ RegId.sp := by decide

/-- 1.0 and -1.0, whose sum is zero; the largest finite number, whose double is not finite. -/
theorem witness_AdditionIsCorrectlyRounded : finiteUnits 0x3F800000 = some (2 ^ 149) ∧
    finiteUnits 0xBF800000 = some (-2 ^ 149) ∧ finiteUnits 0x7F7FFFFF = some ((2 ^ 24 - 1) * 2 ^ 253) := by
  decide +kernel

/-- The smallest subnormal, whose square underflows, and -0.0. -/
theorem witness_MultiplicationIsCorrectlyRounded :
    finiteUnits 0x00000001 = some 1 ∧ finiteUnits 0x80000000 = some 0 := by decide

/-- The largest finite number, which is neither zero, and a register that holds an infinity. -/
theorem witness_InfiniteOperandsGiveInfinities : finiteUnits 0x7F7FFFFF ≠ none ∧ (0x7F7FFFFF : Word) ≠ 0 ∧
    (0x7F7FFFFF : Word) ≠ 0x80000000 ∧ (regAt .pc 0xFF800000).reg .pc = infinityPattern true := by decide +kernel

theorem witness_NanResultsExactly : isNaN 0x7F800001 = true ∧ isNaN 0xFFFFFFFF = true ∧ isNaN 0x7F800000 = false ∧
    fadd 0x7F800000 0xFF800000 = .nan := by decide

theorem witness_ImmediateConversionIsExact : 2 ^ 24 ≤ 2 ^ 24 ∧ u2f 65534 = 0x477FFE00 ∧ u2f 65535 = 0x477FFF00 := by
  decide +kernel

/-- The largest number counted down, and a register that holds 2.0, which two DEC bring to zero. -/
theorem witness_DecCountsDownExactly : 2 ^ 24 - 1 < 2 ^ 24 ∧ u2f 1 = 0x3F800000 ∧ u2f 0 = 0 ∧
    (regAt .cx 0x4B800000).reg .cx = u2f (2 ^ 24 - 1 + 1) ∧ (regAt .cx 0x40000000).reg .cx = u2f 2 ∧
    RegId.cx ≠ RegId.flags ∧ 2 ≤ 2 ^ 24 ∧ 2 ≤ 2 := by decide +kernel

theorem witness_LogicInstructionsWriteTheirResult : ((Instr.andR .ax .bx = .andR .ax .bx ∧
    State.reset.reg .bx = State.reset.reg .bx) ∨ (Instr.andR .ax .bx = .andI .ax 0 ∧ State.reset.reg .bx = 0)) :=
  .inl ⟨rfl, rfl⟩

theorem witness_CmpwSetsTheFlagsOfTheDifference : ((Instr.cmpwI .ax 8 = .cmpwR .ax .bx ∧ (8 : Word) = State.reset.reg .bx) ∨
    (Instr.cmpwI .ax 8 = .cmpwI .ax 8 ∧ (8 : Word) = (8 : BitVec 16).setWidth 32)) := .inr ⟨rfl, rfl⟩

/-- A compare without and one with a signed overflow. -/
theorem witness_JumpsAfterCompare :
    (False ↔ ((7 : Word).toInt - (9 : Word).toInt < -2 ^ 31 ∨ 2 ^ 31 ≤ (7 : Word).toInt - (9 : Word).toInt)) ∧
    (True ↔ ((0x80000000 : Word).toInt - (1 : Word).toInt < -2 ^ 31 ∨
      2 ^ 31 ≤ (0x80000000 : Word).toInt - (1 : Word).toInt)) := by decide

/-- A JMP to its own address, at 0. -/
theorem witness_JmpSetsPc : opcodeField 0x40000000 = 0x40 ∧ (holding 0x40000000).driver = .ready ∧
    (holding 0x40000000).fetch = some 0x40000000 ∧ decode defaultFlagIds 0x40000000 = .ok (.jmp 0) ∧
    (0 : BitVec 24).setWidth 32 = (holding 0x40000000).reg .pc := ⟨rfl, rfl, rfl, rfl, rfl⟩

theorem witness_ConditionalJumpsReadTheirFlags : opcodeField 0x43000020 = 0x43 ∧ opcodeField 0x4A000020 = 0x4A ∧
    (0x20 : BitVec 24) = (0x43000020 : Word).extractLsb' 0 24 ∧ true = ((regAt .flags 0x40).reg .flags).getLsbD 6 := by
  decide

/-- Both ends of the range of SP, and the values just outside it. -/
theorem witness_CallPushesTheReturnAddress : opcodeField 0x410000C8 = 0x41 ∧ (spAt 0 4).mem.wf = true ∧
    4 ≤ ((spAt 0 4).reg .sp).toNat ∧ ((spAt 0 0x10000).reg .sp).toNat ≤ (spAt 0 0x10000).memSize.bytes ∧
    ((spAt 0 3).reg .sp).toNat < 4 ∧ (spAt 0 0x10001).memSize.bytes < ((spAt 0 0x10001).reg .sp).toNat := by decide

theorem witness_RetPopsThePc : opcodeField 0x42ABCDEF = 0x42 ∧
    ((spAt 0 0xFFFC).reg .sp).toNat + 4 ≤ (spAt 0 0xFFFC).memSize.bytes ∧
    (spAt 0 0xFFFD).memSize.bytes < ((spAt 0 0xFFFD).reg .sp).toNat + 4 := by decide

theorem witness_RetUndoesCall : (spAt 0 4).mem.wf = true ∧ 4 ≤ ((spAt 0 4).reg .sp).toNat ∧
    ((spAt 0 4).reg .sp).toNat ≤ (spAt 0 4).memSize.bytes := by decide

theorem witness_SetfAndClrfWriteOneFlag : flagOfId defaultFlagIds (loField 0x60FFFF07) = some .sign ∧
    opcodeField 0x60FFFF07 = 0x60 ∧ flagOfId defaultFlagIds (loField 0x61000006) = some .zero ∧
    opcodeField 0x61000006 = 0x61 ∧ flagOfId defaultFlagIds (loField 0x60000001) = none ∧
    opcodeField 0x60000001 = 0x60 := by decide

theorem witness_HaltStopsTheCore : opcodeField 0xFF123456 = 0xFF ∧ (holding 0xFF123456).driver = .ready ∧
    (holding 0xFF123456).fetch = some 0xFF123456 := ⟨rfl, rfl, rfl⟩

theorem witness_AssembledSegmentsFit : (assemble defaultMemSize defaultFlagIds p7).toOption.isSome = true := by
  decide +kernel

/-- P7 has three words and four data bytes. -/
theorem witness_AssembledProgramsLoad : ((assemble defaultMemSize defaultFlagIds p7).toOption.map fun p =>
    (p.text.length, p.data.length)) = some (3, 4) := by decide +kernel

/-- The values at the boundaries, written as numbers; a label stands for its value. -/
theorem witness_AssemblerChecksWidths : Operand.imm 0xFFFF = .imm 0xFFFF ∧
    ([("ten".toList, 0xFFFE)].find? fun p => p.1 == "ten".toList) = some ("ten".toList, 0xFFFE) ∧ 0xFF ≤ 0xFF ∧
    0xFFFF < 0x10000 ∧ 0xFFFE ≤ 0xFFFF ∧ 0xFFFE % 2 = 0 ∧ 0xFFFF % 2 = 1 := by decide

theorem witness_AssemblerChecksAddressWidths : Operand.address 0x100 = .address 0x100 ∧
    ([("ten".toList, 0xFF)].find? fun p => p.1 == "ten".toList) = some ("ten".toList, 0xFF) ∧ 0xFF ≤ 0xFF ∧
    0xFF < 0x100 ∧ 0xFFFF ≤ 0xFFFF ∧ 0xFFFF < 0x10000 ∧ 0xFFFFFF ≤ 0xFFFFFF ∧ 0xFFFFFF < 0x1000000 := by decide

/-- The macro of S13 and its call. -/
def addto : MacroDef := ⟨1, "ADDTO".toList, ["dst".toList, "val".toList],
  [⟨2, none, "ADDW".toList, [.label "dst".toList, .label "val".toList], []⟩,
   ⟨3, none, "JNE".toList, [.label "again".toList], []⟩]⟩

theorem witness_MacroArgumentsAreSubstituted : "dst".toList ≠ "val".toList ∧
    [addto].find? (fun d => d.name == "ADDTO".toList) =
      some ⟨1, "ADDTO".toList, ["dst".toList, "val".toList], addto.body⟩ ∧
    (Command.mk 6 none "ADDTO".toList [.reg .cx, .imm 4] []).operands = [.reg .cx, .imm 4] ∧
    (Command.mk 6 none "ADDTO".toList [.reg .cx, .imm 4] []).label = none := by decide

end Sys2Proof.Tests
end

section
/-! PROOFS of the family 10_state.md: the register file (R20, R21). -/

namespace Sys2Proof

/-- Every register is found under its code, and what is found stands in the list. -/
@[simp] theorem RegId.mem_all (r : RegId) : r ∈ RegId.all :=
  List.mem_of_find?_eq_some (RegId.ofCode_code r)

theorem RegId.nodup_all : RegId.all.Nodup := by decide

end Sys2Proof

namespace Sys2Proof.Machine

/-- Settles O23: the list of the registers is complete and without repetition, and the laws of `setReg` say what each
register and the rest of the state hold after a write. -/
theorem registersAreIndependent : Obligations.RegistersAreIndependent := by
  refine ⟨rfl, RegId.nodup_all, RegId.mem_all, fun s i j v => ⟨?written, ?others, ?memory, ?driver⟩⟩
  case written => exact State.reg_setReg_self s i v
  case others => exact State.reg_setReg_of_ne s v
  case memory => exact State.setReg_mem s i v
  case driver => exact State.setReg_driver s i v

end Sys2Proof.Machine
end

section
/-! PROOFS of the family 20_memory.md: the byte order of accesses, of the fetch and of the loader (R51). -/

namespace Sys2Proof.Machine

-- ---------------------------------------------------------------- the bytes of a number and of a word

theorem getElem_leBytes : ∀ (n x k : Nat) (hk : k < (leBytes n x).length),
    (leBytes n x)[k] = BitVec.ofNat 8 (x / 256 ^ k)
  | 0, _, _, hk => absurd hk (Nat.not_lt_zero _)
  | n + 1, x, 0, _ => by simp [leBytes]
  | n + 1, x, k + 1, hk => by
    have ih := getElem_leBytes n (x / 256) k (Nat.lt_of_succ_lt_succ hk)
    simpa [leBytes, Nat.pow_succ', Nat.div_div_eq_div_mul] using ih

/-- A field of whole bytes of a word, as arithmetic on its value: divide off the bytes below, cut off those above. -/
theorem extractLsb'_bytes {w : Nat} (v : BitVec w) (k j : Nat) :
    v.extractLsb' (8 * k) (8 * j) = BitVec.ofNat (8 * j) (v.toNat / 256 ^ k) := by
  apply BitVec.eq_of_toNat_eq
  simp [Nat.shiftRight_eq_div_pow, Nat.pow_mul]

theorem extractLsb'_byte {w : Nat} (v : BitVec w) (k : Nat) :
    v.extractLsb' (8 * k) 8 = BitVec.ofNat 8 (v.toNat / 256 ^ k) := extractLsb'_bytes v k 1

/-- A block that holds the bytes of a number, the lowest first, is the list of those bytes. -/
theorem Memory.readBytes_eq_leBytes {m : Memory} : ∀ {n a x : Nat},
    (∀ i, i < n → m.readByte (a + i) = BitVec.ofNat 8 (x / 256 ^ i)) → m.readBytes a n = leBytes n x
  | 0, _, _, _ => rfl
  | n + 1, a, x, h => by
    have hhead : m.readByte a = BitVec.ofNat 8 x := by simpa using h 0 (Nat.succ_pos n)
    have htail : m.readBytes (a + 1) n = leBytes n (x / 256) :=
      Memory.readBytes_eq_leBytes fun i hi => by
        rw [Nat.add_assoc, Nat.add_comm 1 i, h (i + 1) (Nat.succ_lt_succ hi), Nat.pow_succ',
          Nat.div_div_eq_div_mul]
    simp only [Memory.readBytes, leBytes, hhead, htail]

theorem holdsWord_iff (m : Memory) (a : Nat) (v : Word) :
    HoldsWord m a v ↔ ∀ i, i < 4 → m.readByte (a + i) = v.extractLsb' (8 * i) 8 := by
  constructor
  · rintro ⟨h0, h1, h2, h3⟩ i hi
    match i, hi with
    | 0, _ => exact h0
    | 1, _ => exact h1
    | 2, _ => exact h2
    | 3, _ => exact h3
  · intro h
    exact ⟨h 0 (by omega), h 1 (by omega), h 2 (by omega), h 3 (by omega)⟩

-- ---------------------------------------------------------------- accesses of any width

/-- A read answers exactly inside memory, with the little-endian value of its bytes (R51, R52). -/
theorem State.memRead_eq_some_iff (s : State) (addr : Word) (n : Nat) (x : BitVec (8 * n)) :
    s.memRead addr n = some x ↔ addr.toNat + n ≤ s.memSize.bytes ∧
      x = BitVec.ofNat (8 * n) (leValue (s.mem.readBytes addr.toNat n)) := by
  simp only [State.memRead, State.inBounds_iff, Option.ite_none_right_eq_some, Option.some.injEq]
  exact and_congr_right fun _ => eq_comm

/-- A write answers exactly inside memory; only memory changes (R53). -/
theorem State.memWrite_eq_some_iff (s t : State) (addr v : Word) (n : Nat) : s.memWrite addr n v = some t ↔
    addr.toNat + n ≤ s.memSize.bytes ∧
      t = { s with mem := s.mem.writeBytes addr.toNat (leBytes n v.toNat) } := by
  simp only [State.memWrite, State.inBounds_iff, Option.ite_none_right_eq_some, Option.some.injEq]
  exact and_congr_right fun _ => eq_comm

/-- A write puts byte `k` of the value, bits `8k + 7` to `8k`, at `addr + k` (R53). -/
theorem State.readByte_of_memWrite {s t : State} {addr v : Word} {n : Nat} (hw : s.mem.wf = true)
    (h : s.memWrite addr n v = some t) {k : Nat} (hk : k < n) :
    t.mem.readByte (addr.toNat + k) = v.extractLsb' (8 * k) 8 := by
  obtain ⟨-, rfl⟩ := (State.memWrite_eq_some_iff s t addr v n).1 h
  have hlen : k < (leBytes n v.toNat).length := by rwa [length_leBytes]
  rw [extractLsb'_byte, ← getElem_leBytes n v.toNat k hlen]
  exact Memory.readByte_writeBytes_inside _ hw _ _ hlen

/-- A read inside memory, of bytes that are those of `v` from byte `k` on, gives that field of `v`. -/
theorem State.memRead_of_bytes {s : State} {b v : Word} {k j : Nat} (hb : b.toNat + j ≤ s.memSize.bytes)
    (h : ∀ i, i < j → s.mem.readByte (b.toNat + i) = v.extractLsb' (8 * (k + i)) 8) :
    s.memRead b j = some (v.extractLsb' (8 * k) (8 * j)) := by
  have hblock : s.mem.readBytes b.toNat j = leBytes j (v.toNat / 256 ^ k) :=
    Memory.readBytes_eq_leBytes fun i hi => by
      rw [h i hi, extractLsb'_byte, Nat.pow_add, Nat.div_div_eq_div_mul]
  refine (State.memRead_eq_some_iff s b j _).2 ⟨hb, ?_⟩
  rw [hblock, leValue_leBytes, extractLsb'_bytes]
  apply BitVec.eq_of_toNat_eq
  simp [Nat.pow_mul]

/-- A read inside what has just been written gives that part of the value, the whole of it included (R51). -/
theorem State.memRead_of_memWrite {s t : State} {addr v b : Word} {n k j : Nat} (hw : s.mem.wf = true)
    (h : s.memWrite addr n v = some t) (hkj : k + j ≤ n) (hb : b.toNat = addr.toNat + k) :
    t.memRead b j = some (v.extractLsb' (8 * k) (8 * j)) := by
  have hbounds : b.toNat + j ≤ t.memSize.bytes := by
    obtain ⟨hin, rfl⟩ := (State.memWrite_eq_some_iff s t addr v n).1 h
    change b.toNat + j ≤ s.memSize.bytes
    omega
  refine State.memRead_of_bytes hbounds fun i hi => ?_
  rw [hb, Nat.add_assoc]
  exact State.readByte_of_memWrite hw h (by omega)

-- ---------------------------------------------------------------- the fetched word

/-- A fetch reads the word at `pc` (R81). -/
theorem State.fetch_eq_some_iff (s : State) (iw : Word) : s.fetch = some iw ↔
    (s.reg .pc).toNat + 4 ≤ s.memSize.bytes ∧ iw = wordAt s.mem (s.reg .pc).toNat := by
  rw [State.fetch, State.readWord_eq_some_iff, wordAt_eq]

/-- The opcode is the top byte: the three bytes below it are skipped. -/
@[simp] theorem opcodeField_wordAt (m : Memory) (a : Nat) : opcodeField (wordAt m a) = m.readByte (a + 3) := by
  rw [opcodeField, wordAt, BitVec.extractLsb'_append_eq_of_le (by omega), BitVec.extractLsb'_append_eq_of_le (by omega),
    BitVec.extractLsb'_append_eq_of_le (by omega)]
  exact BitVec.extractLsb'_eq_self

@[simp] theorem loField_wordAt (m : Memory) (a : Nat) : loField (wordAt m a) = m.readByte a :=
  BitVec.extractLsb'_append_eq_right

theorem modeBit_eq_loField (iw : Word) : modeBit iw = (loField iw).getLsbD 0 := by
  simp [modeBit, loField]

@[simp] theorem modeBit_wordAt (m : Memory) (a : Nat) : modeBit (wordAt m a) = (m.readByte a).getLsbD 0 := by
  rw [modeBit_eq_loField, loField_wordAt]

-- ---------------------------------------------------------------- the loader

/-- `reset_load` answers a state exactly for a legal memory size with both start addresses and the image inside
(R311, R312). -/
theorem resetLoad_eq_next_iff (q : LoadRequest) (s : State) : resetLoad q = .next s ↔
    ∃ h : 65536 ≤ q.memSize ∧ q.memSize ≤ 8388608 ∧ q.memSize % 1024 = 0,
      q.textStart < q.memSize ∧ q.stackStart < q.memSize ∧ q.imageInside = true ∧
        s = loadedState ⟨q.memSize, h⟩ q := by
  unfold resetLoad
  split_ifs with hsize htext hstack himage
  · simp [hsize, Nat.not_lt.2 htext]
  · simp [hsize, Nat.not_lt.2 hstack]
  · simp [hsize, Nat.not_le.1 htext, Nat.not_le.1 hstack, himage, eq_comm]
  · simp [hsize, himage]
  · simp [hsize]

theorem mem_of_resetLoad {q : LoadRequest} {s : State} (h : resetLoad q = .next s) : s.mem = imageMemory q := by
  obtain ⟨_, -, -, -, rfl⟩ := (resetLoad_eq_next_iff q s).1 h
  rfl

@[simp] theorem length_textBytes (ws : List Word) : (textBytes ws).length = 4 * ws.length := by
  induction ws with
  | nil => rfl
  | cons w ws ih => simp only [textBytes, List.length_append, length_leBytes, ih, List.length_cons]; omega

/-- Byte `i` of word `k` is byte `4k + i` of the text. -/
theorem getElem_textBytes : ∀ (ws : List Word) (k i : Nat) (hk : k < ws.length) (_ : i < 4)
    (h : 4 * k + i < (textBytes ws).length), (textBytes ws)[4 * k + i] = ws[k].extractLsb' (8 * i) 8
  | [], _, _, hk, _, _ => absurd hk (Nat.not_lt_zero _)
  | w :: ws, 0, i, _, hi, _ => by
    have hlen : i < (leBytes 4 w.toNat).length := by rwa [length_leBytes]
    simp only [textBytes, Nat.mul_zero, Nat.zero_add, List.getElem_append_left hlen, getElem_leBytes,
      List.getElem_cons_zero, extractLsb'_byte]
  | w :: ws, k + 1, i, hk, hi, h => by
    have hk' : k < ws.length := Nat.lt_of_succ_lt_succ hk
    have hrest : 4 * k + i < (textBytes ws).length := by rw [length_textBytes]; omega
    have ih := getElem_textBytes ws k i hk' hi hrest
    have hskip : 4 * (k + 1) + i = (leBytes 4 w.toNat).length + (4 * k + i) := by rw [length_leBytes]; omega
    simp only [textBytes, hskip, List.getElem_append_right (Nat.le_add_right _ _), Nat.add_sub_cancel_left, ih,
      List.getElem_cons_succ]

/-- A text byte that no data byte is written over (R312). -/
theorem readByte_imageMemory_text {q : LoadRequest} {j : Nat} (hj : j < (textBytes q.text).length)
    (hdata : q.textStart + j < q.dataStart ∨ q.dataStart + q.data.length ≤ q.textStart + j) :
    (imageMemory q).readByte (q.textStart + j) = (textBytes q.text)[j] := by
  rw [imageMemory, Memory.readByte_writeBytes_outside _ _ hdata]
  exact Memory.readByte_writeBytes_inside _ rfl _ _ hj

/-- A text word stands in the image, bits 7 to 0 first, where no data byte is written over it (R51, R312). -/
theorem holdsWord_imageMemory_text {q : LoadRequest} {k : Nat} (hk : k < q.text.length)
    (hdata : ∀ j, 4 * k ≤ j → j < 4 * k + 4 →
      q.textStart + j < q.dataStart ∨ q.dataStart + q.data.length ≤ q.textStart + j) :
    HoldsWord (imageMemory q) (q.textStart + 4 * k) q.text[k] := by
  refine (holdsWord_iff _ _ _).2 fun i hi => ?_
  have hlen : 4 * k + i < (textBytes q.text).length := by rw [length_textBytes]; omega
  rw [Nat.add_assoc, readByte_imageMemory_text hlen (hdata (4 * k + i) (by omega) (by omega))]
  exact getElem_textBytes q.text k i hk hi hlen

-- ---------------------------------------------------------------- the byte order

/-- Settles O24: a write stores byte `k` at `addr + k` and a read puts the bytes together again, the fetched word is the
word at `pc`, and the loader writes the bytes of the text words one word after the other. -/
theorem accessesAreLittleEndian : Obligations.AccessesAreLittleEndian := by
  refine ⟨fun s t addr v n hw _ h => ⟨?written, ?readBack⟩, ?fetched, ?loaded⟩
  case written => exact fun k hk => State.readByte_of_memWrite hw h hk
  case readBack => exact fun b k j hkj hb => State.memRead_of_memWrite hw h hkj hb
  case fetched =>
    intro s iw h
    obtain ⟨-, rfl⟩ := (State.fetch_eq_some_iff s iw).1 h
    exact ⟨opcodeField_wordAt _ _, loField_wordAt _ _, modeBit_wordAt _ _⟩
  case loaded =>
    intro q s h k hk hdata
    rw [mem_of_resetLoad h]
    exact holdsWord_imageMemory_text hk hdata

end Sys2Proof.Machine
end

section
/-! PROOFS of the family 44_control_transfer.md: JMP, CALL, RET and the conditional jumps (R190 to R193). -/

namespace Sys2Proof

-- ---------------------------------------------------------------- the decoder on a known opcode

/-- A word that carries the byte of `op` is decoded by the format of `op` (R83). -/
theorem decode_of_opcodeField {m : FlagIdMap} {w : Word} {op : Opcode} (h : opcodeField w = op.byte) :
    decode m w = decodeOperands m op w := by
  rw [decode, h, Opcode.ofByte_byte]

end Sys2Proof

namespace Sys2Proof.Machine

-- ---------------------------------------------------------------- what a register write and a fault leave unchanged

theorem RegFile.set_set_self (r : RegFile) (i : RegId) (v w : Word) : (r.set i v).set i w = r.set i w := by
  cases i <;> rfl

/-- The second of two writes of one register counts. -/
@[simp] theorem State.setReg_setReg_self (s : State) (i : RegId) (v w : Word) :
    (s.setReg i v).setReg i w = s.setReg i w := by
  simp only [State.setReg, RegFile.set_set_self]

theorem State.SameRegsBut.refl (s : State) (l : List RegId) : s.SameRegsBut s l := fun _ _ => rfl

theorem State.SameRegsBut.mono {s t : State} {l k : List RegId} (h : s.SameRegsBut t l) (hlk : l ⊆ k) :
    s.SameRegsBut t k := fun r hr => h r fun hl => hr (hlk hl)

/-- A write of a register of the list keeps all registers outside the list. -/
theorem State.SameRegsBut.setReg {s t : State} {l : List RegId} (h : s.SameRegsBut t l) {d : RegId} (hd : d ∈ l)
    (v : Word) : s.SameRegsBut (t.setReg d v) l := fun r hr => by
  have hne : r ≠ d := fun e => hr (e ▸ hd)
  rw [State.reg_setReg_of_ne t v hne, h r hr]

theorem State.SameMemory.refl (s : State) : s.SameMemory s := fun _ => rfl

theorem State.SameMemory.setReg {s t : State} (h : s.SameMemory t) (d : RegId) (v : Word) :
    s.SameMemory (t.setReg d v) := h

theorem State.SameDriver.refl (s : State) : s.SameDriver s := ⟨rfl, rfl, rfl, rfl, rfl, rfl⟩

theorem State.SameDriver.setReg {s t : State} (h : s.SameDriver t) (d : RegId) (v : Word) :
    s.SameDriver (t.setReg d v) := h

theorem completesWith_of_exec_setReg {i : Instr} {s : State} {d : RegId} {v : Word}
    (h : exec i s = .next (s.setReg d v)) : CompletesWith i s d v :=
  ⟨s.setReg d v, h, State.reg_setReg_self s d v, (State.SameRegsBut.refl s [d]).setReg (List.mem_singleton_self d) v,
    (State.SameMemory.refl s).setReg d v, (State.SameDriver.refl s).setReg d v, State.setReg_draws s d v⟩

/-- A jump completes with `pc` at its target (R202). -/
theorem completesAt_of_exec_jump {i : Instr} {s : State} {a : Word} (h : exec i s = .next (s.jump a)) :
    CompletesAt i s a := completesWith_of_exec_setReg h

/-- An instruction that changes nothing completes with `pc` at the advanced pc. -/
theorem completesAt_of_exec_unchanged {i : Instr} {s : State} (h : exec i s = .next s) :
    CompletesAt i s (s.reg .pc) :=
  ⟨s, h, rfl, State.SameRegsBut.refl s _, State.SameMemory.refl s, State.SameDriver.refl s, rfl⟩

/-- Raising a fault writes the driver state and the two latches of the fault, nothing else (R283). -/
theorem faults_of_exec_raise {i : Instr} {s : State} {f : Fault} (h : exec i s = raise f s) :
    Faults i s f.cause f.info :=
  ⟨s.takeFault f, h, rfl, rfl, rfl, State.reg_takeFault s f, fun _ => rfl, rfl, rfl, rfl, rfl⟩

-- ---------------------------------------------------------------- the stack

/-- The store of a push is inside memory exactly where SP is from 4 to MEM_SIZE: below 4 its address wraps to the top of
the 32-bit range, far above the largest memory (R142). -/
theorem State.pushAddr_inside_iff (s : State) : s.pushAddr.toNat + 4 ≤ s.memSize.bytes ↔
    4 ≤ (s.reg .sp).toNat ∧ (s.reg .sp).toNat ≤ s.memSize.bytes := by
  have hsize : s.memSize.bytes ≤ 8388608 := s.memSize.legal.2.1
  have haddr : s.pushAddr.toNat = (2 ^ 32 - 4 + (s.reg .sp).toNat) % 2 ^ 32 := BitVec.toNat_sub _ _
  omega

/-- What a push of `v` that answers `t` has done (R142). -/
structure Pushed (s : State) (v : Word) (t : State) : Prop where
  stored : HoldsWord t.mem s.pushAddr.toNat v
  outside : s.SameMemoryOutside t s.pushAddr.toNat
  sp : t.reg .sp = s.pushAddr
  regs : s.SameRegsBut t [.sp]
  driver : s.SameDriver t
  draws : t.draws = s.draws

/-- A push inside a canonical memory answers, and does what `Pushed` says. -/
theorem State.exists_pushed {s : State} (hw : s.mem.wf = true) (hin : s.pushAddr.toNat + 4 ≤ s.memSize.bytes)
    (v : Word) : ∃ t, s.push v = some t ∧ Pushed s v t := by
  refine ⟨_, (State.push_eq_some_iff s _ v).2 ⟨hin, rfl⟩, ?_⟩
  constructor
  case stored => exact holdsWord_writeBytes hw _ v
  case outside => exact fun a ha => Memory.readByte_writeBytes_outside _ _ (by simpa using ha)
  case sp => exact RegFile.get_set_self s.regs .sp s.pushAddr
  case regs => exact fun r hr => RegFile.get_set_of_ne _ _ (by simpa using hr)
  case driver => exact State.SameDriver.refl s
  case draws => rfl

/-- A pop inside memory takes the word at SP and raises SP by 4 (R142). -/
theorem State.pop_of_inside {s : State} (hin : (s.reg .sp).toNat + 4 ≤ s.memSize.bytes) :
    s.pop = some (wordAt s.mem (s.reg .sp).toNat, s.setReg .sp (s.reg .sp + 4)) :=
  (State.pop_eq_some_iff s _ _).2 ⟨hin, (wordAt_eq _ _).symm, rfl⟩

-- ---------------------------------------------------------------- CALL and RET

theorem exec_call_of_push {s t : State} (x : BitVec 24) (h : s.push (s.reg .pc) = some t) :
    exec (.call x) s = .next (t.jump (x.setWidth 32)) := by
  simp only [exec, execCall, h, addr24Operand]

theorem exec_call_of_push_none {s : State} (x : BitVec 24) (h : s.push (s.reg .pc) = none) :
    exec (.call x) s = raise (.outOfBounds s.pushAddr) s := by
  simp only [exec, execCall, h]

theorem exec_ret_of_pop {s t : State} {v : Word} (h : s.pop = some (v, t)) : exec .ret s = .next (t.jump v) := by
  simp only [exec, execRet, h]

theorem exec_ret_of_pop_none {s : State} (h : s.pop = none) : exec .ret s = raise (.outOfBounds (s.reg .sp)) s := by
  simp only [exec, execRet, h]

/-- A CALL is a push of the advanced pc and a jump: the jump adds `pc` to what the push has written (R191). -/
theorem completesStoring_call {s t : State} (x : BitVec 24) (hpush : s.push (s.reg .pc) = some t)
    (h : Pushed s (s.reg .pc) t) :
    CompletesStoring (.call x) s s.pushAddr (s.reg .pc) [.sp, .pc] (t.jump (x.setWidth 32)) := by
  have hregs : s.SameRegsBut t [.sp, .pc] := h.regs.mono (by simp)
  exact ⟨exec_call_of_push x hpush, h.stored, h.outside, hregs.setReg (by simp) _, h.driver.setReg .pc _, h.draws⟩

/-- Settles O49: `pushAddr_inside_iff` decides by SP whether the push of CALL is made or faults. -/
theorem callPushesTheReturnAddress : Obligations.CallPushesTheReturnAddress := by
  refine ⟨fun m w hop => decode_of_opcodeField (op := .call) hop, fun x s => ⟨?pushes, ?faults⟩⟩
  case pushes =>
    intro hw hlow hhigh
    have hin : s.pushAddr.toNat + 4 ≤ s.memSize.bytes := s.pushAddr_inside_iff.2 ⟨hlow, hhigh⟩
    obtain ⟨t, hpush, hpushed⟩ := State.exists_pushed hw hin (s.reg .pc)
    have hsp : (t.jump (x.setWidth 32)).reg .sp = s.pushAddr := by
      rw [State.reg_jump_of_ne t _ (by decide), hpushed.sp]
    exact ⟨_, completesStoring_call x hpush hpushed, hsp, State.jump_pc t _⟩
  case faults =>
    intro hsp
    have hout : s.memSize.bytes < s.pushAddr.toNat + 4 := by
      have := s.pushAddr_inside_iff
      omega
    exact faults_of_exec_raise (exec_call_of_push_none x ((State.push_eq_none_iff s _).2 hout))

/-- Settles O50: a pop inside memory gives the word that becomes `pc`, one outside gives the fault. -/
theorem retPopsThePc : Obligations.RetPopsThePc := by
  refine ⟨fun m w hop => decode_of_opcodeField (op := .ret) hop,
    fun s => ⟨fun hin => ?pops, fun hout => ?faults⟩⟩
  case pops =>
    have hregs : s.SameRegsBut (s.setReg .sp (s.reg .sp + 4)) [.sp, .pc] :=
      (State.SameRegsBut.refl s _).setReg (by simp) _
    have hmem : s.SameMemory (s.setReg .sp (s.reg .sp + 4)) := (State.SameMemory.refl s).setReg _ _
    have hdriver : s.SameDriver (s.setReg .sp (s.reg .sp + 4)) := (State.SameDriver.refl s).setReg _ _
    have hsp (v : Word) : ((s.setReg .sp (s.reg .sp + 4)).jump v).reg .sp = s.reg .sp + 4 := by
      rw [State.reg_jump_of_ne _ _ (by decide), State.reg_setReg_self]
    exact ⟨_, exec_ret_of_pop (State.pop_of_inside hin), State.jump_pc _ _, hsp _, hregs.setReg (by simp) _,
      hmem.setReg _ _, hdriver.setReg _ _, rfl⟩
  case faults =>
    exact faults_of_exec_raise (exec_ret_of_pop_none ((State.pop_eq_none_iff s).2 hout))

-- ---------------------------------------------------------------- the conditional jumps

section
variable (w : Word)

theorem conditionHolds_e_iff : conditionHolds .e w = true ↔ w.getLsbD 6 = true := Iff.rfl

theorem conditionHolds_ne_iff : conditionHolds .ne w = true ↔ w.getLsbD 6 = false := by
  simp [conditionHolds, getFlag, Flag.bit]

theorem conditionHolds_gt_iff :
    conditionHolds .gt w = true ↔ w.getLsbD 6 = false ∧ w.getLsbD 7 = false := by
  simp [conditionHolds, getFlag, Flag.bit]

theorem conditionHolds_ge_iff : conditionHolds .ge w = true ↔ w.getLsbD 7 = false := by
  simp [conditionHolds, getFlag, Flag.bit]

theorem conditionHolds_lt_iff :
    conditionHolds .lt w = true ↔ w.getLsbD 6 = false ∧ w.getLsbD 7 = true := by
  simp [conditionHolds, getFlag, Flag.bit]

theorem conditionHolds_le_iff :
    conditionHolds .le w = true ↔ w.getLsbD 6 = true ∨ w.getLsbD 7 = true := by
  simp [conditionHolds, getFlag, Flag.bit]

theorem conditionHolds_s_iff : conditionHolds .s w = true ↔ w.getLsbD 7 = true := Iff.rfl

theorem conditionHolds_co_iff :
    conditionHolds .co w = true ↔ w.getLsbD 0 = true ∨ w.getLsbD 11 = true := by
  simp [conditionHolds, getFlag, Flag.bit]

end

/-- A conditional jump whose condition is `p` completes at its target if `p` holds, else at the advanced pc (R193). -/
theorem completesAt_of_exec_jumpIf {i : Instr} {s : State} {c : Condition} {x : BitVec 24} {p : Prop} [Decidable p]
    (he : exec i s = jumpIf c x s) (hp : conditionHolds c (s.reg .flags) = true ↔ p) :
    CompletesAt i s (if p then x.setWidth 32 else s.reg .pc) := by
  by_cases h : p
  · rw [if_pos h]
    exact completesAt_of_exec_jump (by rw [he, jumpIf, if_pos (hp.2 h), addr24Operand])
  · rw [if_neg h]
    exact completesAt_of_exec_unchanged (by rw [he, jumpIf, if_neg (mt hp.1 h)])

/-- Settles O48: each jump is `jumpIf` of its condition, and the lemma of that condition says it in bits of FLAGS. -/
theorem conditionalJumpsReadTheirFlags : Obligations.ConditionalJumpsReadTheirFlags := by
  refine ⟨?decoded, ?executed⟩
  case decoded =>
    rintro m w x rfl
    exact ⟨decode_of_opcodeField (op := .je), decode_of_opcodeField (op := .jne),
      decode_of_opcodeField (op := .jgt), decode_of_opcodeField (op := .jge),
      decode_of_opcodeField (op := .jlt), decode_of_opcodeField (op := .jle),
      decode_of_opcodeField (op := .js), decode_of_opcodeField (op := .jco)⟩
  case executed =>
    rintro x s z n c v rfl rfl rfl rfl
    exact ⟨completesAt_of_exec_jumpIf rfl (conditionHolds_e_iff _),
      completesAt_of_exec_jumpIf rfl (conditionHolds_ne_iff _),
      completesAt_of_exec_jumpIf rfl (conditionHolds_gt_iff _),
      completesAt_of_exec_jumpIf rfl (conditionHolds_ge_iff _),
      completesAt_of_exec_jumpIf rfl (conditionHolds_lt_iff _),
      completesAt_of_exec_jumpIf rfl (conditionHolds_le_iff _),
      completesAt_of_exec_jumpIf rfl (conditionHolds_s_iff _),
      completesAt_of_exec_jumpIf rfl (conditionHolds_co_iff _)⟩

-- ---------------------------------------------------------------- JMP and the jump to itself

theorem exec_jmp (x : BitVec 24) (s : State) : exec (.jmp x) s = .next (s.jump (x.setWidth 32)) := rfl

/-- A step of a Ready core whose word decodes to `i` executes `i` with `pc` advanced (R81). -/
theorem step_of_decode {s : State} {iw : Word} {i : Instr} (hready : s.driver = .ready) (hfetch : s.fetch = some iw)
    (hdecode : decode s.flagIds iw = .ok i) : step s = exec i s.advancePc := by
  simp only [step, hready, hfetch, hdecode]

/-- A jump back to the instruction's own address undoes the advance of `pc`. -/
theorem State.jump_advancePc_self (s : State) : s.advancePc.jump (s.reg .pc) = s := by
  rw [State.jump, State.advancePc, State.setReg_setReg_self, State.setReg_reg_self]

/-- No run leaves a state that the step keeps. -/
theorem run_of_step_self {s : State} (h : step s = .next s) (n : Nat) : run n s = .next s := by
  induction n with
  | zero => rfl
  | succ n ih => simp only [run, h, ih, ite_self]

/-- A run has not ended exactly while the core is Ready with `pc` inside memory (R82, R314). -/
theorem State.runEnd_eq_none_iff (s : State) :
    s.runEnd = none ↔ s.driver = .ready ∧ (s.reg .pc).toNat < s.memSize.bytes := by
  cases h : s.driver <;> simp [State.runEnd, State.pcInside, h]

/-- Settles O47: JMP is `jump`; one to its own address is a fixed point of the step, which `run` cannot leave. -/
theorem jmpSetsPc : Obligations.JmpSetsPc := by
  refine ⟨fun m w hop => decode_of_opcodeField (op := .jmp) hop,
    fun x s => completesAt_of_exec_jump (exec_jmp x s), fun x s iw hready hfetch hdecode hself => ?selfJump⟩
  case selfJump =>
    have hstep : step s = .next s := by
      rw [step_of_decode hready hfetch hdecode, exec_jmp, hself, State.jump_advancePc_self]
    have hinside : (s.reg .pc).toNat < s.memSize.bytes := by
      obtain ⟨hbounds, -⟩ := (State.fetch_eq_some_iff s iw).1 hfetch
      omega
    exact ⟨hstep, s.runEnd_eq_none_iff.2 ⟨hready, hinside⟩, run_of_step_self hstep⟩

end Sys2Proof.Machine
end

section
/-! PROOFS of the family 45_flags_halt.md: SETF, CLRF and HALT (R221 to R223). -/

namespace Sys2Proof

-- ---------------------------------------------------------------- the flag id and the bit of a flag

theorem decodeF_of_flagOfId {m : FlagIdMap} {w : Word} {f : Flag} (mk : Flag → Instr)
    (h : flagOfId m (loField w) = some f) : decodeF m mk w = .ok (mk f) := by
  simp only [decodeF, flagField, h]

theorem decodeF_of_unmapped {m : FlagIdMap} {w : Word} (mk : Flag → Instr) (h : flagOfId m (loField w) = none) :
    decodeF m mk w = .error (.invalidOperand w) := by
  simp only [decodeF, flagField, h]

/-- A table of the flags with their bits gives each flag the bit of R27. -/
theorem Flag.eq_bit_of_mem_table {f : Flag} {k : Nat} (h : (f, k) ∈ Flag.all.map fun g => (g, g.bit)) : k = f.bit := by
  obtain ⟨g, -, hg⟩ := List.mem_map.1 h
  obtain ⟨rfl, rfl⟩ := Prod.mk.inj hg
  rfl

end Sys2Proof

namespace Sys2Proof.Machine

-- ---------------------------------------------------------------- SETF and CLRF

/-- SETF and CLRF complete by a write of FLAGS with their one flag put (R221, R222). -/
theorem completesWith_setf (f : Flag) (s : State) :
    CompletesWith (.setf f) s .flags (putFlag f true (s.reg .flags)) := completesWith_of_exec_setReg rfl

theorem completesWith_clrf (f : Flag) (s : State) :
    CompletesWith (.clrf f) s .flags (putFlag f false (s.reg .flags)) := completesWith_of_exec_setReg rfl

/-- Settles O52: the flag field decides the decoding; the execution writes FLAGS with one flag put, and
`getLsbD_putFlag` says which bit that is. -/
theorem setfAndClrfWriteOneFlag : Obligations.SetfAndClrfWriteOneFlag := by
  refine ⟨fun m w f hf => ⟨fun hop => ?setf, fun hop => ?clrf⟩, fun m w hnone hop => ?unmapped,
    fun f k hk s i v hi => ?executed⟩
  case setf => exact (decode_of_opcodeField (op := .setf) hop).trans (decodeF_of_flagOfId .setf hf)
  case clrf => exact (decode_of_opcodeField (op := .clrf) hop).trans (decodeF_of_flagOfId .clrf hf)
  case unmapped =>
    rcases hop with hop | hop
    · exact (decode_of_opcodeField (op := .setf) hop).trans (decodeF_of_unmapped .setf hnone)
    · exact (decode_of_opcodeField (op := .clrf) hop).trans (decodeF_of_unmapped .clrf hnone)
  case executed =>
    have hbit : k = f.bit := Flag.eq_bit_of_mem_table hk
    have hwrite : CompletesWith i s .flags (putFlag f v (s.reg .flags)) := by
      obtain ⟨rfl, rfl⟩ | ⟨rfl, rfl⟩ := hi
      · exact completesWith_setf f s
      · exact completesWith_clrf f s
    obtain ⟨t, hexec, hflags, hframe⟩ := hwrite
    refine ⟨t, hexec, ?_, fun j hj => ?_, hframe⟩
    · rw [hflags, getLsbD_putFlag, if_pos hbit]
    · rw [hflags, getLsbD_putFlag, if_neg (hbit ▸ hj)]

-- ---------------------------------------------------------------- HALT and the Halted core

theorem exec_halt (s : State) : exec .halt s = .next { s with driver := .halted } := rfl

/-- A step of a Halted core raises `already_halted` and does nothing else (R290). -/
theorem step_of_halted {s : State} (h : s.driver = .halted) : step s = .next { s with alreadyHalted := true } := by
  simp only [step, h, haltedStep]

/-- `run` executes nothing from a state that does not meet its guard (R82). -/
theorem run_of_not_running {s : State} (h : s.running = false) (n : Nat) : run n s = .next s := by
  cases n with
  | zero => rfl
  | succ n => simp only [run, h, Bool.false_eq_true, if_false]

theorem State.running_of_halted {s : State} (h : s.driver = .halted) : s.running = false := by
  simp [State.running, h]

theorem coreRun_succ_of_step {s t : State} (h : step s = .next t) (n : Nat) :
    (Host.Core.run Sys2Proof.core (n + 1) s : Result) = Host.Core.run Sys2Proof.core n t := by
  have hcore : Sys2Proof.core.step s = .next t := h
  simp only [Host.Core.run, hcore]

/-- However many steps a Halted core is given, it is Halted after them: the step keeps the driver state. -/
theorem exists_coreRun_of_halted (n : Nat) : ∀ {s : State}, s.driver = .halted →
    ∃ u, (Host.Core.run Sys2Proof.core n s : Result) = .next u ∧ u.driver = .halted := by
  induction n with
  | zero => exact fun {s} h => ⟨s, rfl, h⟩
  | succ n ih =>
    intro s h
    obtain ⟨u, hrun, hu⟩ := ih (s := { s with alreadyHalted := true }) h
    exact ⟨u, (coreRun_succ_of_step (step_of_halted h) n).trans hrun, hu⟩

/-- Settles O53: the state HALT leaves is Halted, so `run` is at its end there and every further step is one of a
Halted core. -/
theorem haltStopsTheCore : Obligations.HaltStopsTheCore := by
  have hdecode (m : FlagIdMap) (w : Word) (hop : opcodeField w = 0xFF) : decode m w = .ok .halt :=
    decode_of_opcodeField (op := .halt) hop
  refine ⟨hdecode, fun s => ?executed, fun s iw hready hfetch hop => ?stepped⟩
  case executed =>
    have hhalted : ({ s with driver := .halted } : State).driver = .halted := rfl
    exact ⟨_, exec_halt s, hhalted, fun _ => rfl, State.SameMemory.refl s, rfl, rfl, rfl, rfl, rfl, rfl,
      run_of_not_running (State.running_of_halted hhalted),
      ⟨_, step_of_halted hhalted, rfl, hhalted, fun _ => rfl, State.SameMemory.refl s, rfl, rfl⟩,
      fun n => exists_coreRun_of_halted n hhalted⟩
  case stepped =>
    have hstep : step s = .next { s.advancePc with driver := .halted } := by
      rw [step_of_decode hready hfetch (hdecode _ _ hop), exec_halt]
    have hregs : s.SameRegsBut s.advancePc [.pc] := (State.SameRegsBut.refl s _).setReg (by simp) _
    exact ⟨_, hstep, rfl, s.advancePc_pc, hregs, State.SameMemory.refl s⟩

end Sys2Proof.Machine
end

section
/-! PROOFS of the family 30_encoding.md: which word stands for which instruction (R80 to R105). -/

namespace Sys2Proof

-- ---------------------------------------------------------------- what each format answers

/-- A register field names a register, or it is above 13 and the word is rejected (R84). -/
theorem regField_cases (iw : Word) (c : Byte) :
    (∃ r : RegId, c = r.code ∧ regField iw c = .ok r) ∨
      (13 < c.toNat ∧ regField iw c = .error (.invalidOperand iw)) := by
  cases h : RegId.ofCode c with
  | some r => exact .inl ⟨r, (RegId.code_of_ofCode h).symm, by simp only [regField, h]⟩
  | none => exact .inr ⟨(RegId.ofCode_eq_none_iff c).1 h, by simp only [regField, h]⟩

theorem RegId.code_le (r : RegId) : ¬ 13 < r.code.toNat := by cases r <;> decide

section
variable {m : FlagIdMap} {w : Word}

theorem decodeR_cases (mk : RegId → Instr) (w : Word) :
    (∃ d : RegId, hiField w = d.code ∧ decodeR mk w = .ok (mk d)) ∨
      (13 < (hiField w).toNat ∧ decodeR mk w = .error (.invalidOperand w)) := by
  obtain ⟨d, hd, h⟩ | ⟨hd, h⟩ := regField_cases w (hiField w)
  · exact .inl ⟨d, hd, by simp only [decodeR, h]⟩
  · exact .inr ⟨hd, by simp only [decodeR, h]⟩

theorem decodeRI_cases (mk : RegId → BitVec 16 → Instr) (w : Word) :
    (∃ d : RegId, hiField w = d.code ∧ decodeRI mk w = .ok (mk d (immField w))) ∨
      (13 < (hiField w).toNat ∧ decodeRI mk w = .error (.invalidOperand w)) := decodeR_cases _ w

theorem decodeRR_cases (mk : RegId → RegId → Instr) (w : Word) :
    (∃ a b : RegId, hiField w = a.code ∧ midField w = b.code ∧ decodeRR mk w = .ok (mk a b)) ∨
      ((13 < (hiField w).toNat ∨ 13 < (midField w).toNat) ∧ decodeRR mk w = .error (.invalidOperand w)) := by
  obtain ⟨a, ha, h⟩ | ⟨ha, h⟩ := regField_cases w (hiField w)
  · obtain ⟨b, hb, h'⟩ | ⟨hb, h'⟩ := regField_cases w (midField w)
    · exact .inl ⟨a, b, ha, hb, by simp only [decodeRR, h, h']⟩
    · exact .inr ⟨.inr hb, by simp only [decodeRR, h, h']⟩
  · exact .inr ⟨.inl ha, by simp only [decodeRR, h]⟩

theorem decodeRM_of_set (mkR : RegId → RegId → Instr) (mkI : RegId → BitVec 16 → Instr) (h : modeBit w = true) :
    decodeRM mkR mkI w = decodeRR mkR w := if_pos h

theorem decodeRM_of_clear (mkR : RegId → RegId → Instr) (mkI : RegId → BitVec 16 → Instr) (h : modeBit w = false) :
    decodeRM mkR mkI w = decodeRI mkI w := if_neg (by simp [h])

theorem decodeAM_cases_of_set (mkR : BitVec 8 → RegId → Instr) (mkI : BitVec 8 → BitVec 16 → Instr)
    (h : modeBit w = true) :
    (∃ s : RegId, midField w = s.code ∧ decodeAM mkR mkI w = .ok (mkR (hiField w) s)) ∨
      (13 < (midField w).toNat ∧ decodeAM mkR mkI w = .error (.invalidOperand w)) := by
  obtain ⟨s, hs, h'⟩ | ⟨hs, h'⟩ := regField_cases w (midField w)
  · exact .inl ⟨s, hs, by simp only [decodeAM, h, h', if_true]⟩
  · exact .inr ⟨hs, by simp only [decodeAM, h, h', if_true]⟩

theorem decodeAM_of_clear (mkR : BitVec 8 → RegId → Instr) (mkI : BitVec 8 → BitVec 16 → Instr)
    (h : modeBit w = false) : decodeAM mkR mkI w = .ok (mkI (hiField w) (immField w)) := if_neg (by simp [h])

theorem decodePM_of_set (mkR : RegId → Instr) (mkI : BitVec 16 → Instr) (h : modeBit w = true) :
    decodePM mkR mkI w = decodeR mkR w := if_pos h

theorem decodePM_of_clear (mkR : RegId → Instr) (mkI : BitVec 16 → Instr) (h : modeBit w = false) :
    decodePM mkR mkI w = .ok (mkI (immField w)) := if_neg (by simp [h])

theorem decodeR_of_code (mk : RegId → Instr) {d : RegId} (hd : hiField w = d.code) : decodeR mk w = .ok (mk d) := by
  simp only [decodeR, hd, regField_code]

theorem decodeRR_of_code (mk : RegId → RegId → Instr) {a b : RegId} (ha : hiField w = a.code)
    (hb : midField w = b.code) : decodeRR mk w = .ok (mk a b) := by
  simp only [decodeRR, ha, hb, regField_code]

theorem decodeAM_of_code (mkR : BitVec 8 → RegId → Instr) (mkI : BitVec 8 → BitVec 16 → Instr) {s : RegId}
    (hm : modeBit w = true) (hs : midField w = s.code) : decodeAM mkR mkI w = .ok (mkR (hiField w) s) := by
  simp only [decodeAM, hm, hs, regField_code, if_true]

theorem decodeF_cases (m : FlagIdMap) (mk : Flag → Instr) (w : Word) :
    (∃ f, flagOfId m (loField w) = some f ∧ decodeF m mk w = .ok (mk f)) ∨
      (flagOfId m (loField w) = none ∧ decodeF m mk w = .error (.invalidOperand w)) := by
  cases h : flagOfId m (loField w) with
  | some f => exact .inl ⟨f, rfl, decodeF_of_flagOfId mk h⟩
  | none => exact .inr ⟨rfl, decodeF_of_unmapped mk h⟩

end

-- ---------------------------------------------------------------- the word of an instruction

/-- The opcode of the row of an instruction (R86). -/
def Instr.opcode : Instr → Opcode
  | .movi _ _ => .movi | .movwR _ _ | .movwI _ _ => .movw | .lodi _ _ => .lodi | .lodw _ _ => .lodw
  | .stri _ _ => .stri | .strwR _ _ | .strwI _ _ => .strw
  | .pushR _ | .pushI _ => .push | .pop _ => .pop | .xcgh _ _ => .xcgh
  | .addwR _ _ | .addwI _ _ => .addw | .subwR _ _ | .subwI _ _ => .subw | .mulR _ _ | .mulI _ _ => .mul
  | .inc _ => .inc | .dec _ => .dec | .neg _ => .neg
  | .not _ => .not | .andR _ _ | .andI _ _ => .and | .orR _ _ | .orI _ _ => .or | .xorR _ _ | .xorI _ _ => .xor
  | .cmpwR _ _ | .cmpwI _ _ => .cmpw
  | .jmp _ => .jmp | .call _ => .call | .ret => .ret
  | .je _ => .je | .jne _ => .jne | .jgt _ => .jgt | .jge _ => .jge
  | .jlt _ => .jlt | .jle _ => .jle | .js _ => .js | .jco _ => .jco
  | .setf _ => .setf | .clrf _ => .clrf | .halt => .halt

/-- The fields of a word carry the operands of an instruction, format by format (R91 to R101). -/
def Carries (m : FlagIdMap) (w : Word) : Instr → Prop
  | .movi d imm | .lodi d imm | .lodw d imm => hiField w = d.code ∧ immField w = imm
  | .movwR a b | .addwR a b | .subwR a b | .mulR a b | .andR a b | .orR a b | .xorR a b | .cmpwR a b =>
    modeBit w = true ∧ hiField w = a.code ∧ midField w = b.code
  | .movwI d imm | .addwI d imm | .subwI d imm | .mulI d imm | .andI d imm | .orI d imm | .xorI d imm
  | .cmpwI d imm => modeBit w = false ∧ hiField w = d.code ∧ immField w = imm
  | .stri a imm => hiField w = a ∧ immField w = imm
  | .strwR a s => modeBit w = true ∧ hiField w = a ∧ midField w = s.code
  | .strwI a imm => modeBit w = false ∧ hiField w = a ∧ immField w = imm
  | .pushR s => modeBit w = true ∧ hiField w = s.code
  | .pushI imm => modeBit w = false ∧ immField w = imm
  | .pop d | .inc d | .dec d | .neg d | .not d => hiField w = d.code
  | .xcgh a b => hiField w = a.code ∧ midField w = b.code
  | .jmp t | .call t | .je t | .jne t | .jgt t | .jge t | .jlt t | .jle t | .js t | .jco t => targetField w = t
  | .ret | .halt => True
  | .setf f | .clrf f => flagOfId m (loField w) = some f

/-- What the decoder answers for a word of a known opcode carries the operands of that word. -/
theorem carries_of_decodeOperands {m : FlagIdMap} {op : Opcode} {w : Word} {i : Instr}
    (h : decodeOperands m op w = .ok i) : i.opcode = op ∧ Carries m w i := by
  cases op
  case pop | inc | dec | neg | not =>
    obtain ⟨d, hd, h'⟩ | ⟨-, h'⟩ := decodeR_cases _ w <;> cases h.symm.trans h'
    exact ⟨rfl, hd⟩
  case movi | lodi | lodw =>
    obtain ⟨d, hd, h'⟩ | ⟨-, h'⟩ := decodeRI_cases _ w <;> cases h.symm.trans h'
    exact ⟨rfl, hd, rfl⟩
  case xcgh =>
    obtain ⟨a, b, ha, hb, h'⟩ | ⟨-, h'⟩ := decodeRR_cases _ w <;> cases h.symm.trans h'
    exact ⟨rfl, ha, hb⟩
  case movw | addw | subw | mul | and | or | xor | cmpw =>
    cases hm : modeBit w
    case true =>
      obtain ⟨a, b, ha, hb, h'⟩ | ⟨-, h'⟩ := decodeRR_cases _ w <;>
        cases h.symm.trans ((decodeRM_of_set _ _ hm).trans h')
      exact ⟨rfl, hm, ha, hb⟩
    case false =>
      obtain ⟨d, hd, h'⟩ | ⟨-, h'⟩ := decodeRI_cases _ w <;>
        cases h.symm.trans ((decodeRM_of_clear _ _ hm).trans h')
      exact ⟨rfl, hm, hd, rfl⟩
  case stri =>
    cases h
    exact ⟨rfl, rfl, rfl⟩
  case strw =>
    cases hm : modeBit w
    case true =>
      obtain ⟨s, hs, h'⟩ | ⟨-, h'⟩ := decodeAM_cases_of_set _ _ hm <;> cases h.symm.trans h'
      exact ⟨rfl, hm, rfl, hs⟩
    case false =>
      cases h.symm.trans (decodeAM_of_clear _ _ hm)
      exact ⟨rfl, hm, rfl, rfl⟩
  case push =>
    cases hm : modeBit w
    case true =>
      obtain ⟨s, hs, h'⟩ | ⟨-, h'⟩ := decodeR_cases _ w <;> cases h.symm.trans ((decodePM_of_set _ _ hm).trans h')
      exact ⟨rfl, hm, hs⟩
    case false =>
      cases h.symm.trans (decodePM_of_clear _ _ hm)
      exact ⟨rfl, hm, rfl⟩
  case jmp | call | je | jne | jgt | jge | jlt | jle | js | jco =>
    cases h
    exact ⟨rfl, rfl⟩
  case ret | halt =>
    cases h
    exact ⟨rfl, trivial⟩
  case setf | clrf =>
    obtain ⟨f, hf, h'⟩ | ⟨-, h'⟩ := decodeF_cases m _ w <;> cases h.symm.trans h'
    exact ⟨rfl, hf⟩

/-- A word that carries the operands of an instruction is decoded to it by the format of its opcode. -/
theorem decodeOperands_of_carries {m : FlagIdMap} {w : Word} {i : Instr} (h : Carries m w i) :
    decodeOperands m i.opcode w = .ok i := by
  cases i
  case movi | lodi | lodw =>
    obtain ⟨hd, rfl⟩ := h
    exact decodeR_of_code _ hd
  case movwR | addwR | subwR | mulR | andR | orR | xorR | cmpwR =>
    obtain ⟨hm, ha, hb⟩ := h
    exact (decodeRM_of_set _ _ hm).trans (decodeRR_of_code _ ha hb)
  case movwI | addwI | subwI | mulI | andI | orI | xorI | cmpwI =>
    obtain ⟨hm, hd, rfl⟩ := h
    exact (decodeRM_of_clear _ _ hm).trans (decodeR_of_code _ hd)
  case stri =>
    obtain ⟨rfl, rfl⟩ := h
    rfl
  case strwR =>
    obtain ⟨hm, rfl, hs⟩ := h
    exact decodeAM_of_code _ _ hm hs
  case strwI =>
    obtain ⟨hm, rfl, rfl⟩ := h
    exact decodeAM_of_clear _ _ hm
  case pushR =>
    obtain ⟨hm, hs⟩ := h
    exact (decodePM_of_set _ _ hm).trans (decodeR_of_code _ hs)
  case pushI =>
    obtain ⟨hm, rfl⟩ := h
    exact decodePM_of_clear _ _ hm
  case pop | inc | dec | neg | not => exact decodeR_of_code _ h
  case xcgh => exact decodeRR_of_code _ h.1 h.2
  case jmp | call | je | jne | jgt | jge | jlt | jle | js | jco =>
    cases h
    rfl
  case ret | halt => rfl
  case setf | clrf => exact decodeF_of_flagOfId _ h

/-- A word decodes to an instruction exactly if it has the opcode of the instruction's row and carries its operands. -/
theorem decode_eq_ok_iff (m : FlagIdMap) (w : Word) (i : Instr) :
    decode m w = .ok i ↔ opcodeField w = i.opcode.byte ∧ Carries m w i := by
  constructor
  · intro h
    cases hop : Opcode.ofByte (opcodeField w) with
    | none => simp [decode, hop] at h
    | some op =>
      obtain ⟨rfl, hi⟩ := carries_of_decodeOperands (by simpa only [decode, hop] using h)
      exact ⟨(Opcode.byte_of_ofByte hop).symm, hi⟩
  · rintro ⟨hop, hi⟩
    rw [decode_of_opcodeField hop, decodeOperands_of_carries hi]

-- ---------------------------------------------------------------- words and their fields

/-- Clearing the bits of a mask keeps every field that the mask leaves alone. -/
theorem extractLsb'_and_not (w : Word) {g : Word} {a n : Nat} (hg : g.extractLsb' a n = 0) :
    (w &&& ~~~g).extractLsb' a n = w.extractLsb' a n := by
  apply BitVec.eq_of_getLsbD_eq
  intro i hi
  have hbit : g.getLsbD (a + i) = false := by
    simpa [hi] using congrArg (fun x => x.getLsbD i) hg
  simp only [BitVec.getLsbD_extractLsb', BitVec.getLsbD_and, BitVec.getLsbD_not, hbit]
  by_cases h32 : a + i < 32
  · simp [h32]
  · simp [BitVec.getLsbD_of_ge w (a + i) (by omega)]

/-- Words that agree outside a mask agree in every field that the mask leaves alone. -/
theorem extractLsb'_eq_of_masked {w w' g : Word} {a n : Nat} (h : w' &&& ~~~g = w &&& ~~~g)
    (hg : g.extractLsb' a n = 0) : w'.extractLsb' a n = w.extractLsb' a n := by
  rw [← extractLsb'_and_not w' hg, h, extractLsb'_and_not w hg]

theorem modeBit_eq_of_masked {w w' g : Word} (h : w' &&& ~~~g = w &&& ~~~g) (hg : g.extractLsb' 0 1 = 0) :
    modeBit w' = modeBit w := by
  have hbit := congrArg (fun x => x.getLsbD 0) (extractLsb'_eq_of_masked h hg)
  simpa [modeBit] using hbit

/-- A word is its four bytes. -/
theorem packBytes_of_fields {w : Word} {op : Opcode} {hi mid lo : Byte} (ho : opcodeField w = op.byte)
    (hh : hiField w = hi) (hm : midField w = mid) (hl : loField w = lo) : packBytes op hi mid lo = w := by
  subst hh hm hl
  rw [packBytes, ← ho]
  apply BitVec.eq_of_getLsbD_eq
  intro i hi
  simp only [opcodeField, hiField, midField, loField, BitVec.getLsbD_append, BitVec.getLsbD_extractLsb']
  grind

theorem packImm_of_fields {w : Word} {op : Opcode} {hi : Byte} {imm : BitVec 16} (ho : opcodeField w = op.byte)
    (hh : hiField w = hi) (himm : immField w = imm) : packImm op hi imm = w := by
  subst hh himm
  rw [packImm, ← ho]
  apply BitVec.eq_of_getLsbD_eq
  intro i hi
  simp only [opcodeField, hiField, immField, BitVec.getLsbD_append, BitVec.getLsbD_extractLsb']
  grind

theorem packTarget_of_fields {w : Word} {op : Opcode} {t : BitVec 24} (ho : opcodeField w = op.byte)
    (ht : targetField w = t) : packTarget op t = w := by
  subst ht
  rw [packTarget, ← ho]
  apply BitVec.eq_of_getLsbD_eq
  intro i hi
  simp only [opcodeField, targetField, BitVec.getLsbD_append, BitVec.getLsbD_extractLsb']
  grind

theorem evenImm_immField {w : Word} (h : modeBit w = false) : evenImm (immField w) = true := by
  simpa [evenImm, immField, modeBit] using h

theorem modeBit_packImm_of_evenImm {imm : BitVec 16} (op : Opcode) (hi : Byte) (h : evenImm imm = true) :
    modeBit (packImm op hi imm) = false := by
  rw [modeBit_packImm]
  simpa [evenImm] using h

/-- A mask that covers a field clears it. -/
theorem extractLsb'_and_not_of_covered (w : Word) {g : Word} {a n : Nat} (hg : (~~~g).extractLsb' a n = 0) :
    (w &&& ~~~g).extractLsb' a n = 0 := by
  rw [BitVec.extractLsb'_and, hg]
  exact BitVec.and_zero

/-- With the mode bit set, clearing bits 7 to 1 leaves the byte 1 of a register form (R90). -/
theorem loField_and_of_modeBit {w g : Word} (h : modeBit w = true) (hg : loField (~~~g) = 1) :
    loField (w &&& ~~~g) = 1 := by
  have hbyte : ∀ b : Byte, b.getLsbD 0 = true → b &&& 1 = 1 := by decide +kernel
  have hcut : loField (w &&& ~~~g) = loField w &&& loField (~~~g) := BitVec.extractLsb'_and
  rw [hcut, hg, hbyte _ (by rwa [← Machine.modeBit_eq_loField])]

-- ---------------------------------------------------------------- encoding

namespace Machine

/-- A decoded instruction is well formed: a word with bit 0 clear has an even immediate (R90). -/
theorem wellFormed_of_carries {m : FlagIdMap} {w : Word} {i : Instr} (h : Carries m w i) : i.wellFormed = true := by
  cases i
  case movwI | addwI | subwI | mulI | andI | orI | xorI | cmpwI | strwI =>
    obtain ⟨hm, -, rfl⟩ := h
    exact evenImm_immField hm
  case pushI =>
    obtain ⟨hm, rfl⟩ := h
    exact evenImm_immField hm
  all_goals rfl

-- The words of the formats that leave bits unused (R92 to R101), without those bits.

section
variable {w : Word} {op : Opcode} (ho : opcodeField w = op.byte)
include ho

theorem packBytes_eq_of_registerForm {a b : Byte} (hm : modeBit w = true) (ha : hiField w = a)
    (hb : midField w = b) : packBytes op a b 1 = w &&& ~~~0x000000FE := by
  refine packBytes_of_fields ?_ ?_ ?_ (loField_and_of_modeBit hm (by decide))
  · exact (extractLsb'_and_not w (by decide)).trans ho
  · exact (extractLsb'_and_not w (by decide)).trans ha
  · exact (extractLsb'_and_not w (by decide)).trans hb

theorem packBytes_eq_of_pushRegister {a : Byte} (hm : modeBit w = true) (ha : hiField w = a) :
    packBytes op a 0 1 = w &&& ~~~0x0000FFFE := by
  refine packBytes_of_fields ?_ ?_ (extractLsb'_and_not_of_covered w (by decide)) (loField_and_of_modeBit hm (by decide))
  · exact (extractLsb'_and_not w (by decide)).trans ho
  · exact (extractLsb'_and_not w (by decide)).trans ha

theorem packImm_eq_of_pushImmediate {imm : BitVec 16} (himm : immField w = imm) :
    packImm op 0 imm = w &&& ~~~0x00FF0000 := by
  refine packImm_of_fields ?_ (extractLsb'_and_not_of_covered w (by decide)) ?_
  · exact (extractLsb'_and_not w (by decide)).trans ho
  · exact (extractLsb'_and_not w (by decide)).trans himm

theorem packBytes_eq_of_oneRegister {a : Byte} (ha : hiField w = a) :
    packBytes op a 0 0 = w &&& ~~~0x0000FFFF := by
  refine packBytes_of_fields ?_ ?_ (extractLsb'_and_not_of_covered w (by decide))
    (extractLsb'_and_not_of_covered w (by decide))
  · exact (extractLsb'_and_not w (by decide)).trans ho
  · exact (extractLsb'_and_not w (by decide)).trans ha

theorem packBytes_eq_of_twoRegisters {a b : Byte} (ha : hiField w = a) (hb : midField w = b) :
    packBytes op a b 0 = w &&& ~~~0x000000FF := by
  refine packBytes_of_fields ?_ ?_ ?_ (extractLsb'_and_not_of_covered w (by decide))
  · exact (extractLsb'_and_not w (by decide)).trans ho
  · exact (extractLsb'_and_not w (by decide)).trans ha
  · exact (extractLsb'_and_not w (by decide)).trans hb

theorem packBytes_eq_of_noOperand : packBytes op 0 0 0 = w &&& ~~~0x00FFFFFF :=
  packBytes_of_fields ((extractLsb'_and_not w (by decide)).trans ho) (extractLsb'_and_not_of_covered w (by decide))
    (extractLsb'_and_not_of_covered w (by decide)) (extractLsb'_and_not_of_covered w (by decide))

theorem packBytes_eq_of_flagId {id : Byte} (hid : loField w = id) : packBytes op 0 0 id = w &&& ~~~0x00FFFF00 :=
  packBytes_of_fields ((extractLsb'_and_not w (by decide)).trans ho) (extractLsb'_and_not_of_covered w (by decide))
    (extractLsb'_and_not_of_covered w (by decide)) ((extractLsb'_and_not w (by decide)).trans hid)

end

theorem and_not_zero (w : Word) : w &&& ~~~0 = w := BitVec.and_allOnes

/-- The canonical word of a decoded instruction without a flag is the decoded word without its ignored bits (R105). -/
theorem encode_of_carries {m : FlagIdMap} {w : Word} {i : Instr} (ho : opcodeField w = i.opcode.byte)
    (h : Carries m w i) (hf : namedFlag i = none) : encode m i = some (w &&& ~~~(ignoredBits i)) := by
  have hwf := wellFormed_of_carries h
  cases i
  case movi | lodi | lodw | stri =>
    obtain ⟨hd, himm⟩ := h
    exact congrArg some ((packImm_of_fields ho hd himm).trans (and_not_zero w).symm)
  case movwI | addwI | subwI | mulI | andI | orI | xorI | cmpwI | strwI =>
    obtain ⟨-, hd, himm⟩ := h
    exact (if_pos hwf).trans (congrArg some ((packImm_of_fields ho hd himm).trans (and_not_zero w).symm))
  case movwR | addwR | subwR | mulR | andR | orR | xorR | cmpwR | strwR =>
    obtain ⟨hm, ha, hb⟩ := h
    exact congrArg some (packBytes_eq_of_registerForm ho hm ha hb)
  case pushI =>
    obtain ⟨-, himm⟩ := h
    exact (if_pos hwf).trans (congrArg some (packImm_eq_of_pushImmediate ho himm))
  case pushR =>
    obtain ⟨hm, hs⟩ := h
    exact congrArg some (packBytes_eq_of_pushRegister ho hm hs)
  case pop | inc | dec | neg | not => exact congrArg some (packBytes_eq_of_oneRegister ho h)
  case xcgh =>
    obtain ⟨ha, hb⟩ := h
    exact congrArg some (packBytes_eq_of_twoRegisters ho ha hb)
  case jmp | call | je | jne | jgt | jge | jlt | jle | js | jco =>
    exact congrArg some ((packTarget_of_fields ho h).trans (and_not_zero w).symm)
  case ret | halt => exact congrArg some (packBytes_eq_of_noOperand ho)
  case setf | clrf => cases hf

/-- A flag that some id selects has an id to be encoded with (R234). -/
theorem exists_idOfFlag {m : FlagIdMap} {f : Flag} {id : BitVec 8} (h : flagOfId m id = some f) :
    ∃ id', idOfFlag m f = some id' := by
  obtain ⟨p, hp, -⟩ := Option.map_eq_some_iff.1 h
  have hid : p.1 = id := by simpa using List.find?_some hp
  refine Option.isSome_iff_exists.1 (List.find?_isSome.2 ⟨id, ?_, by simp [h]⟩)
  exact List.mem_map.2 ⟨p, List.mem_of_find?_eq_some hp, hid⟩

theorem packFlag_of_idOfFlag {m : FlagIdMap} {f : Flag} {id : BitVec 8} (op : Opcode) (h : idOfFlag m f = some id) :
    packFlag m op f = some (packBytes op 0 0 id) := by
  simp only [packFlag, h]

/-- Every word that encodes an instruction carries its opcode and its operands. -/
theorem carries_of_encode {m : FlagIdMap} {i : Instr} {w : Word} (h : encode m i = some w) :
    opcodeField w = i.opcode.byte ∧ Carries m w i := by
  have hwf : i.wellFormed = true := by
    by_contra hno
    exact absurd ((if_neg hno).symm.trans h) (by simp)
  replace h := (if_pos hwf).symm.trans h
  cases i
  case setf | clrf => exact packFlag_eq_some h
  all_goals cases h
  case movi | lodi | lodw | stri =>
    exact ⟨opcodeField_packImm _ _ _, hiField_packImm _ _ _, immField_packImm _ _ _⟩
  case movwI | addwI | subwI | mulI | andI | orI | xorI | cmpwI | strwI =>
    exact ⟨opcodeField_packImm _ _ _, modeBit_packImm_of_evenImm _ _ hwf, hiField_packImm _ _ _,
      immField_packImm _ _ _⟩
  case pushI =>
    exact ⟨opcodeField_packImm _ _ _, modeBit_packImm_of_evenImm _ _ hwf, immField_packImm _ _ _⟩
  case movwR | addwR | subwR | mulR | andR | orR | xorR | cmpwR | strwR =>
    exact ⟨opcodeField_packBytes _ _ _ _, modeBit_packBytes _ _ _ _, hiField_packBytes _ _ _ _,
      midField_packBytes _ _ _ _⟩
  case pushR =>
    exact ⟨opcodeField_packBytes _ _ _ _, modeBit_packBytes _ _ _ _, hiField_packBytes _ _ _ _⟩
  case pop | inc | dec | neg | not => exact ⟨opcodeField_packBytes _ _ _ _, hiField_packBytes _ _ _ _⟩
  case xcgh => exact ⟨opcodeField_packBytes _ _ _ _, hiField_packBytes _ _ _ _, midField_packBytes _ _ _ _⟩
  case jmp | call | je | jne | jgt | jge | jlt | jle | js | jco =>
    exact ⟨opcodeField_packTarget _ _, targetField_packTarget _ _⟩
  case ret | halt => exact ⟨opcodeField_packBytes _ _ _ _, trivial⟩

/-- The round trip: every word that encodes an instruction decodes to it (R105). -/
theorem decode_of_encode {m : FlagIdMap} {i : Instr} {w : Word} (h : encode m i = some w) : decode m w = .ok i :=
  (decode_eq_ok_iff m w i).2 (carries_of_encode h)

/-- A well-formed instruction whose flag, if it names one, has an id is encoded. -/
theorem exists_encode {m : FlagIdMap} {i : Instr} (hwf : i.wellFormed = true)
    (hflag : ∀ f, namedFlag i = some f → ∃ id, flagOfId m id = some f) : ∃ w, encode m i = some w := by
  cases i
  case setf f | clrf f =>
    obtain ⟨id, hid⟩ := hflag f rfl
    obtain ⟨id', hid'⟩ := exists_idOfFlag hid
    exact ⟨_, packFlag_of_idOfFlag _ hid'⟩
  all_goals exact ⟨_, if_pos hwf⟩

theorem packFlag_and_not {m : FlagIdMap} {op : Opcode} {f : Flag} {w : Word} (h : packFlag m op f = some w) :
    w &&& ~~~0x00FFFF00 = w := by
  cases hid : idOfFlag m f with
  | none => simp [packFlag, hid] at h
  | some id =>
    cases (packFlag_of_idOfFlag op hid).symm.trans h
    exact (packBytes_eq_of_flagId (opcodeField_packBytes _ _ _ _) (loField_packBytes _ _ _ _)).symm

/-- A word that encodes an instruction has 0 in every ignored bit (R105, D5). -/
theorem and_ignoredBits_of_encode {m : FlagIdMap} {i : Instr} {w : Word} (h : encode m i = some w) :
    w &&& ignoredBits i = 0 := by
  have hclear : w &&& ~~~(ignoredBits i) = w := by
    obtain ⟨ho, hi⟩ := carries_of_encode h
    cases i
    case setf | clrf => exact packFlag_and_not h
    all_goals exact Option.some.inj ((encode_of_carries ho hi rfl).symm.trans h)
  have hnone : ~~~(ignoredBits i) &&& ignoredBits i = 0 := by
    rw [BitVec.and_comm]
    exact BitVec.and_not_self _
  rw [← hclear, BitVec.and_assoc, hnone]
  exact BitVec.and_zero

/-- Settles O1: `carries_of_encode` says which fields an encoded word has, and they are what the decoder looks at. -/
theorem decodeInvertsEncode : Obligations.DecodeInvertsEncode := by
  refine fun m i => ⟨fun hwf hflag => ?encoded, fun hwf => ?noWord⟩
  case encoded =>
    obtain ⟨w, hw⟩ := exists_encode hwf hflag
    exact ⟨w, hw, decode_of_encode hw, and_ignoredBits_of_encode hw⟩
  case noWord => exact if_neg (by simp [hwf])

/-- Settles O2: the fields of the decoded word determine the canonical word. -/
theorem decodedInstructionsAreEncodable : Obligations.DecodedInstructionsAreEncodable := by
  intro m w i h
  obtain ⟨ho, hi⟩ := (decode_eq_ok_iff m w i).1 h
  have hwf := wellFormed_of_carries hi
  have hflag : ∀ f, namedFlag i = some f → ∃ id, flagOfId m id = some f := by
    intro f hf
    cases i
    case setf | clrf =>
      cases hf
      exact ⟨_, hi⟩
    all_goals cases hf
  obtain ⟨w', hw'⟩ := exists_encode hwf hflag
  refine ⟨hwf, w', hw', decode_of_encode hw', fun hf => ?_⟩
  exact Option.some.inj (hw'.symm.trans (encode_of_carries ho hi hf))

-- ---------------------------------------------------------------- ignored bits

/-- No mask of ignored bits reaches the opcode. -/
theorem opcodeField_ignoredBits (i : Instr) : opcodeField (ignoredBits i) = 0 := by
  cases i <;> simp [ignoredBits, opcodeField]

/-- The fields that an instruction uses lie outside its ignored bits (R85). -/
theorem carries_of_masked {m : FlagIdMap} {w w' : Word} {i : Instr} (hi : Carries m w i)
    (h : w' &&& ~~~(ignoredBits i) = w &&& ~~~(ignoredBits i)) : Carries m w' i := by
  cases i
  case movwR | addwR | subwR | mulR | andR | orR | xorR | cmpwR =>
    obtain ⟨hm, ha, hb⟩ := hi
    exact ⟨(modeBit_eq_of_masked (g := 0xFE) h (by decide)).trans hm,
      (extractLsb'_eq_of_masked (g := 0xFE) h (by decide)).trans ha,
      (extractLsb'_eq_of_masked (g := 0xFE) h (by decide)).trans hb⟩
  case strwR =>
    obtain ⟨hm, ha, hs⟩ := hi
    exact ⟨(modeBit_eq_of_masked (g := 0xFE) h (by decide)).trans hm,
      (extractLsb'_eq_of_masked (g := 0xFE) h (by decide)).trans ha,
      (extractLsb'_eq_of_masked (g := 0xFE) h (by decide)).trans hs⟩
  case pushR =>
    obtain ⟨hm, hs⟩ := hi
    exact ⟨(modeBit_eq_of_masked (g := 0xFFFE) h (by decide)).trans hm,
      (extractLsb'_eq_of_masked (g := 0xFFFE) h (by decide)).trans hs⟩
  case pushI =>
    obtain ⟨hm, himm⟩ := hi
    exact ⟨(modeBit_eq_of_masked (g := 0xFF0000) h (by decide)).trans hm,
      (extractLsb'_eq_of_masked (g := 0xFF0000) h (by decide)).trans himm⟩
  case pop | inc | dec | neg | not => exact (extractLsb'_eq_of_masked (g := 0xFFFF) h (by decide)).trans hi
  case xcgh =>
    obtain ⟨ha, hb⟩ := hi
    exact ⟨(extractLsb'_eq_of_masked (g := 0xFF) h (by decide)).trans ha,
      (extractLsb'_eq_of_masked (g := 0xFF) h (by decide)).trans hb⟩
  case setf | clrf =>
    have hid : loField w' = loField w := extractLsb'_eq_of_masked (g := 0xFFFF00) h (by decide)
    exact (congrArg (flagOfId m) hid).trans hi
  case ret | halt => trivial
  all_goals
    have hsame : w' = w := (and_not_zero w').symm.trans (h.trans (and_not_zero w))
    exact hsame ▸ hi

/-- Settles O3: words that agree outside the ignored bits have the same opcode and carry the same operands. -/
theorem ignoredBitsDoNotMatter : Obligations.IgnoredBitsDoNotMatter := by
  intro m w w' i h hmask
  obtain ⟨ho, hi⟩ := (decode_eq_ok_iff m w i).1 h
  have ho' : opcodeField w' = opcodeField w := extractLsb'_eq_of_masked hmask (opcodeField_ignoredBits i)
  exact (decode_eq_ok_iff m w' i).2 ⟨ho'.trans ho, carries_of_masked hi hmask⟩

-- ---------------------------------------------------------------- rejected words

section
variable (w : Word) (e : Reject)

theorem decodeR_eq_error_iff (mk : RegId → Instr) :
    decodeR mk w = .error e ↔ e = .invalidOperand w ∧ 13 < (hiField w).toNat := by
  obtain ⟨d, hd, h⟩ | ⟨hd, h⟩ := decodeR_cases mk w
  · simp [h, hd, RegId.code_le]
  · simp [h, hd, eq_comm]

theorem decodeRR_eq_error_iff (mk : RegId → RegId → Instr) : decodeRR mk w = .error e ↔
    e = .invalidOperand w ∧ (13 < (hiField w).toNat ∨ 13 < (midField w).toNat) := by
  obtain ⟨a, b, ha, hb, h⟩ | ⟨hab, h⟩ := decodeRR_cases mk w
  · simp [h, ha, hb, RegId.code_le]
  · simp [h, hab, eq_comm]

theorem decodeRM_eq_error_iff (mkR : RegId → RegId → Instr) (mkI : RegId → BitVec 16 → Instr) :
    decodeRM mkR mkI w = .error e ↔ e = .invalidOperand w ∧
      (13 < (hiField w).toNat ∨ modeBit w = true ∧ 13 < (midField w).toNat) := by
  cases hm : modeBit w
  · simpa [decodeRM_of_clear _ _ hm, decodeRI] using decodeR_eq_error_iff w e _
  · simpa [decodeRM_of_set _ _ hm] using decodeRR_eq_error_iff w e mkR

theorem decodeAM_eq_error_iff (mkR : BitVec 8 → RegId → Instr) (mkI : BitVec 8 → BitVec 16 → Instr) :
    decodeAM mkR mkI w = .error e ↔ e = .invalidOperand w ∧ modeBit w = true ∧ 13 < (midField w).toNat := by
  cases hm : modeBit w
  · simp [decodeAM_of_clear _ _ hm]
  · obtain ⟨s, hs, h⟩ | ⟨hs, h⟩ := decodeAM_cases_of_set mkR mkI hm
    · simp [h, hs, RegId.code_le]
    · simp [h, hs, eq_comm]

theorem decodePM_eq_error_iff (mkR : RegId → Instr) (mkI : BitVec 16 → Instr) :
    decodePM mkR mkI w = .error e ↔ e = .invalidOperand w ∧ modeBit w = true ∧ 13 < (hiField w).toNat := by
  cases hm : modeBit w
  · simp [decodePM_of_clear _ _ hm]
  · simpa [decodePM_of_set _ _ hm] using decodeR_eq_error_iff w e mkR

theorem decodeF_eq_error_iff (m : FlagIdMap) (mk : Flag → Instr) :
    decodeF m mk w = .error e ↔ e = .invalidOperand w ∧ flagOfId m (loField w) = none := by
  obtain ⟨f, hf, h⟩ | ⟨hf, h⟩ := decodeF_cases m mk w
  · simp [h, hf]
  · simp [h, hf, eq_comm]

end

/-- Under a known opcode a word is rejected only as InvalidOperand, for a field that names nothing (R84, R220). -/
theorem decodeOperands_eq_error_iff {m : FlagIdMap} {op : Opcode} {w : Word}
    (ho : Opcode.ofByte (opcodeField w) = some op) (e : Reject) :
    decodeOperands m op w = .error e ↔ e = .invalidOperand w ∧ operandIsInvalid m w = true := by
  cases op
  case movi | lodi | lodw | pop | inc | dec | neg | not =>
    exact (decodeR_eq_error_iff w e _).trans (by simp [operandIsInvalid, ho])
  case movw | addw | subw | mul | and | or | xor | cmpw =>
    exact (decodeRM_eq_error_iff w e _ _).trans (by simp [operandIsInvalid, ho])
  case xcgh => exact (decodeRR_eq_error_iff w e _).trans (by simp [operandIsInvalid, ho])
  case strw => exact (decodeAM_eq_error_iff w e _ _).trans (by simp [operandIsInvalid, ho])
  case push => exact (decodePM_eq_error_iff w e _ _).trans (by simp [operandIsInvalid, ho])
  case setf | clrf => exact (decodeF_eq_error_iff w e m _).trans (by simp [operandIsInvalid, ho])
  case stri | jmp | call | ret | je | jne | jgt | jge | jlt | jle | js | jco | halt =>
    simp [operandIsInvalid, ho, decodeOperands, decodeAI, decodeJ, decodeN]

/-- Settles O5: an unknown opcode is another rejection, and under a known one `decodeOperands_eq_error_iff` decides. -/
theorem invalidOperandExactly : Obligations.InvalidOperandExactly := by
  intro m w v
  cases ho : Opcode.ofByte (opcodeField w) with
  | none => simp [decode, operandIsInvalid, ho]
  | some op => simpa [decode, ho] using decodeOperands_eq_error_iff (m := m) ho (.invalidOperand v)

/-- A word is rejected as unknown exactly if its opcode byte is none of the 34 (R83). -/
theorem decode_eq_unknownOpcode_iff (m : FlagIdMap) (w : Word) (op : Byte) :
    decode m w = .error (.unknownOpcode op) ↔ op = opcodeField w ∧ Opcode.ofByte (opcodeField w) = none := by
  cases ho : Opcode.ofByte (opcodeField w) with
  | none => simp [decode, ho, eq_comm]
  | some o => simp [decode, ho, decodeOperands_eq_error_iff ho]

/-- Settles O4: the 222 values by evaluation of `Opcode.ofByte` on all bytes. -/
theorem illegalOpcodesAreUnknown : Obligations.IllegalOpcodesAreUnknown :=
  ⟨by decide +kernel, by decide +kernel, decode_eq_unknownOpcode_iff⟩

/-- Settles O7: each word is decoded by evaluation. -/
theorem specWordsDecode : Obligations.SpecWordsDecode := by
  unfold Obligations.SpecWordsDecode
  decide

-- ---------------------------------------------------------------- the mode bit

/-- The parity of an immediate is the mode bit of the word it is packed into (R90). -/
theorem modeBit_packImm_of_even {imm : BitVec 16} (op : Opcode) (hi : Byte) (h : imm.toNat % 2 = 0) :
    modeBit (packImm op hi imm) = false := by
  rw [modeBit_packImm]
  simpa [BitVec.getLsbD, Nat.testBit_zero] using h

theorem modeBit_packImm_of_odd {imm : BitVec 16} (op : Opcode) (hi : Byte) (h : imm.toNat % 2 = 1) :
    modeBit (packImm op hi imm) = true := by
  rw [modeBit_packImm]
  simpa [BitVec.getLsbD, Nat.testBit_zero] using h

theorem even_immField {w : Word} (h : modeBit w = false) : (immField w).toNat % 2 = 0 := by
  have hbit : (immField w).getLsbD 0 = false := by simpa [immField, modeBit] using h
  simpa [BitVec.getLsbD, Nat.testBit_zero] using hbit

/-- What the rows of an opcode of format RM have in common (R92, R260). -/
structure RegisterModeRow (op : Opcode) (mkR : RegId → RegId → Instr) (mkI : RegId → BitVec 16 → Instr) : Prop where
  operands : ∀ m w, decodeOperands m op w = decodeRM mkR mkI w
  register : ∀ m w d s, Carries m w (mkR d s) ↔ modeBit w = true ∧ hiField w = d.code ∧ midField w = s.code
  immediate : ∀ m w d imm, Carries m w (mkI d imm) ↔ modeBit w = false ∧ hiField w = d.code ∧ immField w = imm
  registerOpcode : ∀ d s, (mkR d s).opcode = op
  immediateOpcode : ∀ d imm, (mkI d imm).opcode = op
  encodeImmediate : ∀ m d imm, evenImm imm = true → encode m (mkI d imm) = some (packImm op d.code imm)
  build : ∀ syms name ops, buildInstr syms name op ops = buildRM syms name mkR mkI ops

theorem registerModeRow_of_mem {op : Opcode} {mkR : RegId → RegId → Instr} {mkI : RegId → BitVec 16 → Instr}
    (h : (op, mkR, mkI) ∈ registerModeForms) : RegisterModeRow op mkR mkI := by
  simp only [registerModeForms, List.mem_cons, Prod.mk.injEq, List.not_mem_nil, or_false] at h
  obtain ⟨rfl, rfl, rfl⟩ | ⟨rfl, rfl, rfl⟩ | ⟨rfl, rfl, rfl⟩ | ⟨rfl, rfl, rfl⟩ | ⟨rfl, rfl, rfl⟩ | ⟨rfl, rfl, rfl⟩ |
    ⟨rfl, rfl, rfl⟩ | ⟨rfl, rfl, rfl⟩ := h <;>
  exact ⟨fun _ _ => rfl, fun _ _ _ _ => Iff.rfl, fun _ _ _ _ => Iff.rfl, fun _ _ => rfl, fun _ _ => rfl,
    fun _ _ _ h => if_pos h, fun _ _ _ => rfl⟩

section
variable {op : Opcode} {mkR : RegId → RegId → Instr} {mkI : RegId → BitVec 16 → Instr} (row : RegisterModeRow op mkR mkI)
  {m : FlagIdMap} {w : Word} {imm : BitVec 16} {d : RegId}
include row

theorem RegisterModeRow.decode_eq (ho : opcodeField w = op.byte) : decode m w = decodeRM mkR mkI w := by
  rw [decode_of_opcodeField ho, row.operands]

theorem RegisterModeRow.modeBit_of_register {s : RegId} (h : decode m w = .ok (mkR d s)) : modeBit w = true :=
  ((row.register m w d s).1 ((decode_eq_ok_iff m w _).1 h).2).1

theorem RegisterModeRow.fields_of_immediate (h : decode m w = .ok (mkI d imm)) :
    modeBit w = false ∧ imm = immField w ∧ imm.toNat % 2 = 0 := by
  obtain ⟨hm, -, rfl⟩ := (row.immediate m w d imm).1 ((decode_eq_ok_iff m w _).1 h).2
  exact ⟨hm, rfl, even_immField hm⟩

theorem RegisterModeRow.decode_of_set (ho : opcodeField w = op.byte) (hm : modeBit w = true) :
    (∃ d s, decode m w = .ok (mkR d s)) ∨ decode m w = .error (.invalidOperand w) := by
  rw [row.decode_eq ho, decodeRM_of_set _ _ hm]
  obtain ⟨a, b, -, -, h⟩ | ⟨-, h⟩ := decodeRR_cases mkR w
  · exact .inl ⟨a, b, h⟩
  · exact .inr h

theorem RegisterModeRow.decode_of_clear (ho : opcodeField w = op.byte) (hm : modeBit w = false) :
    (∃ d, decode m w = .ok (mkI d (immField w))) ∨ decode m w = .error (.invalidOperand w) := by
  rw [row.decode_eq ho, decodeRM_of_clear _ _ hm]
  obtain ⟨d, -, h⟩ | ⟨-, h⟩ := decodeRI_cases mkI w
  · exact .inl ⟨d, h⟩
  · exact .inr h

theorem RegisterModeRow.decode_packImm_even (he : imm.toNat % 2 = 0) :
    decode m (packImm op d.code imm) = .ok (mkI d imm) := by
  refine (decode_eq_ok_iff m _ _).2 ⟨?_, (row.immediate m _ d imm).2 ?_⟩
  · rw [row.immediateOpcode, opcodeField_packImm]
  · exact ⟨modeBit_packImm_of_even _ _ he, hiField_packImm _ _ _, immField_packImm _ _ _⟩

theorem RegisterModeRow.decode_packImm_odd (hodd : imm.toNat % 2 = 1) {s : RegId}
    (hs : imm.extractLsb' 8 8 = s.code) : decode m (packImm op d.code imm) = .ok (mkR d s) := by
  refine (decode_eq_ok_iff m _ _).2 ⟨?_, (row.register m _ d s).2 ?_⟩
  · rw [row.registerOpcode, opcodeField_packImm]
  · exact ⟨modeBit_packImm_of_odd _ _ hodd, hiField_packImm _ _ _, (midField_packImm _ _ _).trans hs⟩

theorem RegisterModeRow.decode_packImm_odd_rejected (hodd : imm.toNat % 2 = 1)
    (hs : 13 < (imm.extractLsb' 8 8).toNat) :
    decode m (packImm op d.code imm) = .error (.invalidOperand (packImm op d.code imm)) := by
  rw [row.decode_eq (opcodeField_packImm _ _ _), decodeRM_of_set _ _ (modeBit_packImm_of_odd _ _ hodd),
    decodeRR_eq_error_iff, midField_packImm]
  exact ⟨rfl, .inr hs⟩

end

/-- Settles O6: the eight opcodes of format RM by their common row, STRW and PUSH by their own formats. -/
theorem modeBitSelectsTheForm : Obligations.ModeBitSelectsTheForm := by
  refine fun m w imm => ⟨fun op mkR mkI hmem => ?registerMode, ?addressMode, ?pushMode⟩
  case registerMode =>
    have row := registerModeRow_of_mem hmem
    exact ⟨fun d s => row.modeBit_of_register, fun d => row.fields_of_immediate, row.decode_of_set,
      row.decode_of_clear, fun d => ⟨row.decode_packImm_even, fun hodd =>
        ⟨fun s => row.decode_packImm_odd hodd, row.decode_packImm_odd_rejected hodd⟩⟩⟩
  case addressMode =>
    have hdecode (v : Word) (ho : opcodeField v = 0x06) : decode m v = decodeAM .strwR .strwI v :=
      decode_of_opcodeField (op := .strw) ho
    refine ⟨fun a s h => ?_, fun a h => ?_, fun ho hm => ?_, fun ho hm => ?_, fun a => ⟨fun he => ?_, fun hodd =>
      ⟨fun s hs => ?_, fun hs => ?_⟩⟩⟩
    · obtain ⟨-, hm, -⟩ := (decode_eq_ok_iff m w _).1 h
      exact hm
    · obtain ⟨-, hm, -, rfl⟩ := (decode_eq_ok_iff m w _).1 h
      exact ⟨hm, rfl, even_immField hm⟩
    · rw [hdecode w ho]
      obtain ⟨s, -, h⟩ | ⟨-, h⟩ := decodeAM_cases_of_set Instr.strwR Instr.strwI hm
      · exact .inl ⟨_, s, h⟩
      · exact .inr h
    · exact ⟨_, (hdecode w ho).trans (decodeAM_of_clear _ _ hm)⟩
    · exact (decode_eq_ok_iff m _ _).2 ⟨opcodeField_packImm _ _ _, modeBit_packImm_of_even _ _ he,
        hiField_packImm _ _ _, immField_packImm _ _ _⟩
    · exact (decode_eq_ok_iff m _ _).2 ⟨opcodeField_packImm _ _ _, modeBit_packImm_of_odd _ _ hodd,
        hiField_packImm _ _ _, (midField_packImm _ _ _).trans hs⟩
    · rw [hdecode _ (opcodeField_packImm _ _ _), decodeAM_eq_error_iff, midField_packImm]
      exact ⟨rfl, modeBit_packImm_of_odd _ _ hodd, hs⟩
  case pushMode =>
    have hdecode (v : Word) (ho : opcodeField v = 0x07) : decode m v = decodePM .pushR .pushI v :=
      decode_of_opcodeField (op := .push) ho
    refine ⟨fun s h => ?_, fun h => ?_, fun ho hm => ?_, fun ho hm => ?_, fun a => ⟨fun he => ?_, fun hodd =>
      ⟨fun s hs => ?_, fun hs => ?_⟩⟩⟩
    · obtain ⟨-, hm, -⟩ := (decode_eq_ok_iff m w _).1 h
      exact hm
    · obtain ⟨-, hm, rfl⟩ := (decode_eq_ok_iff m w _).1 h
      exact ⟨hm, rfl, even_immField hm⟩
    · rw [hdecode w ho, decodePM_of_set _ _ hm]
      obtain ⟨s, -, h⟩ | ⟨-, h⟩ := decodeR_cases Instr.pushR w
      · exact .inl ⟨s, h⟩
      · exact .inr h
    · exact (hdecode w ho).trans (decodePM_of_clear _ _ hm)
    · exact (decode_eq_ok_iff m _ _).2 ⟨opcodeField_packImm _ _ _, modeBit_packImm_of_even _ _ he,
        immField_packImm _ _ _⟩
    · exact (decode_eq_ok_iff m _ _).2 ⟨opcodeField_packImm _ _ _, modeBit_packImm_of_odd _ _ hodd,
        (hiField_packImm _ _ _).trans hs⟩
    · rw [hdecode _ (opcodeField_packImm _ _ _), decodePM_eq_error_iff, hiField_packImm]
      exact ⟨rfl, modeBit_packImm_of_odd _ _ hodd, hs⟩

end Machine

end Sys2Proof
end

section
/-! PROOFS of the families 10_state.md and 60_exceptions.md: what a step does and what it leaves alone (R35, R81, R281 to
R291). -/

namespace Sys2Proof.Machine

-- ---------------------------------------------------------------- everything a step can do

/-- How a step from `s` comes to `t`: one constructor per way (R81, R283, R284, R290, R291). -/
inductive StepResult (s t : State) : Prop
  | halted (hdriver : s.driver = .halted) (ht : t = { s with alreadyHalted := true })
  | faulted (hdriver : s.driver = .faulted) (ht : t = s)
  | fetchFault (hdriver : s.driver = .ready) (hfetch : s.fetch = none)
      (ht : t = s.takeFault (.outOfBounds (s.reg .pc)))
  | rejected (iw : Word) (r : Reject) (hdriver : s.driver = .ready) (hfetch : s.fetch = some iw)
      (hdecode : decode s.flagIds iw = .error r) (ht : t = s.advancePc.takeFault (Reject.fault r))
  | dataFault (iw : Word) (i : Instr) (a : Word) (hdriver : s.driver = .ready) (hfetch : s.fetch = some iw)
      (hdecode : decode s.flagIds iw = .ok i) (haddr : dataAddr i s.advancePc = some a)
      (hout : s.memSize.bytes < a.toNat + 4) (ht : t = s.advancePc.takeFault (.outOfBounds a))
  | completed (iw : Word) (i : Instr) (hdriver : s.driver = .ready) (hfetch : s.fetch = some iw)
      (hdecode : decode s.flagIds iw = .ok i) (ht : Completed i s.advancePc t)

theorem exists_stepResult (s : State) : ∃ t, step s = .next t ∧ StepResult s t := by
  obtain ⟨hd, h⟩ | ⟨hd, h⟩ | ⟨hd, hf, h⟩ | ⟨iw, r, hd, hf, hr, h⟩ | ⟨iw, i, hd, hf, hi, h⟩ := step_cases s
  · exact ⟨_, h, .halted hd rfl⟩
  · exact ⟨_, h, .faulted hd rfl⟩
  · exact ⟨_, h, .fetchFault hd hf rfl⟩
  · exact ⟨_, h, .rejected iw r hd hf hr rfl⟩
  · obtain ⟨a, ha, hout, he⟩ | ⟨t, he, hc⟩ := exec_cases i s.advancePc
    · exact ⟨_, h.trans he, .dataFault iw i a hd hf hi ha hout rfl⟩
    · exact ⟨t, h.trans he, .completed iw i hd hf hi hc⟩

theorem stepResult_of_step {s t : State} (h : step s = .next t) : StepResult s t := by
  obtain ⟨u, hu, hr⟩ := exists_stepResult s
  cases hu.symm.trans h
  exact hr

/-- The same for a step whose word decodes: its data access is out of bounds, or it completes. -/
theorem dataFault_or_completed_of_step {s t : State} {iw : Word} {i : Instr} (hready : s.driver = .ready)
    (hfetch : s.fetch = some iw) (hdecode : decode s.flagIds iw = .ok i) (h : step s = .next t) :
    (∃ a, dataAddr i s.advancePc = some a ∧ s.memSize.bytes < a.toNat + 4 ∧
      t = s.advancePc.takeFault (.outOfBounds a)) ∨ Completed i s.advancePc t := by
  rw [step_of_decode hready hfetch hdecode] at h
  obtain ⟨a, ha, hout, he⟩ | ⟨u, he, hc⟩ := exec_cases i s.advancePc
  · cases he.symm.trans h
    exact .inl ⟨a, ha, hout, rfl⟩
  · cases he.symm.trans h
    exact .inr hc

/-- Settles O9: `exec_cases` for an instruction, `exists_stepResult` for a step. -/
theorem stepAlwaysAnswersNext : Obligations.StepAlwaysAnswersNext := by
  refine ⟨fun i s => ?executed, fun s => ?stepped⟩
  case executed =>
    obtain ⟨a, -, -, h⟩ | ⟨t, h, -⟩ := exec_cases i s
    · exact ⟨_, h⟩
    · exact ⟨t, h⟩
  case stepped =>
    obtain ⟨t, h, -⟩ := exists_stepResult s
    exact ⟨t, h⟩

-- ---------------------------------------------------------------- the step as a function

theorem step_of_faulted {s : State} (h : s.driver = .faulted) : step s = .next s := by
  simp only [step, h, faultedStep]

/-- A fetch answers nothing exactly where the word reaches past the end of memory (R81). -/
theorem State.fetch_eq_none_iff (s : State) : s.fetch = none ↔ s.memSize.bytes < (s.reg .pc).toNat + 4 :=
  State.readWord_eq_none_iff s _

theorem step_of_fetch_none {s : State} (hready : s.driver = .ready) (hfetch : s.fetch = none) :
    step s = .next (s.takeFault (.outOfBounds (s.reg .pc))) := by
  simp only [step, hready, hfetch, fetchFault, raise]

theorem step_of_decode_error {s : State} {iw : Word} {r : Reject} (hready : s.driver = .ready)
    (hfetch : s.fetch = some iw) (hdecode : decode s.flagIds iw = .error r) :
    step s = .next (s.advancePc.takeFault (Reject.fault r)) := by
  simp only [step, hready, hfetch, hdecode, rejectFault, raise]

/-- Settles O8: the equations of the step, one for each way it can go. -/
theorem stepRunsTheDecodedInstruction : Obligations.StepRunsTheDecodedInstruction := by
  refine fun s => ⟨step_of_halted, step_of_faulted, fun hready hout => ?fetchFault,
    fun hready hin iw hiw => ⟨fun i hi => ?executed, fun op hop => ?unknown, fun v hv => ?invalid⟩⟩
  case fetchFault => exact step_of_fetch_none hready (s.fetch_eq_none_iff.2 hout)
  all_goals have hfetch : s.fetch = some iw := (s.fetch_eq_some_iff iw).2 ⟨hin, hiw⟩
  case executed => exact step_of_decode hready hfetch hi
  case unknown => exact step_of_decode_error hready hfetch hop
  case invalid =>
    obtain ⟨rfl, -⟩ := (invalidOperandExactly s.flagIds iw v).1 hv
    exact step_of_decode_error hready hfetch hv

-- ---------------------------------------------------------------- the stopped core

theorem coreRun_of_step_self {s : State} (h : step s = .next s) (n : Nat) :
    (Host.Core.run Sys2Proof.core n s : Result) = .next s := by
  induction n with
  | zero => rfl
  | succ n ih => rw [coreRun_succ_of_step h, ih]

/-- Settles O10: a Faulted core, and a Halted one whose latch is set, are fixed points of the step. -/
theorem stoppedCoreStaysStopped : Obligations.StoppedCoreStaysStopped := by
  refine fun n s => ⟨fun hhalted => ?halted, fun hfaulted => ?faulted⟩
  case halted =>
    have hfixed : step { s with alreadyHalted := true } = .next { s with alreadyHalted := true } :=
      step_of_halted hhalted
    rw [coreRun_succ_of_step (step_of_halted hhalted), coreRun_of_step_self hfixed]
  case faulted => exact coreRun_of_step_self (step_of_faulted hfaulted) n

/-- Settles O11: of the ways a step from Ready can go, only the completion of HALT leaves the driver Halted. -/
theorem onlyHaltHalts : Obligations.OnlyHaltHalts := by
  intro s t hready h
  constructor
  · intro hhalted
    cases stepResult_of_step h with
    | halted hd => cases hready.symm.trans hd
    | faulted hd => cases hready.symm.trans hd
    | fetchFault _ _ ht | rejected _ _ _ _ _ ht | dataFault _ _ _ _ _ _ _ _ ht =>
      subst ht
      cases hhalted
    | completed iw i _ hf hi hc =>
      have hdriver := hc.driver
      by_cases hi' : i = .halt
      · exact ⟨iw, hf, hi' ▸ hi⟩
      · rw [if_neg hi', hhalted, State.advancePc_driver, hready] at hdriver
        cases hdriver
  · rintro ⟨iw, hf, hi⟩
    rw [step_of_decode hready hf hi, exec_halt] at h
    cases h
    rfl

-- ---------------------------------------------------------------- faults

theorem Reject.cause_fault_ne_none (r : Reject) : (Reject.fault r).cause ≠ .none := by
  cases r <;> simp [Reject.fault, Fault.cause]

/-- Settles O12: a fault is taken from the state before the step or from the one with `pc` advanced. -/
theorem faultsArePrecise : Obligations.FaultsArePrecise := by
  intro s t hready h hfaulted
  have hframe : s.SameRegsBut s.advancePc [.pc] := (State.SameRegsBut.refl s _).setReg (by simp) _
  cases stepResult_of_step h with
  | halted hd => cases hready.symm.trans hd
  | faulted hd => cases hready.symm.trans hd
  | fetchFault _ hf ht =>
    subst ht
    exact ⟨fun _ => rfl, fun _ _ => rfl, rfl, rfl, rfl, rfl, .inl ⟨hf, rfl, rfl, rfl⟩⟩
  | rejected iw r _ hf _ ht =>
    subst ht
    exact ⟨fun _ => rfl, hframe, rfl, rfl, rfl, rfl, .inr ⟨iw, hf, s.advancePc_pc, Reject.cause_fault_ne_none r⟩⟩
  | dataFault iw _ a _ hf _ _ _ ht =>
    subst ht
    exact ⟨fun _ => rfl, hframe, rfl, rfl, rfl, rfl, .inr ⟨iw, hf, s.advancePc_pc, by simp [Fault.cause]⟩⟩
  | completed iw i _ _ _ hc =>
    have hdriver := hc.driver
    rw [hfaulted, State.advancePc_driver, hready] at hdriver
    split at hdriver <;> cases hdriver

/-- Settles O13: an instruction that completes had its access inside memory, one that faults had it outside. -/
theorem dataFaultsExactly : Obligations.DataFaultsExactly := by
  intro s t iw i hready hfetch hdecode h
  obtain ⟨a, ha, hout, rfl⟩ | hc := dataFault_or_completed_of_step hready hfetch hdecode h
  · exact ⟨⟨fun _ => ⟨a, ha, hout⟩, fun _ => rfl⟩, fun _ => ⟨rfl, ha⟩⟩
  · have hnot : t.driver ≠ .faulted := by
      rw [hc.driver, State.advancePc_driver, hready]
      split <;> simp
    have hin (a : Word) (ha : dataAddr i s.advancePc = some a) : ¬ s.memSize.bytes < a.toNat + 4 :=
      Nat.not_lt.2 (hc.access a ha)
    exact ⟨⟨fun hf => absurd hf hnot, fun ⟨a, ha, hout⟩ => absurd hout (hin a ha)⟩, fun hf => absurd hf hnot⟩

-- ---------------------------------------------------------------- frames of the step

/-- Settles O14: after the prologue, only the registers of `regsWritten` change. -/
theorem stepChangesOnlyWrittenRegisters : Obligations.StepChangesOnlyWrittenRegisters := by
  intro s t iw i hready hfetch hdecode h
  have hframe : s.advancePc.SameRegsBut t (regsWritten i) := by
    obtain ⟨a, -, -, rfl⟩ | hc := dataFault_or_completed_of_step hready hfetch hdecode h
    · exact fun _ _ => rfl
    · exact hc.regs
  refine ⟨fun r hr => ?_, fun hpc => (hframe _ hpc).trans s.advancePc_pc⟩
  obtain ⟨hne, hnot⟩ := not_or.1 (mt List.mem_cons.2 hr)
  rw [hframe r hnot, State.reg_advancePc_of_ne s hne]

/-- Settles O15: of the ways a step can go only a completed store writes memory, four bytes at its address. -/
theorem stepChangesOnlyStoredBytes : Obligations.StepChangesOnlyStoredBytes := by
  intro s t a h hchanged
  cases stepResult_of_step h with
  | halted _ ht | faulted _ ht | fetchFault _ _ ht | rejected _ _ _ _ _ ht | dataFault _ _ _ _ _ _ _ _ ht =>
    subst ht
    exact absurd rfl hchanged
  | completed iw i hready hf hi hc =>
    obtain ⟨-, hmem⟩ | ⟨addr, v, hstore, hmem⟩ := hc.mem
    · exact absurd (by rw [hmem, State.advancePc_mem]) hchanged
    · refine ⟨hready, iw, i, addr, hf, hi, hstore, ?_⟩
      by_contra hout
      refine hchanged ?_
      rw [hmem, Memory.readByte_writeBytes_outside _ _ (by rw [length_leBytes]; omega), State.advancePc_mem]

/-- Settles O17: of the ways a step can go, each writes only what its name says. -/
theorem stepKeepsParameters : Obligations.StepKeepsParameters := by
  intro s t h
  cases stepResult_of_step h with
  | halted hd ht =>
    subst ht
    exact ⟨rfl, rfl, fun _ => ⟨rfl, rfl⟩, fun hne => absurd hd hne⟩
  | faulted _ ht =>
    subst ht
    exact ⟨rfl, rfl, fun _ => ⟨rfl, rfl⟩, fun _ => rfl⟩
  | fetchFault _ _ ht | rejected _ _ _ _ _ ht | dataFault _ _ _ _ _ _ _ _ ht =>
    subst ht
    exact ⟨rfl, rfl, fun hne => absurd rfl hne, fun _ => rfl⟩
  | completed iw i _ _ _ hc =>
    exact ⟨hc.memSize, hc.flagIds, fun _ => ⟨hc.faultCause, hc.faultInfo⟩, fun _ => hc.alreadyHalted⟩

-- ---------------------------------------------------------------- the bits of FLAGS

/-- The bits other than carry, zero, sign and overflow are kept (R29). -/
def KeepsOtherFlags (w w' : Word) : Prop :=
  ∀ k, k ≠ 0 → k ≠ 6 → k ≠ 7 → k ≠ 11 → w'.getLsbD k = w.getLsbD k

theorem keepsOtherFlags_floatFlags (r w : Word) : KeepsOtherFlags w (floatFlags r w) := by
  intro k h0 h6 h7 h11
  rw [getLsbD_floatFlags, if_neg h11, if_neg h0, if_neg h7, if_neg h6]

theorem keepsOtherFlags_logicFlags (op : LogicOp) (a : Word) (b : Option Word) (r w : Word) :
    KeepsOtherFlags w (logicFlags op a b r w) := by
  intro k h0 h6 h7 h11
  rw [getLsbD_logicFlags, if_neg h11, if_neg h0, if_neg h7, if_neg h6]

theorem keepsOtherFlags_compareFlags (a b w : Word) : KeepsOtherFlags w (compareFlags a b w) := by
  intro k h0 h6 h7 h11
  rw [getLsbD_compareFlags, if_neg h11, if_neg h0, if_neg h7, if_neg h6]

/-- After a write of another register, an update of FLAGS works on the word that stood before. -/
theorem State.flags_setReg_updateFlags (s : State) {d : RegId} (hd : RegId.flags ≠ d) (v : Word) (f : Word → Word) :
    ((s.setReg d v).updateFlags f).reg .flags = f (s.reg .flags) := by
  rw [State.reg_updateFlags_self, State.reg_setReg_of_ne s v hd]

theorem keepsOtherFlags_floatInto {op : FloatOp} {d : RegId} {b : Word} {s t : State} (hd : RegId.flags ≠ d)
    (h : floatInto op d b s = .next t) : KeepsOtherFlags (s.reg .flags) (t.reg .flags) := by
  unfold floatInto at h
  obtain ⟨v, -, hb⟩ | ⟨-, hb⟩ := s.floatBits_cases op (s.reg d) b (floatCompute op (s.reg d) b) <;>
  · rw [hb] at h
    cases h
    rw [floatWrite, State.flags_setReg_updateFlags _ hd]
    exact keepsOtherFlags_floatFlags _ _

theorem keepsOtherFlags_logicInto {op : LogicOp} {d : RegId} {b : Word} {s t : State} (hd : RegId.flags ≠ d)
    (h : logicInto op d b s = .next t) : KeepsOtherFlags (s.reg .flags) (t.reg .flags) := by
  cases h
  rw [State.flags_setReg_updateFlags _ hd]
  exact keepsOtherFlags_logicFlags _ _ _ _ _

/-- An instruction that does not write FLAGS leaves the word as it is, also where it faults. -/
theorem flags_of_exec_of_not_written {i : Instr} {s t : State} (hi : RegId.flags ∉ regsWritten i)
    (h : exec i s = .next t) : t.reg .flags = s.reg .flags := by
  obtain ⟨a, -, -, he⟩ | ⟨u, he, hc⟩ := exec_cases i s
  · cases he.symm.trans h
    rfl
  · cases he.symm.trans h
    exact hc.regs _ hi

/-- SETF and CLRF put their flag; every other instruction whose destination is not FLAGS keeps the unnamed bits. -/
theorem flags_of_exec {i : Instr} {s t : State} (hd : RegId.flags ∉ destRegs i) (h : exec i s = .next t) :
    (∃ f v, namedFlag i = some f ∧ t.reg .flags = putFlag f v (s.reg .flags)) ∨
      (namedFlag i = none ∧ KeepsOtherFlags (s.reg .flags) (t.reg .flags)) := by
  cases i
  case setf f =>
    cases h
    exact .inl ⟨f, true, rfl, State.reg_updateFlags_self _ _⟩
  case clrf f =>
    cases h
    exact .inl ⟨f, false, rfl, State.reg_updateFlags_self _ _⟩
  all_goals refine .inr ⟨rfl, ?_⟩
  case addwR | addwI | subwR | subwI | mulR | mulI | inc | dec =>
    exact keepsOtherFlags_floatInto (mt List.mem_singleton.2 hd) h
  case andR | andI | orR | orI | xorR | xorI => exact keepsOtherFlags_logicInto (mt List.mem_singleton.2 hd) h
  case neg =>
    cases h
    rw [floatWrite, State.flags_setReg_updateFlags _ (mt List.mem_singleton.2 hd)]
    exact keepsOtherFlags_floatFlags _ _
  case not =>
    cases h
    rw [State.flags_setReg_updateFlags _ (mt List.mem_singleton.2 hd)]
    exact keepsOtherFlags_logicFlags _ _ _ _ _
  case cmpwR | cmpwI =>
    cases h
    rw [State.reg_updateFlags_self]
    exact keepsOtherFlags_compareFlags _ _ _
  all_goals
    intro k _ _ _ _
    rw [flags_of_exec_of_not_written (by simpa [regsWritten, impliedRegs] using hd) h]

/-- Settles O16: the prologue does not touch FLAGS, and `flags_of_exec` says what the instruction does to its bits. -/
theorem stepChangesOnlyNamedFlagBits : Obligations.StepChangesOnlyNamedFlagBits := by
  intro s t iw i hready hfetch hdecode hd h
  rw [step_of_decode hready hfetch hdecode] at h
  have hprologue : s.advancePc.reg .flags = s.reg .flags := State.reg_advancePc_of_ne s (by decide)
  refine ⟨?others, ?named, fun hi => ?unwritten⟩
  case unwritten =>
    have hnot : RegId.flags ∉ regsWritten i := fun hmem => (List.mem_append.1 hmem).elim hd hi
    rw [flags_of_exec_of_not_written hnot h, hprologue]
  all_goals
    have hflags := flags_of_exec hd h
    rw [hprologue] at hflags
    obtain ⟨f, v, hf, ht⟩ | ⟨hf, ht⟩ := hflags
  case others.inl =>
    intro k _ _ _ _ hk
    rw [ht, getLsbD_putFlag, if_neg (hk f hf)]
  case others.inr => exact fun k h0 h6 h7 h11 _ => ht k h0 h6 h7 h11
  case named.inl =>
    intro g hg k hk
    cases hf.symm.trans hg
    rw [ht, getLsbD_putFlag, if_neg hk]
  case named.inr => exact fun g hg => absurd (hf.symm.trans hg) (by simp)

-- ---------------------------------------------------------------- the invariant

theorem State.inv_iff (s : State) :
    s.Inv = true ↔ s.mem.wf = true ∧ s.mem.within s.memSize.bytes = true ∧ s.latchesOk = true := by
  simp only [State.Inv, Bool.and_eq_true, and_assoc]

/-- Outside the Faulted state the latches agree exactly if no fault is recorded and `already_halted` is set only in the
Halted state (R281, R290). -/
theorem State.latchesOk_iff_of_not_faulted {s : State} (h : s.driver ≠ .faulted) : s.latchesOk = true ↔
    s.faultCause = .none ∧ s.faultInfo = 0 ∧ (s.alreadyHalted = true → s.driver = .halted) := by
  cases hc : s.faultCause <;> simp [State.latchesOk, hc, h, Decidable.imp_iff_not_or]

theorem State.latchesOk_ready_iff {s : State} (h : s.driver = .ready) :
    s.latchesOk = true ↔ s.faultCause = .none ∧ s.faultInfo = 0 ∧ s.alreadyHalted = false := by
  simp [State.latchesOk_iff_of_not_faulted, h]

theorem State.latchesOk_outOfBounds {s : State} (ha : s.alreadyHalted = false) (a : Word) :
    (s.takeFault (.outOfBounds a)).latchesOk = true := by
  simp [State.latchesOk, Fault.cause, ha]

/-- The datum of a rejected word is an illegal opcode, or a word whose opcode is legal (R281, R285). -/
theorem State.latchesOk_rejected {s : State} {m : FlagIdMap} {iw : Word} {r : Reject} (ha : s.alreadyHalted = false)
    (hr : decode m iw = .error r) : (s.takeFault (Reject.fault r)).latchesOk = true := by
  cases r with
  | unknownOpcode op =>
    obtain ⟨rfl, hop⟩ := (decode_eq_unknownOpcode_iff m iw _).1 hr
    have hlt : (opcodeField iw).toNat % 2 ^ 32 < 256 := (Nat.mod_le _ _).trans_lt (opcodeField iw).isLt
    simpa [State.latchesOk, Fault.cause, Fault.info, Reject.fault, ha, hop] using hlt
  | invalidOperand v =>
    obtain ⟨rfl, hinvalid⟩ := (invalidOperandExactly m iw v).1 hr
    have hknown : (Opcode.ofByte (opcodeField v)).isSome = true := by
      cases hop : Opcode.ofByte (opcodeField v) with
      | none => simp [operandIsInvalid, hop] at hinvalid
      | some op => rfl
    simp [State.latchesOk, Fault.cause, Fault.info, Reject.fault, ha, hknown]

/-- The one data access of an instruction that stores is its store (R57). -/
theorem dataAddr_of_storeAddr {i : Instr} {s : State} {a : Word} (h : storeAddr i s = some a) :
    dataAddr i s = some a := by
  cases i
  case stri | strwR | strwI | pushR | pushI | call => exact h
  all_goals cases h

/-- An instruction that completes keeps the canonical form of memory and the address space. -/
theorem Completed.wf_within {i : Instr} {s t : State} (hc : Completed i s t) (hwf : s.mem.wf = true)
    (hin : s.mem.within s.memSize.bytes = true) : t.mem.wf = true ∧ t.mem.within t.memSize.bytes = true := by
  rw [hc.memSize]
  obtain ⟨-, hmem⟩ | ⟨a, v, hstore, hmem⟩ := hc.mem
  · rw [hmem]
    exact ⟨hwf, hin⟩
  · have haccess := hc.access a (dataAddr_of_storeAddr hstore)
    rw [hmem]
    exact ⟨Memory.wf_writeBytes _ _ hwf, Memory.within_writeBytes _ (by rwa [length_leBytes]) hin⟩

/-- An instruction that completes from Ready records no fault; it ends Ready or, after HALT, Halted. -/
theorem Completed.latchesOk {i : Instr} {s t : State} (hc : Completed i s t) (hready : s.driver = .ready)
    (h : s.latchesOk = true) : t.latchesOk = true := by
  obtain ⟨hcause, hinfo, halready⟩ := (State.latchesOk_ready_iff hready).1 h
  have hdriver : t.driver ≠ .faulted := by
    rw [hc.driver, hready]
    split <;> decide
  refine (State.latchesOk_iff_of_not_faulted hdriver).2 ⟨hc.faultCause.trans hcause, hc.faultInfo.trans hinfo, ?_⟩
  simp [hc.alreadyHalted, halready]

/-- Settles O18: memory changes only by a store inside it, and each way a step can go leaves latches that agree. -/
theorem invariantIsKept : Obligations.InvariantIsKept := by
  intro s t hinv h
  obtain ⟨hwf, hin, hlatches⟩ := s.inv_iff.1 hinv
  refine t.inv_iff.2 ?_
  have hclear (hready : s.driver = .ready) : s.alreadyHalted = false :=
    ((State.latchesOk_ready_iff hready).1 hlatches).2.2
  cases stepResult_of_step h with
  | halted hhalted ht =>
    subst ht
    have hdriver : s.driver ≠ .faulted := by simp [hhalted]
    obtain ⟨hcause, hinfo, -⟩ := (State.latchesOk_iff_of_not_faulted hdriver).1 hlatches
    have hlatches' : { s with alreadyHalted := true }.latchesOk = true :=
      (State.latchesOk_iff_of_not_faulted (s := { s with alreadyHalted := true }) hdriver).2
        ⟨hcause, hinfo, fun _ => hhalted⟩
    exact ⟨hwf, hin, hlatches'⟩
  | faulted _ ht =>
    subst ht
    exact ⟨hwf, hin, hlatches⟩
  | fetchFault hready _ ht =>
    subst ht
    exact ⟨hwf, hin, State.latchesOk_outOfBounds (hclear hready) _⟩
  | rejected iw r hready _ hr ht =>
    subst ht
    exact ⟨hwf, hin, State.latchesOk_rejected (hclear hready) hr⟩
  | dataFault iw i a hready _ _ _ _ ht =>
    subst ht
    exact ⟨hwf, hin, State.latchesOk_outOfBounds (s := s.advancePc) (hclear hready) a⟩
  | completed iw i hready _ _ hc =>
    obtain ⟨hwf', hin'⟩ := hc.wf_within hwf hin
    exact ⟨hwf', hin', hc.latchesOk hready hlatches⟩

end Sys2Proof.Machine
end

section
/-! PROOFS of the family 70_reset_and_hazards.md: the state after reset, `reset_load` and `run` (R40, R82, R310 to R314). -/

namespace Sys2Proof.Machine

-- ---------------------------------------------------------------- the state after reset

/-- Settles O19: by evaluation of the loader on the default request. -/
theorem resetStateIsTheDefaultLoad : Obligations.ResetStateIsTheDefaultLoad := ⟨rfl, rfl⟩

/-- Settles O20: the fields of `State.reset`, and its first step, whose fetch answers the zero word. -/
theorem resetHasTheTabledValues : Obligations.ResetHasTheTabledValues := by
  refine ⟨rfl, rfl, fun r hpc hsp => ?otherRegisters, fun _ => rfl, rfl, rfl, rfl, rfl, rfl, ?firstStep⟩
  case otherRegisters =>
    cases r
    case pc => exact absurd rfl hpc
    case sp => exact absurd rfl hsp
    all_goals rfl
  case firstStep =>
    have hfetch : State.reset.fetch = some 0 := by decide
    have hdecode : decode State.reset.flagIds 0 = .error (.unknownOpcode 0) := by decide
    exact ⟨_, step_of_decode_error rfl hfetch hdecode, rfl, rfl, by decide, by decide⟩

-- ---------------------------------------------------------------- reset_load

theorem LoadRequest.imageInside_iff (q : LoadRequest) : q.imageInside = true ↔
    q.textStart + 4 * q.text.length ≤ q.memSize ∧ (q.data = [] ∨ q.dataStart + q.data.length ≤ q.memSize) := by
  simp [LoadRequest.imageInside]

/-- An image whose writes are in bounds has no byte outside memory (R312). -/
theorem within_imageMemory {q : LoadRequest} (h : q.imageInside = true) :
    (imageMemory q).within q.memSize = true := by
  obtain ⟨htext, hdata⟩ := q.imageInside_iff.1 h
  have hwithin : (Memory.writeBytes [] q.textStart (textBytes q.text)).within q.memSize = true :=
    Memory.within_writeBytes _ (by rwa [length_textBytes]) rfl
  rw [imageMemory]
  obtain hdata | hdata := hdata
  · rw [hdata]
    exact hwithin
  · exact Memory.within_writeBytes _ hdata hwithin

theorem inv_loadedState {q : LoadRequest} (h : q.imageInside = true)
    (hsize : 65536 ≤ q.memSize ∧ q.memSize ≤ 8388608 ∧ q.memSize % 1024 = 0) :
    (loadedState ⟨q.memSize, hsize⟩ q).Inv = true :=
  (State.inv_iff _).2 ⟨imageMemory_wf q, within_imageMemory h, rfl⟩

theorem readByte_imageMemory_data {q : LoadRequest} {k : Nat} (hk : k < q.data.length) :
    (imageMemory q).readByte (q.dataStart + k) = q.data[k] :=
  Memory.readByte_writeBytes_inside q.data (Memory.wf_writeBytes _ _ rfl) q.dataStart k hk

theorem readByte_imageMemory_outside {q : LoadRequest} {a : Nat}
    (htext : a < q.textStart ∨ q.textStart + 4 * q.text.length ≤ a)
    (hdata : a < q.dataStart ∨ q.dataStart + q.data.length ≤ a) : (imageMemory q).readByte a = 0 := by
  rw [imageMemory, Memory.readByte_writeBytes_outside _ _ hdata,
    Memory.readByte_writeBytes_outside _ _ (by rwa [length_textBytes])]
  rfl

/-- Settles O21: `resetLoad_eq_next_iff` gives the preconditions and the state, and the lemmas of the image its memory. -/
theorem resetLoadLeavesTheResetState : Obligations.ResetLoadLeavesTheResetState := by
  refine fun q => ⟨?taken, fun s h => ?state⟩
  case taken =>
    simp only [resetLoad_eq_next_iff, LoadRequest.imageInside_iff]
    constructor
    · rintro ⟨s, ⟨hlow, hhigh, hmod⟩, htext, hstack, ⟨hin, hdata⟩, -⟩
      exact ⟨hlow, hhigh, hmod, htext, hstack, hin, hdata⟩
    · rintro ⟨hlow, hhigh, hmod, htext, hstack, hin, hdata⟩
      exact ⟨_, ⟨hlow, hhigh, hmod⟩, htext, hstack, ⟨hin, hdata⟩, rfl⟩
  case state =>
    obtain ⟨hsize, -, -, hinside, rfl⟩ := (resetLoad_eq_next_iff q s).1 h
    refine ⟨inv_loadedState hinside hsize, rfl, rfl, fun r hpc hsp => ?_, rfl, rfl, rfl, rfl, rfl, rfl,
      fun k hk => readByte_imageMemory_data hk, fun k hk hdata => holdsWord_imageMemory_text hk hdata,
      fun a htext hdata => readByte_imageMemory_outside htext hdata⟩
    cases r
    case pc => exact absurd rfl hpc
    case sp => exact absurd rfl hsp
    all_goals rfl

-- ---------------------------------------------------------------- run

/-- The guard of `run` and its stopping conditions complement each other (R82, R314). -/
theorem State.running_iff (s : State) : s.running = true ↔ s.runEnd = none := by
  rw [State.runEnd_eq_none_iff]
  simp [State.running, State.pcInside]

theorem run_succ_of_step {s t : State} (hrunning : s.running = true) (h : step s = .next t) (n : Nat) :
    run (n + 1) s = run n t := by
  simp only [run, hrunning, h, if_true]

theorem run_of_runEnd {s : State} (h : s.runEnd ≠ none) (n : Nat) : run n s = .next s :=
  run_of_not_running (by simpa using mt s.running_iff.1 h) n

theorem exists_run (n : Nat) : ∀ s : State, ∃ t, run n s = .next t := by
  induction n with
  | zero => exact fun s => ⟨s, rfl⟩
  | succ n ih =>
    intro s
    cases hrunning : s.running with
    | true =>
      obtain ⟨u, hstep, -⟩ := exists_stepResult s
      rw [run_succ_of_step hrunning hstep]
      exact ih u
    | false => exact ⟨s, run_of_not_running hrunning _⟩

/-- A run goes on from where an earlier one has stopped. -/
theorem run_add (n k : Nat) : ∀ {s t : State}, run n s = .next t → run (n + k) s = run k t := by
  induction n with
  | zero =>
    intro s t h
    cases h
    rw [Nat.zero_add]
  | succ n ih =>
    intro s t h
    cases hrunning : s.running with
    | true =>
      obtain ⟨u, hstep, -⟩ := exists_stepResult s
      rw [run_succ_of_step hrunning hstep] at h
      rw [Nat.succ_add, run_succ_of_step hrunning hstep, ih h]
    | false =>
      cases (run_of_not_running hrunning _).symm.trans h
      rw [run_of_not_running hrunning, run_of_not_running hrunning]

/-- Settles O22: the equations of `run` while it runs and once it has ended. -/
theorem runStopsAtTheThreeEnds : Obligations.RunStopsAtTheThreeEnds := by
  refine ⟨exists_run, fun n k s t => run_add n k,
    fun n s t hend hstep => run_succ_of_step (s.running_iff.2 hend) hstep n, fun n s hend => run_of_runEnd hend n,
    State.runEnd_eq_none_iff, fun s hready hout => ?ranOff⟩
  case ranOff =>
    have hoff : ¬ (s.reg .pc).toNat < s.memSize.bytes := Nat.not_lt.2 hout
    have hfetch : s.fetch = none := s.fetch_eq_none_iff.2 (by omega)
    exact ⟨by simp [State.ranOffEnd, State.pcInside, hready, hoff],
      by simp [State.runEnd, State.pcInside, hready, hoff], _, step_of_fetch_none hready hfetch, rfl, rfl⟩

end Sys2Proof.Machine
end

section
/-! PROOFS of the family 20_memory.md: bounds, float accessors, and stores seen by the fetch (R52, R53, R56, R65). -/

namespace Sys2Proof.Machine

/-- Settles O25: an access answers exactly where its bounds check passes, and a write is a block write. -/
theorem accessesAreBoundsChecked : Obligations.AccessesAreBoundsChecked := by
  refine fun s addr v n => ⟨?read, ?write, fun t h => ?frame⟩
  case read =>
    simp only [State.memRead_eq_some_iff]
    exact ⟨fun ⟨_, hin, _⟩ => hin, fun hin => ⟨_, hin, rfl⟩⟩
  case write =>
    simp only [State.memWrite_eq_some_iff]
    exact ⟨fun ⟨_, hin, _⟩ => hin, fun hin => ⟨_, hin, rfl⟩⟩
  case frame =>
    obtain ⟨-, rfl⟩ := (State.memWrite_eq_some_iff s t addr v n).1 h
    exact ⟨rfl, State.SameDriver.refl s, rfl, fun a ha =>
      Memory.readByte_writeBytes_outside _ _ (by rwa [length_leBytes])⟩

-- ---------------------------------------------------------------- words

/-- Four bytes that hold a word read as that word. -/
theorem wordAt_of_holdsWord {m : Memory} {a : Nat} {v : Word} (h : HoldsWord m a v) : wordAt m a = v := by
  obtain ⟨h0, h1, h2, h3⟩ := h
  rw [wordAt, h0, h1, h2, h3]
  apply BitVec.eq_of_getLsbD_eq
  intro i hi
  simp only [BitVec.getLsbD_append, BitVec.getLsbD_extractLsb']
  grind

theorem State.readWord_of_inside {s : State} {addr : Word} (hin : addr.toNat + 4 ≤ s.memSize.bytes) :
    s.readWord addr = some (wordAt s.mem addr.toNat) :=
  (State.readWord_eq_some_iff s addr _).2 ⟨hin, (wordAt_eq _ _).symm⟩

/-- What a word write of `v` at `addr` that answers `t` has done (R53). -/
structure Written (s : State) (addr v : Word) (t : State) : Prop where
  stored : HoldsWord t.mem addr.toNat v
  outside : s.SameMemoryOutside t addr.toNat
  regs : ∀ r, t.reg r = s.reg r
  driver : s.SameDriver t
  draws : t.draws = s.draws

/-- A word write inside a canonical memory answers, and does what `Written` says. -/
theorem State.exists_written {s : State} (hw : s.mem.wf = true) {addr : Word}
    (hin : addr.toNat + 4 ≤ s.memSize.bytes) (v : Word) : ∃ t, s.writeWord addr v = some t ∧ Written s addr v t := by
  refine ⟨_, (State.writeWord_eq_some_iff s _ addr v).2 ⟨hin, rfl⟩, ?_⟩
  constructor
  case stored => exact holdsWord_writeBytes hw _ v
  case outside => exact fun a ha => Memory.readByte_writeBytes_outside _ _ (by rwa [length_leBytes])
  case regs => exact fun _ => rfl
  case driver => exact State.SameDriver.refl s
  case draws => rfl

-- ---------------------------------------------------------------- floats in memory

theorem floatExponent_eq (v : Word) : floatExponent v = (binary32 v).exponent.toNat := by
  simp [floatExponent, binary32, Nat.shiftRight_eq_div_pow]

theorem floatFraction_eq (v : Word) : floatFraction v = (binary32 v).fraction.toNat := by
  simp [floatFraction, binary32]

theorem isNaN_iff_binary32 (v : Word) :
    isNaN v = true ↔ (binary32 v).exponent = 255 ∧ (binary32 v).fraction ≠ 0 := by
  simp [isNaN, floatExponent_eq, floatFraction_eq, ← BitVec.toNat_inj]

/-- The three fields of a pattern stand at bits 31, 30 to 23 and 22 to 0 (R150). -/
theorem Binary32.toNat_bits (f : Binary32) :
    f.bits.toNat = (if f.sign then 2 ^ 31 else 0) + f.exponent.toNat * 2 ^ 23 + f.fraction.toNat := by
  have he := f.exponent.isLt
  have hm := f.fraction.isLt
  rw [Binary32.bits, BitVec.toNat_append, BitVec.toNat_append, ← Nat.shiftLeft_add_eq_or_of_lt hm,
    ← Nat.shiftLeft_add_eq_or_of_lt he, Nat.shiftLeft_eq, Nat.shiftLeft_eq]
  cases f.sign
  · simp
  · simp; omega

/-- Settles O26: the float accessors are the word accessors on the bytes of the pattern. -/
theorem floatAccessorsMoveTheirBytes : Obligations.FloatAccessorsMoveTheirBytes := by
  refine ⟨fun v => ⟨bits_binary32 v, (f32_eq_nan_iff v).trans (isNaN_iff_binary32 v)⟩,
    fun f => ⟨binary32_bits f, f.toNat_bits⟩, fun s addr f => ⟨fun hw hin => ?written, fun hin => ?read,
      fun hout => ?outside⟩⟩
  case written =>
    obtain ⟨t, hwrite, hwritten⟩ := State.exists_written hw hin f.bits
    have hin' : addr.toNat + 4 ≤ t.memSize.bytes := by
      obtain ⟨-, -, -, -, hsize, -⟩ := hwritten.driver
      rwa [hsize]
    have hread : t.readFloat addr = some f := by
      rw [State.readFloat_eq_some_iff, State.readWord_of_inside hin', wordAt_of_holdsWord hwritten.stored]
    exact ⟨t, hwrite, hwritten.stored, hread, hwritten.outside, hwritten.regs, hwritten.driver, hwritten.draws⟩
  case read => rw [State.readFloat, State.readWord_of_inside hin, Option.map_some]
  case outside =>
    exact ⟨(State.writeWord_eq_none_iff s addr f.bits).2 hout,
      by rw [State.readFloat, (State.readWord_eq_none_iff s addr).2 hout, Option.map_none]⟩

end Sys2Proof.Machine
end

section
/-! PROOFS of the families 40_move_load_store.md and 41_stack.md (R120 to R126, R140 to R142), and of what rests on their
stores: the coherence of the fetch (R65) and RET after CALL. -/

namespace Sys2Proof.Machine

/-- Settles O28: each of the four is one register write. -/
theorem movesWriteTheirDestination : Obligations.MovesWriteTheirDestination := fun _ _ _ _ =>
  ⟨completesWith_of_exec_setReg rfl, completesWith_of_exec_setReg rfl, completesWith_of_exec_setReg rfl,
    completesWith_of_exec_setReg rfl⟩

/-- Settles O31: the second write of XCGH wins on equal registers, where both values are the same. -/
theorem xcghExchanges : Obligations.XcghExchanges := by
  intro a b s
  have hfirst : ((s.setReg a (s.reg b)).setReg b (s.reg a)).reg a = s.reg b := by
    by_cases hab : a = b
    · rw [hab, State.reg_setReg_self]
    · rw [State.reg_setReg_of_ne _ _ hab, State.reg_setReg_self]
  have hframe : s.SameRegsBut ((s.setReg a (s.reg b)).setReg b (s.reg a)) [a, b] :=
    ((State.SameRegsBut.refl s _).setReg (by simp) _).setReg (by simp) _
  exact ⟨_, rfl, hfirst, State.reg_setReg_self _ _ _, hframe, State.SameMemory.refl s, State.SameDriver.refl s, rfl⟩

-- ---------------------------------------------------------------- loads and stores

theorem exec_lodw (d : RegId) (a : BitVec 16) (s : State) : exec (.lodw d a) s = loadTo d (a.setWidth 32) s := rfl

/-- Settles O29: LODW is a word read, then a register write. -/
theorem lodwLoadsTheWord : Obligations.LodwLoadsTheWord := by
  intro d a s
  have haddr : (a.setWidth 32).toNat = a.toNat := BitVec.toNat_setWidth_of_le (by decide)
  refine ⟨fun hin => completesWith_of_exec_setReg ?_, fun hout => ?_⟩
  · rw [exec_lodw, loadTo, State.readWord_of_inside (by rwa [haddr]), haddr]
    rfl
  · refine faults_of_exec_raise (f := .outOfBounds (a.setWidth 32)) ?_
    rw [exec_lodw, loadTo, (State.readWord_eq_none_iff s _).2 (by rwa [haddr])]

/-- A store inside a canonical memory completes. -/
theorem exists_completesStoring_of_storeAt {i : Instr} {s : State} {addr v : Word} (he : exec i s = storeAt addr v s)
    (hw : s.mem.wf = true) (hin : addr.toNat + 4 ≤ s.memSize.bytes) : ∃ t, CompletesStoring i s addr v [] t := by
  obtain ⟨t, hwrite, hwritten⟩ := State.exists_written hw hin v
  refine ⟨t, ?_, hwritten.stored, hwritten.outside, fun r _ => hwritten.regs r, hwritten.driver, hwritten.draws⟩
  rw [he, storeAt, hwrite]

/-- Every word at an 8-bit address is inside the smallest memory (R6, R57). -/
theorem addr8Operand_inside (s : State) (a : BitVec 8) : (addr8Operand a).toNat + 4 ≤ s.memSize.bytes := by
  have hsize : 65536 ≤ s.memSize.bytes := s.memSize.legal.1
  have haddr : (addr8Operand a).toNat = a.toNat := BitVec.toNat_setWidth_of_le (by decide)
  have hlt := a.isLt
  omega

/-- Settles O30: the three stores are one store at an address that is always inside memory. -/
theorem storesWriteOneWord : Obligations.StoresWriteOneWord := fun a _ _ s hw =>
  ⟨exists_completesStoring_of_storeAt rfl hw (addr8Operand_inside s a),
    exists_completesStoring_of_storeAt rfl hw (addr8Operand_inside s a),
    exists_completesStoring_of_storeAt rfl hw (addr8Operand_inside s a)⟩

-- ---------------------------------------------------------------- PUSH and POP

/-- A push inside a canonical memory completes with SP lowered by 4 (R142). -/
theorem exists_completesStoring_of_pushValue {i : Instr} {s : State} {v : Word} (he : exec i s = pushValue v s)
    (hw : s.mem.wf = true) (hin : s.pushAddr.toNat + 4 ≤ s.memSize.bytes) :
    ∃ t, CompletesStoring i s (s.reg .sp - 4) v [.sp] t ∧ t.reg .sp = s.reg .sp - 4 := by
  obtain ⟨t, hpush, hpushed⟩ := State.exists_pushed hw hin v
  refine ⟨t, ⟨?_, hpushed.stored, hpushed.outside, hpushed.regs, hpushed.driver, hpushed.draws⟩, hpushed.sp⟩
  rw [he, pushValue, hpush]

theorem faults_of_exec_pushValue {i : Instr} {s : State} {v : Word} (he : exec i s = pushValue v s)
    (hout : s.memSize.bytes < s.pushAddr.toNat + 4) : Faults i s .outOfBounds (s.reg .sp - 4) := by
  refine faults_of_exec_raise (f := .outOfBounds s.pushAddr) ?_
  rw [he, pushValue, (State.push_eq_none_iff s v).2 hout]

/-- Settles O32: `pushAddr_inside_iff` decides by SP whether the push is made or faults. -/
theorem pushStoresBelowSp : Obligations.PushStoresBelowSp := by
  refine fun r imm s => ⟨fun hw hlow hhigh => ?pushes, fun hsp => ?faults⟩
  case pushes =>
    have hin := s.pushAddr_inside_iff.2 ⟨hlow, hhigh⟩
    exact ⟨exists_completesStoring_of_pushValue rfl hw hin, exists_completesStoring_of_pushValue rfl hw hin⟩
  case faults =>
    have hout : s.memSize.bytes < s.pushAddr.toNat + 4 := by
      have := s.pushAddr_inside_iff
      omega
    exact ⟨faults_of_exec_pushValue rfl hout, faults_of_exec_pushValue rfl hout⟩

theorem exec_pop_of_pop {s t : State} {v : Word} (d : RegId) (h : s.pop = some (v, t)) :
    exec (.pop d) s = .next (t.setReg d v) := by
  simp only [exec, execPop, h]

theorem exec_pop_of_pop_none {s : State} (d : RegId) (h : s.pop = none) :
    exec (.pop d) s = raise (.outOfBounds (s.reg .sp)) s := by
  simp only [exec, execPop, h]

/-- Settles O33: SP is written first and the destination last. -/
theorem popLoadsAtSp : Obligations.PopLoadsAtSp := by
  refine fun d s => ⟨fun hin => ?pops, fun hout => ?faults⟩
  case pops =>
    have hregs : s.SameRegsBut (s.setReg .sp (s.reg .sp + 4)) [d, .sp] :=
      (State.SameRegsBut.refl s _).setReg (by simp) _
    refine ⟨_, exec_pop_of_pop d (State.pop_of_inside hin), State.reg_setReg_self _ _ _, fun hd => ?_,
      hregs.setReg (by simp) _, State.SameMemory.refl s, State.SameDriver.refl s, rfl⟩
    rw [State.reg_setReg_of_ne _ _ (Ne.symm hd), State.reg_setReg_self]
  case faults => exact faults_of_exec_raise (exec_pop_of_pop_none d ((State.pop_eq_none_iff s).2 hout))

/-- A pop right where a push from `s` has stored takes the pushed word and restores SP (R142). -/
theorem State.pop_of_holdsWord {s u : State} {v : Word} (hsp : u.reg .sp = s.pushAddr) (hsize : u.memSize = s.memSize)
    (hin : s.pushAddr.toNat + 4 ≤ s.memSize.bytes) (hstored : HoldsWord u.mem s.pushAddr.toNat v) :
    u.pop = some (v, u.setReg .sp (s.reg .sp)) := by
  rw [State.pop_of_inside (by rwa [hsp, hsize]), hsp, wordAt_of_holdsWord hstored, State.pushAddr, BitVec.sub_add_cancel]

/-- Settles O34: the pop finds the pushed word at the lowered SP. -/
theorem popUndoesPush : Obligations.PopUndoesPush := by
  intro r d s hw hlow hhigh
  have hin := s.pushAddr_inside_iff.2 ⟨hlow, hhigh⟩
  obtain ⟨t, hpush, hpushed⟩ := State.exists_pushed hw hin (s.reg r)
  obtain ⟨-, -, -, -, hsize, -⟩ := hpushed.driver
  have hexec : exec (.pushR r) s = .next t := by simp only [exec, execPushR, pushValue, regOperand, hpush]
  have hpop : t.pop = some (s.reg r, t.setReg .sp (s.reg .sp)) :=
    State.pop_of_holdsWord hpushed.sp hsize hin hpushed.stored
  have hregs : s.SameRegsBut (t.setReg .sp (s.reg .sp)) [d, .sp] :=
    (hpushed.regs.mono (by simp)).setReg (by simp) _
  refine ⟨t, _, hexec, exec_pop_of_pop d hpop, State.reg_setReg_self _ _ _, fun hd => ?_, hregs.setReg (by simp) _⟩
  rw [State.reg_setReg_of_ne _ _ (Ne.symm hd), State.reg_setReg_self]

/-- Settles O51: the return address is found at the lowered SP, and the pop and the jump write the two registers that
CALL wrote. -/
theorem retUndoesCall : Obligations.RetUndoesCall := by
  intro x s hw hlow hhigh
  have hin := s.pushAddr_inside_iff.2 ⟨hlow, hhigh⟩
  obtain ⟨t, hpush, hpushed⟩ := State.exists_pushed hw hin (s.reg .pc)
  obtain ⟨-, -, -, -, hsize, -⟩ := hpushed.driver
  have hsp : (t.jump (x.setWidth 32)).reg .sp = s.pushAddr := by
    rw [State.reg_jump_of_ne t _ (by decide), hpushed.sp]
  have hpop := State.pop_of_holdsWord hsp hsize hin hpushed.stored
  refine ⟨_, _, exec_call_of_push x hpush, exec_ret_of_pop hpop, fun r => ?_⟩
  by_cases hpc : r = .pc
  · rw [hpc, State.jump_pc]
  · rw [State.reg_jump_of_ne _ _ hpc]
    by_cases hr : r = .sp
    · rw [hr, State.reg_setReg_self]
    · rw [State.reg_setReg_of_ne _ _ hr, State.reg_jump_of_ne t _ hpc, hpushed.regs r (by simpa using hr)]

-- ---------------------------------------------------------------- the fetch after a store

/-- A stored word is what a fetch from its address reads (R65). -/
theorem fetchSees_of_completesStoring {i : Instr} {s t : State} {addr v : Word} {l : List RegId}
    (h : CompletesStoring i s addr v l t) (hin : addr.toNat + 4 ≤ s.memSize.bytes) : FetchSees i s addr v := by
  obtain ⟨hexec, hstored, -, -, ⟨-, -, -, -, hsize, -⟩, -⟩ := h
  have hread : t.readWord addr = some v := by
    rw [State.readWord_of_inside (by rwa [hsize]), wordAt_of_holdsWord hstored]
  refine ⟨t, hexec, ?_, fun hpc => ?_⟩
  · rw [State.fetch, State.reg_setReg_self]
    exact hread
  · rw [State.fetch, hpc, hread]

/-- Settles O27: each of the six forms completes by storing its word. -/
theorem storeIsSeenByTheNextFetch : Obligations.StoreIsSeenByTheNextFetch := by
  refine fun s hw => ⟨fun a imm r => ?stores, fun hlow hhigh imm r x => ?pushes⟩
  case stores =>
    obtain ⟨⟨t, ht⟩, ⟨u, hu⟩, ⟨v, hv⟩⟩ := storesWriteOneWord a imm r s hw
    have hin := addr8Operand_inside s a
    exact ⟨fetchSees_of_completesStoring ht hin, fetchSees_of_completesStoring hu hin,
      fetchSees_of_completesStoring hv hin⟩
  case pushes =>
    have hin := s.pushAddr_inside_iff.2 ⟨hlow, hhigh⟩
    obtain ⟨⟨t, ht, -⟩, ⟨u, hu, -⟩⟩ := (pushStoresBelowSp r imm s).1 hw hlow hhigh
    obtain ⟨v, hv, -, -⟩ := (callPushesTheReturnAddress.2 x s).1 hw hlow hhigh
    exact ⟨fetchSees_of_completesStoring ht hin, fetchSees_of_completesStoring hu hin,
      fetchSees_of_completesStoring hv hin⟩

end Sys2Proof.Machine
end

section
/-! PROOFS of the family 42_float_arith.md, first part: binary32 patterns, correct rounding and the results of the
operations (R150 to R154). -/

namespace Sys2Proof.Machine

-- ---------------------------------------------------------------- patterns and their fields

theorem floatFields_lt (v : Word) : floatExponent v * 2 ^ 23 + floatFraction v < 2 ^ 31 := by
  unfold floatExponent floatFraction
  omega

/-- A pattern is its sign over its exponent and fraction (R150). -/
theorem packFloat_fields (v : Word) :
    packFloat (floatSign v) (floatExponent v * 2 ^ 23 + floatFraction v) = v := by
  apply BitVec.eq_of_toNat_eq
  rw [toNat_packFloat _ (floatFields_lt v)]
  have hv := v.isLt
  unfold floatSign floatExponent floatFraction
  rw [BitVec.getLsbD, Nat.testBit_eq_decide_div_mod_eq]
  by_cases h : v.toNat / 2 ^ 31 % 2 = 1
  · simp only [h, decide_true, if_true]
    omega
  · simp only [h, decide_false, Bool.false_eq_true, if_false]
    omega

theorem msb_eq_floatSign (v : Word) : v.msb = floatSign v := BitVec.msb_eq_getLsbD_last v

theorem floatFraction_lt (v : Word) : floatFraction v < 2 ^ 23 := Nat.mod_lt _ (by decide)

theorem floatUnits_eq_zero_iff (e f : Nat) : floatUnits e f = 0 ↔ e = 0 ∧ f = 0 := by
  unfold floatUnits
  split
  · simp [*]
  · simp [*]

/-- A finite pattern has an exponent below 255 and its fields give its value (R150). -/
theorem f32_eq_finite_iff (v : Word) (neg : Bool) (u : Nat) : f32 v = .finite neg u ↔
    floatExponent v ≠ 255 ∧ floatSign v = neg ∧ floatUnits (floatExponent v) (floatFraction v) = u := by
  unfold f32
  by_cases he : floatExponent v = 255
  · by_cases hf : floatFraction v = 0 <;> simp [he, hf]
  · simp [he]

theorem f32_eq_infinity_iff (v : Word) (neg : Bool) : f32 v = .infinity neg ↔ v = infinityPattern neg := by
  constructor
  · intro h
    have hfields : floatExponent v = 255 ∧ floatFraction v = 0 ∧ floatSign v = neg := by
      unfold f32 at h
      by_cases he : floatExponent v = 255
      · by_cases hf : floatFraction v = 0 <;> simp_all
      · simp [he] at h
    obtain ⟨he, hf, hs⟩ := hfields
    rw [← packFloat_fields v, he, hf, hs]
    exact packFloat_infinityMag neg
  · rintro rfl
    exact f32_infinityPattern neg

/-- The two zeros are the patterns of a sign over nothing (R150). -/
theorem f32_eq_zero_iff (v : Word) (neg : Bool) : f32 v = .finite neg 0 ↔ v = packFloat neg 0 := by
  constructor
  · intro h
    obtain ⟨-, hs, hu⟩ := (f32_eq_finite_iff v neg 0).1 h
    obtain ⟨he, hf⟩ := (floatUnits_eq_zero_iff _ _).1 hu
    rw [← packFloat_fields v, he, hf, hs, Nat.zero_mul]
  · rintro rfl
    exact f32_packFloat_finite neg (by decide)

theorem packFloat_true_zero : packFloat true 0 = 0x80000000 := by decide

theorem packFloat_false_zero : packFloat false 0 = 0 := by decide

theorem exists_f32_eq_zero_iff (v : Word) : (∃ neg, f32 v = .finite neg 0) ↔ v = 0 ∨ v = 0x80000000 := by
  simp [f32_eq_zero_iff, packFloat_true_zero, packFloat_false_zero]

/-- The zero test of the flag policy asks for a zero of either sign (R153). -/
theorem floatIsZero_iff (v : Word) : floatIsZero v = true ↔ ∃ neg, f32 v = .finite neg 0 := by
  unfold floatIsZero
  cases f32 v <;> simp

/-- The negative test asks for a sign bit over a number other than -0.0 (R153). -/
theorem floatIsNegative_iff (v : Word) :
    floatIsNegative v = true ↔ floatSign v = true ∧ f32 v ≠ .finite true 0 ∧ f32 v ≠ .nan := by
  unfold floatIsNegative
  cases hv : f32 v with
  | nan => simp
  | infinity neg =>
    have hs : floatSign v = neg := by
      rw [(f32_eq_infinity_iff v neg).1 hv]
      cases neg <;> decide
    simp [hs]
  | finite neg u =>
    obtain ⟨-, hs, -⟩ := (f32_eq_finite_iff v neg u).1 hv
    cases neg <;> simp [hs]

/-- Settles O41: by the value that the pattern stands for. -/
theorem floatFlagTestsOnPatterns : Obligations.FloatFlagTestsOnPatterns := by
  refine fun v => ⟨(floatIsZero_iff v).trans (exists_f32_eq_zero_iff v), ?_⟩
  rw [floatIsNegative_iff, msb_eq_floatSign, Ne, f32_eq_zero_iff, packFloat_true_zero, Ne, f32_eq_nan_iff,
    Bool.not_eq_true]

-- ---------------------------------------------------------------- negation

/-- The value with the opposite sign. -/
def FloatValue.negate : FloatValue → FloatValue
  | .nan => .nan
  | .infinity neg => .infinity (!neg)
  | .finite neg u => .finite (!neg) u

/-- Negation changes the sign field alone (R160). -/
theorem binary32_floatNegate (v : Word) :
    binary32 (floatNegate v) = { binary32 v with sign := !(binary32 v).sign } := by
  have hexponent : (0x80000000 : Word).extractLsb' 23 8 = 0#8 := by decide
  have hfraction : (0x80000000 : Word).extractLsb' 0 23 = 0#23 := by decide
  simp only [binary32, floatNegate, BitVec.extractLsb'_xor, hexponent, hfraction, BitVec.xor_zero]
  simp

/-- Negation of a pattern negates its value; a NaN stays a NaN (R160). -/
theorem f32_floatNegate (v : Word) : f32 (floatNegate v) = (f32 v).negate := by
  have hexp : floatExponent (floatNegate v) = floatExponent v := by
    rw [floatExponent_eq, floatExponent_eq, binary32_floatNegate]
  have hfrac : floatFraction (floatNegate v) = floatFraction v := by
    rw [floatFraction_eq, floatFraction_eq, binary32_floatNegate]
  have hsign : floatSign (floatNegate v) = !floatSign v := congrArg Binary32.sign (binary32_floatNegate v)
  unfold f32
  rw [hexp, hfrac, hsign]
  by_cases he : floatExponent v = 255
  · by_cases hf : floatFraction v = 0 <;> simp [he, hf, FloatValue.negate]
  · simp [he, FloatValue.negate]

-- ---------------------------------------------------------------- NaN results

theorem addValues_eq_nan_iff (x y : FloatValue) :
    addValues x y = .nan ↔ x = .nan ∨ y = .nan ∨ ∃ neg, x = .infinity neg ∧ y = .infinity (!neg) := by
  cases x with
  | nan => simp [addValues]
  | infinity s =>
    cases y with
    | nan => simp [addValues]
    | infinity t => cases s <;> cases t <;> simp [addValues]
    | finite t v => simp [addValues]
  | finite s u => cases y <;> simp [addValues]

theorem mulValues_eq_nan_iff (x y : FloatValue) : mulValues x y = .nan ↔ x = .nan ∨ y = .nan ∨
    (∃ s t, x = .infinity s ∧ y = .finite t 0) ∨ (∃ s t, y = .infinity s ∧ x = .finite t 0) := by
  cases x with
  | nan => simp [mulValues]
  | infinity s => cases y <;> simp [mulValues]
  | finite s u => cases y <;> simp [mulValues]

theorem exists_f32_eq_infinity_iff (v : Word) :
    (∃ neg, f32 v = .infinity neg) ↔ v = 0x7F800000 ∨ v = 0xFF800000 := by
  simp [f32_eq_infinity_iff, infinityPattern]

theorem fadd_eq_nan_iff (a b : Word) : fadd a b = .nan ↔ isNaN a = true ∨ isNaN b = true ∨
    (a = 0x7F800000 ∧ b = 0xFF800000) ∨ (a = 0xFF800000 ∧ b = 0x7F800000) := by
  rw [fadd, addValues_eq_nan_iff, f32_eq_nan_iff, f32_eq_nan_iff]
  simp [f32_eq_infinity_iff, infinityPattern]

theorem fsub_eq_nan_iff (a b : Word) : fsub a b = .nan ↔ isNaN a = true ∨ isNaN b = true ∨
    (a = 0x7F800000 ∧ b = 0x7F800000) ∨ (a = 0xFF800000 ∧ b = 0xFF800000) := by
  have hnegate (y : FloatValue) : y.negate = .nan ↔ y = .nan := by cases y <;> simp [FloatValue.negate]
  have hinfinity (y : FloatValue) (neg : Bool) : y.negate = .infinity (!neg) ↔ y = .infinity neg := by
    cases y <;> simp [FloatValue.negate]
  rw [fsub, f32_floatNegate, addValues_eq_nan_iff, hnegate, f32_eq_nan_iff, f32_eq_nan_iff]
  simp [hinfinity, f32_eq_infinity_iff, infinityPattern]

theorem fmul_eq_nan_iff (a b : Word) : fmul a b = .nan ↔ isNaN a = true ∨ isNaN b = true ∨
    ((a = 0x7F800000 ∨ a = 0xFF800000) ∧ (b = 0 ∨ b = 0x80000000)) ∨
    ((b = 0x7F800000 ∨ b = 0xFF800000) ∧ (a = 0 ∨ a = 0x80000000)) := by
  rw [fmul, mulValues_eq_nan_iff, f32_eq_nan_iff, f32_eq_nan_iff]
  simp only [exists_and_left, exists_and_right, exists_f32_eq_infinity_iff, exists_f32_eq_zero_iff]

/-- A draw gives an exponent of 255 over a nonzero fraction (R154). -/
theorem nanPattern_mag_lt (d : Bool × BitVec 23) :
    infinityMag + (if d.2 = 0 then 2 ^ 22 else d.2.toNat) < 2 ^ 31 := by
  have hd := d.2.isLt
  unfold infinityMag
  split <;> omega

theorem isNaN_nanPattern (d : Bool × BitVec 23) : isNaN (nanPattern d) = true := by
  have hd := d.2.isLt
  unfold isNaN nanPattern
  rw [floatExponent_packFloat _ (nanPattern_mag_lt d), floatFraction_packFloat _ (nanPattern_mag_lt d)]
  unfold infinityMag
  by_cases h : d.2 = 0
  · simp [h]
  · have hne : d.2.toNat ≠ 0 := fun h0 => h (BitVec.eq_of_toNat_eq h0)
    rw [if_neg h, Bool.and_eq_true, decide_eq_true_eq, decide_eq_true_eq]
    omega

/-- Every NaN encoding is drawn by its own sign and fraction (R154, log 5). -/
theorem nanPattern_of_isNaN {v : Word} (h : isNaN v = true) :
    nanPattern (floatSign v, BitVec.ofNat 23 (floatFraction v)) = v := by
  obtain ⟨he, hf⟩ : floatExponent v = 255 ∧ floatFraction v ≠ 0 := by simpa [isNaN] using h
  have hval : (BitVec.ofNat 23 (floatFraction v)).toNat = floatFraction v := by
    rw [BitVec.toNat_ofNat, Nat.mod_eq_of_lt (floatFraction_lt v)]
  have hne : BitVec.ofNat 23 (floatFraction v) ≠ 0 := fun h0 => hf (by rw [← hval, h0]; rfl)
  conv_rhs => rw [← packFloat_fields v, he]
  simp only [nanPattern, if_neg hne, hval, infinityMag]

/-- Settles O40: by the values of the operands, and by the fields of a drawn pattern. -/
theorem nanResultsExactly : Obligations.NanResultsExactly :=
  ⟨fun a b => ⟨fadd_eq_nan_iff a b, fsub_eq_nan_iff a b, fmul_eq_nan_iff a b⟩, isNaN_nanPattern,
    fun _ h => ⟨_, nanPattern_of_isNaN h⟩⟩

end Sys2Proof.Machine
end

section
/-! PROOFS of the family 42_float_arith.md, second part: rounding to nearest with ties to even (R151), and with it
addition, subtraction, multiplication and the conversion of immediates (R152). -/

namespace Sys2Proof.Machine

-- ---------------------------------------------------------------- rounding to a whole number

/-- A rounded quotient is off by at most half of the divisor, and by exactly half only if it is even. -/
theorem roundShift_spec (n s : Nat) :
    2 * n ≤ 2 * (roundShift n s * 2 ^ s) + 2 ^ s ∧ 2 * (roundShift n s * 2 ^ s) ≤ 2 * n + 2 ^ s ∧
      (2 * n = 2 * (roundShift n s * 2 ^ s) + 2 ^ s ∨ 2 * (roundShift n s * 2 ^ s) = 2 * n + 2 ^ s →
        roundShift n s % 2 = 0) := by
  have hdiv : n / 2 ^ s * 2 ^ s + n % 2 ^ s = n := Nat.div_add_mod' n (2 ^ s)
  have hmod : n % 2 ^ s < 2 ^ s := Nat.mod_lt _ (Nat.two_pow_pos s)
  have hsucc : (n / 2 ^ s + 1) * 2 ^ s = n / 2 ^ s * 2 ^ s + 2 ^ s := Nat.add_one_mul _ _
  unfold roundShift
  split <;> omega

/-- No whole multiple of the divisor is nearer than the rounded quotient, and of two equally near ones it is even. -/
theorem roundShift_nearest (n s : Nat) (j : Int) :
    ((n : Int) - roundShift n s * 2 ^ s).natAbs ≤ ((n : Int) - j * 2 ^ s).natAbs ∧
    (j ≠ roundShift n s → ((n : Int) - roundShift n s * 2 ^ s).natAbs = ((n : Int) - j * 2 ^ s).natAbs →
      roundShift n s % 2 = 0) := by
  obtain ⟨hlow, hhigh, heven⟩ := roundShift_spec n s
  generalize roundShift n s = q at *
  have hpow : ((2 ^ s : Nat) : Int) = 2 ^ s := by norm_cast
  have hprod : ((q * 2 ^ s : Nat) : Int) = q * 2 ^ s := by push_cast; rfl
  have hpos : 0 < 2 ^ s := Nat.two_pow_pos s
  rw [← hprod, ← hpow]
  generalize hT : 2 ^ s = T at *
  obtain hj | rfl | hj := lt_trichotomy j (q : Int)
  · have hgap : j * (T : Int) ≤ (q * T : Nat) - T := by
      have := mul_le_mul_of_nonneg_right (Int.le_sub_one_of_lt hj) (Int.natCast_nonneg T)
      push_cast
      linarith
    omega
  · push_cast
    simp
  · have hgap : ((q * T : Nat) : Int) + T ≤ j * (T : Int) := by
      have := mul_le_mul_of_nonneg_right (Int.add_one_le_of_lt hj) (Int.natCast_nonneg T)
      push_cast
      linarith
    omega

-- ---------------------------------------------------------------- the last place and the significand

/-- How far the last place of the rounded number lies above one unit (R151). -/
def placeShift (n k : Nat) : Nat := lastPlace n k - k

/-- The rounded significand, a number of last places (R151). -/
def significand (n k : Nat) : Nat := roundShift n (lastPlace n k)

theorem lastPlace_eq (n k : Nat) : lastPlace n k = placeShift n k + k := by
  unfold placeShift lastPlace
  omega

theorem roundMag_eq (n k : Nat) :
    roundMag n k = min infinityMag (placeShift n k * 2 ^ 23 + significand n k) := rfl

/-- At most the 24 most significant bits stand at or above the last place. -/
theorem lt_lastPlace (n k : Nat) : n < 2 ^ 24 * 2 ^ lastPlace n k := by
  have hlog : n < 2 ^ (Nat.log2 n + 1) := Nat.lt_log2_self
  have hle : 2 ^ (Nat.log2 n + 1) ≤ 2 ^ (24 + lastPlace n k) := by
    refine Nat.pow_le_pow_right (by decide) ?_
    unfold lastPlace
    omega
  rw [← Nat.pow_add]
  omega

/-- Above one unit the last place is that of a number with 24 significant bits. -/
theorem le_of_placeShift_pos {n k : Nat} (h : 0 < placeShift n k) : 2 ^ 23 * 2 ^ lastPlace n k ≤ n := by
  have hplace : lastPlace n k = Nat.log2 n - 23 ∧ 23 ≤ Nat.log2 n := by
    unfold placeShift lastPlace at h
    unfold lastPlace
    omega
  have hne : n ≠ 0 := by
    rintro rfl
    simp at hplace
  rw [hplace.1, ← Nat.pow_add, Nat.add_sub_cancel' hplace.2]
  exact Nat.log2_self_le hne

theorem significand_le (n k : Nat) : significand n k ≤ 2 ^ 24 := by
  have hquot : n / 2 ^ lastPlace n k < 2 ^ 24 := Nat.div_lt_of_lt_mul (by rw [Nat.mul_comm]; exact lt_lastPlace n k)
  obtain h | h := roundShift_cases n (lastPlace n k) <;> rw [significand, h] <;> omega

theorem le_significand {n k : Nat} (h : 0 < placeShift n k) : 2 ^ 23 ≤ significand n k := by
  have hquot : 2 ^ 23 ≤ n / 2 ^ lastPlace n k :=
    (Nat.le_div_iff_mul_le (Nat.two_pow_pos _)).2 (le_of_placeShift_pos h)
  obtain h | h := roundShift_cases n (lastPlace n k) <;> rw [significand, h] <;> omega

/-- A significand `q` of last places `2^t` is the value of the pattern `t * 2^23 + q`: a subnormal, a number with the hidden
bit, or the first one of the next binade (R150). -/
theorem floatUnits_of_significand {t q : Nat} (hq : q ≤ 2 ^ 24) (ht : 0 < t → 2 ^ 23 ≤ q) :
    floatUnits ((t * 2 ^ 23 + q) / 2 ^ 23) ((t * 2 ^ 23 + q) % 2 ^ 23) = q * 2 ^ t := by
  obtain hsub | hnormal | rfl : q < 2 ^ 23 ∨ (2 ^ 23 ≤ q ∧ q < 2 ^ 24) ∨ q = 2 ^ 24 := by omega
  · obtain rfl : t = 0 := by omega
    have hexp : (0 * 2 ^ 23 + q) / 2 ^ 23 = 0 := by omega
    have hfrac : (0 * 2 ^ 23 + q) % 2 ^ 23 = q := by omega
    rw [hexp, hfrac, floatUnits, if_pos rfl, Nat.pow_zero, Nat.mul_one]
  · have hexp : (t * 2 ^ 23 + q) / 2 ^ 23 = t + 1 := by omega
    have hfrac : 2 ^ 23 + (t * 2 ^ 23 + q) % 2 ^ 23 = q := by omega
    rw [hexp, floatUnits, if_neg (by omega), hfrac, Nat.add_sub_cancel]
  · have hexp : (t * 2 ^ 23 + 2 ^ 24) / 2 ^ 23 = t + 2 := by omega
    have hfrac : (t * 2 ^ 23 + 2 ^ 24) % 2 ^ 23 = 0 := by omega
    rw [hexp, hfrac, floatUnits, if_neg (by omega), Nat.add_zero, show t + 2 - 1 = t + 1 by omega, Nat.pow_succ]
    ring

/-- Below infinity the rounded magnitude stands for its significand in last places (R150, R151). -/
theorem f32_roundMag {n k : Nat} (neg : Bool) (h : roundMag n k < infinityMag) :
    f32 (packFloat neg (roundMag n k)) = .finite neg (significand n k * 2 ^ placeShift n k) := by
  have hmag : roundMag n k = placeShift n k * 2 ^ 23 + significand n k := by
    rw [roundMag_eq] at h ⊢
    omega
  rw [f32_packFloat_finite neg h, hmag, floatUnits_of_significand (significand_le n k) le_significand]

/-- In the last binade, with places of `2 * K`, the significand carries over exactly from half a place below on. -/
theorem significand_carries_iff {n k K : Nat} (hK : 0 < K) (hplace : 2 ^ lastPlace n k = 2 * K) :
    2 ^ 24 ≤ significand n k ↔ (2 ^ 25 - 1) * K ≤ n := by
  obtain ⟨hlow, hhigh, heven⟩ := roundShift_spec n (lastPlace n k)
  have hle := significand_le n k
  rw [hplace, ← significand] at *
  generalize significand n k = q at *
  constructor
  · intro hq
    obtain rfl : q = 2 ^ 24 := by omega
    omega
  · intro hn
    by_contra hq
    obtain hodd | hsmall : q = 2 ^ 24 - 1 ∨ q ≤ 2 ^ 24 - 2 := by omega
    · subst hodd
      have := heven (.inl (by omega))
      omega
    · have hprod : q * (2 * K) ≤ (2 ^ 24 - 2) * (2 * K) := Nat.mul_le_mul_right _ hsmall
      omega

/-- Rounding gives infinity exactly from half a last place above the largest finite number on (R151). -/
theorem roundMag_eq_infinityMag_iff (n k : Nat) :
    roundMag n k = infinityMag ↔ (2 ^ 25 - 1) * 2 ^ 252 * 2 ^ k ≤ n := by
  have hmin : roundMag n k = infinityMag ↔ 255 * 2 ^ 23 ≤ placeShift n k * 2 ^ 23 + significand n k := by
    rw [roundMag_eq]
    unfold infinityMag
    omega
  have hle := significand_le n k
  have hK : 0 < 2 ^ (252 + k) := Nat.two_pow_pos _
  have hplace : 2 ^ lastPlace n k = 2 ^ (placeShift n k + k) := by rw [lastPlace_eq]
  rw [hmin, Nat.mul_assoc, ← Nat.pow_add]
  obtain hlow | hlast | hhigh : placeShift n k ≤ 252 ∨ placeShift n k = 253 ∨ 254 ≤ placeShift n k := by omega
  · have hn := lt_lastPlace n k
    have hpow : 2 ^ lastPlace n k ≤ 2 ^ (252 + k) := by
      rw [hplace]
      exact Nat.pow_le_pow_right (by decide) (by omega)
    omega
  · have hpow : 2 ^ lastPlace n k = 2 * 2 ^ (252 + k) := by
      rw [hplace, hlast, ← Nat.pow_succ']
      congr 1
      omega
    rw [← significand_carries_iff hK hpow]
    omega
  · have hn := le_of_placeShift_pos (n := n) (k := k) (by omega)
    have hq := le_significand (n := n) (k := k) (by omega)
    have hpow : 4 * 2 ^ (252 + k) ≤ 2 ^ lastPlace n k := by
      rw [hplace, show 4 = 2 ^ 2 by rfl, ← Nat.pow_add]
      exact Nat.pow_le_pow_right (by decide) (by omega)
    omega

-- ---------------------------------------------------------------- the nearest number

/-- A finite number is a whole number of last places, or it lies below all numbers with that last place. -/
theorem dvd_or_lt_of_floatUnits (e t : Nat) {f : Nat} (hf : f < 2 ^ 23) :
    2 ^ t ∣ floatUnits e f ∨ (0 < t ∧ floatUnits e f < 2 ^ 23 * 2 ^ t) := by
  have hpos : 0 < 2 ^ t := Nat.two_pow_pos t
  unfold floatUnits
  split
  · obtain rfl | ht := Nat.eq_zero_or_pos t
    · exact .inl (one_dvd _)
    · have hle : 2 ^ 23 * 1 ≤ 2 ^ 23 * 2 ^ t := Nat.mul_le_mul_left _ hpos
      exact .inr ⟨ht, by omega⟩
  · obtain hlt | hle := Nat.lt_or_ge (e - 1) t
    · have hpow : 2 * 2 ^ (e - 1) ≤ 2 ^ t := by
        rw [← Nat.pow_succ']
        exact Nat.pow_le_pow_right (by decide) hlt
      have hprod : (2 ^ 23 + f) * 2 ^ (e - 1) < 2 ^ 24 * 2 ^ (e - 1) :=
        Nat.mul_lt_mul_of_pos_right (by omega) (Nat.two_pow_pos _)
      exact .inr ⟨by omega, by omega⟩
    · exact .inl (Dvd.dvd.mul_left (Nat.pow_dvd_pow 2 hle) _)

/-- The rounded magnitude `u` is nearest to `n / 2^k` among the numbers of the magnitude of a finite pattern, taken with
either sign; of two equally near ones its significand is even. -/
theorem significand_nearest (n k e : Nat) {f : Nat} (hf : f < 2 ^ 23) {x : Int} (hx : x.natAbs = floatUnits e f) :
    let u : Int := significand n k * 2 ^ placeShift n k
    ((n : Int) - u * 2 ^ k).natAbs ≤ ((n : Int) - x * 2 ^ k).natAbs ∧
    (x ≠ u → ((n : Int) - u * 2 ^ k).natAbs = ((n : Int) - x * 2 ^ k).natAbs → significand n k % 2 = 0) := by
  intro u
  have hu : u * 2 ^ k = significand n k * 2 ^ lastPlace n k := by
    rw [lastPlace_eq, pow_add]
    ring
  rw [hu]
  obtain hdvd | ⟨hpos, hlt⟩ := dvd_or_lt_of_floatUnits e (placeShift n k) hf
  · obtain ⟨j, rfl⟩ : (2 ^ placeShift n k : Int) ∣ x := by
      rw [← hx] at hdvd
      exact Int.natCast_dvd.2 (by simpa using hdvd)
    have hprod : (2 ^ placeShift n k * j : Int) * 2 ^ k = j * 2 ^ lastPlace n k := by
      rw [lastPlace_eq, pow_add]
      ring
    obtain ⟨hle, heven⟩ := roundShift_nearest n (lastPlace n k) j
    rw [hprod]
    refine ⟨hle, fun hne => heven fun hj => hne ?_⟩
    rw [hj, mul_comm]
    rfl
  · have hn : 2 ^ 23 * 2 ^ lastPlace n k ≤ n := le_of_placeShift_pos hpos
    have hbelow : x * 2 ^ k < (2 ^ 23 * 2 ^ lastPlace n k : Nat) := by
      have hle : x * 2 ^ k ≤ (x.natAbs * 2 ^ k : Nat) := by
        push_cast
        exact mul_le_mul_of_nonneg_right (le_abs_self x) (by positivity)
      have hlt' : x.natAbs * 2 ^ k < 2 ^ 23 * 2 ^ lastPlace n k := by
        rw [lastPlace_eq, Nat.pow_add, ← Nat.mul_assoc, hx]
        exact Nat.mul_lt_mul_of_pos_right hlt (Nat.two_pow_pos k)
      omega
    have hlowest := (roundShift_nearest n (lastPlace n k) (2 ^ 23)).1
    have hcast : ((2 ^ 23 * 2 ^ lastPlace n k : Nat) : Int) = 2 ^ 23 * 2 ^ lastPlace n k := by push_cast; rfl
    rw [← hcast] at hlowest
    have hfar : ((n : Int) - significand n k * 2 ^ lastPlace n k).natAbs < ((n : Int) - x * 2 ^ k).natAbs :=
      lt_of_le_of_lt hlowest (by omega)
    exact ⟨hfar.le, fun _ heq => absurd heq hfar.ne⟩

-- ---------------------------------------------------------------- patterns that are rounded correctly

theorem finiteUnits_eq_some_iff (v : Word) (z : Int) :
    finiteUnits v = some z ↔ ∃ neg u, f32 v = .finite neg u ∧ z = signedUnits neg u := by
  unfold finiteUnits
  cases f32 v <;> simp [eq_comm]

theorem natAbs_signedUnits (neg : Bool) (u : Nat) : (signedUnits neg u).natAbs = u := by
  cases neg <;> simp [signedUnits]

/-- Mirroring both numbers at zero, where `neg` is set, keeps their distance. -/
theorem natAbs_signedUnits_sub_mul (neg : Bool) (n : Nat) (x p : Int) :
    (signedUnits neg n - (if neg then -x else x) * p).natAbs = ((n : Int) - x * p).natAbs := by
  cases neg
  · simp [signedUnits]
  · have hmirror : signedUnits true n - -x * p = -((n : Int) - x * p) := by
      simp only [signedUnits, if_true]
      ring
    rw [if_pos rfl, hmirror, Int.natAbs_neg]

theorem exists_mirrored (neg : Bool) (v : Int) : ∃ x : Int, v = (if neg then -x else x) ∧ x.natAbs = v.natAbs := by
  cases neg
  · exact ⟨v, rfl, rfl⟩
  · exact ⟨-v, by simp, Int.natAbs_neg v⟩

theorem getLsbD_zero_packFloat (neg : Bool) {mag : Nat} (h : mag < 2 ^ 31) (heven : mag % 2 = 0) :
    (packFloat neg mag).getLsbD 0 = false := by
  rw [BitVec.getLsbD, toNat_packFloat neg h, Nat.testBit_zero]
  cases neg
  · simp [heven]
  · simp; omega

theorem finiteUnits_packFloat_roundMag (neg : Bool) {n k : Nat} (h : roundMag n k < infinityMag) :
    finiteUnits (packFloat neg (roundMag n k)) =
      some (signedUnits neg (significand n k * 2 ^ placeShift n k)) :=
  (finiteUnits_eq_some_iff _ _).2 ⟨neg, _, f32_roundMag neg h, rfl⟩

theorem finiteUnits_packFloat_infinityMag (neg : Bool) : finiteUnits (packFloat neg infinityMag) = none := by
  rw [packFloat_infinityMag]
  simp only [finiteUnits, f32_infinityPattern]

theorem infinityMag_lt : infinityMag < 2 ^ 31 := by
  unfold infinityMag
  omega

/-- The pattern of a sign over a rounded magnitude is the one nearest to the exact number (R151). -/
theorem roundsTo_packFloat (neg : Bool) (n k : Nat) :
    RoundsTo (packFloat neg (roundMag n k)) (signedUnits neg n) k := by
  obtain hfin | hinf := (roundMag_le n k).lt_or_eq
  · have hsome := finiteUnits_packFloat_roundMag neg hfin
    refine ⟨fun u hu d v hv => ?nearest, ?threshold, fun hnone => absurd (hnone.symm.trans hsome) (by simp)⟩
    case nearest =>
      cases hsome.symm.trans hu
      obtain ⟨s, w, hw, rfl⟩ := (finiteUnits_eq_some_iff d v).1 hv
      obtain ⟨-, -, hunits⟩ := (f32_eq_finite_iff d s w).1 hw
      obtain ⟨x, hx, habs⟩ := exists_mirrored neg (signedUnits s w)
      rw [natAbs_signedUnits, ← hunits] at habs
      obtain ⟨hle, heven⟩ := significand_nearest n k (floatExponent d) (floatFraction_lt d) habs
      have hcast : signedUnits neg (significand n k * 2 ^ placeShift n k) =
          if neg then -(significand n k * 2 ^ placeShift n k : Int) else significand n k * 2 ^ placeShift n k := by
        simp only [signedUnits]
        push_cast
        rfl
      rw [hx, hcast, natAbs_signedUnits_sub_mul, natAbs_signedUnits_sub_mul]
      refine ⟨hle, fun hne heq => getLsbD_zero_packFloat neg (hfin.trans infinityMag_lt) ?_⟩
      have hsig := heven (fun e => hne (by rw [e])) heq
      rw [roundMag_eq] at hfin ⊢
      omega
    case threshold =>
      rw [natAbs_signedUnits, ← roundMag_eq_infinityMag_iff, hsome]
      simp [hfin.ne]
  · rw [hinf]
    have hnone := finiteUnits_packFloat_infinityMag neg
    have hle := (roundMag_eq_infinityMag_iff n k).1 hinf
    have hpos : 0 < n := lt_of_lt_of_le (by positivity) hle
    refine ⟨fun u hu => absurd (hnone.symm.trans hu) (by simp), ?threshold, fun _ => ?sign⟩
    case threshold =>
      rw [natAbs_signedUnits]
      exact ⟨fun _ => hle, fun _ => hnone⟩
    case sign =>
      rw [packFloat_infinityMag, infinityPattern]
      cases neg
      · simp [signedUnits]
      · simp [signedUnits, hpos]

-- ---------------------------------------------------------------- addition and subtraction

theorem roundMag_zero : roundMag 0 0 = 0 := by decide

/-- A rounded sum is nearest to the exact one; a zero sum takes the sign it is given (R151). -/
theorem roundsTo_roundSum (bothNeg : Bool) (z : Int) : RoundsTo (roundSum bothNeg z) z 0 := by
  unfold roundSum
  split
  · next hz =>
    have hzero : signedUnits bothNeg 0 = z := by
      rw [hz]
      cases bothNeg <;> rfl
    have hround := roundsTo_packFloat bothNeg 0 0
    rwa [roundMag_zero, hzero] at hround
  · next hz =>
    have hsigned : signedUnits (decide (z < 0)) z.natAbs = z := by
      by_cases hneg : z < 0
      · simp only [hneg, decide_true, signedUnits, if_true]
        omega
      · simp only [hneg, decide_false, signedUnits, Bool.false_eq_true, if_false]
        omega
    have hround := roundsTo_packFloat (decide (z < 0)) z.natAbs 0
    rwa [hsigned] at hround

/-- Where both addends are negative and their sum is zero, both are -0.0. -/
theorem zeros_of_sum_eq_zero {s t : Bool} {u v : Nat} (h : signedUnits s u + signedUnits t v = 0) :
    (s && t) = true ↔ (s = true ∧ u = 0) ∧ t = true ∧ v = 0 := by
  cases s <;> cases t <;> simp [signedUnits] at h ⊢
  omega

theorem finite_negZero_iff {a : Word} {s : Bool} {u : Nat} (ha : f32 a = .finite s u) :
    s = true ∧ u = 0 ↔ a = 0x80000000 := by
  rw [← packFloat_true_zero, ← f32_eq_zero_iff, ha, FloatValue.finite.injEq]

theorem finite_posZero_iff {a : Word} {s : Bool} {u : Nat} (ha : f32 a = .finite s u) :
    s = false ∧ u = 0 ↔ a = 0 := by
  rw [← packFloat_false_zero, ← f32_eq_zero_iff, ha, FloatValue.finite.injEq]

/-- The zero that a zero sum gives, where `P` says that both addends are -0.0. -/
theorem roundSum_zero {b : Bool} {z : Int} {P : Prop} [Decidable P] (hz : z = 0) (hP : b = true ↔ P) :
    roundSum b z = if P then 0x80000000 else 0 := by
  rw [roundSum, if_pos hz]
  by_cases h : P
  · rw [if_pos h, hP.2 h, packFloat_true_zero]
  · have hb : b = false := by simpa [h] using hP
    rw [if_neg h, hb, packFloat_false_zero]

/-- Settles O37: subtraction is the addition of the negated number, and `roundSum` rounds the exact sum once. -/
theorem additionIsCorrectlyRounded : Obligations.AdditionIsCorrectlyRounded := by
  intro a b x y hx hy
  obtain ⟨s, u, ha, rfl⟩ := (finiteUnits_eq_some_iff a x).1 hx
  obtain ⟨t, v, hb, rfl⟩ := (finiteUnits_eq_some_iff b y).1 hy
  refine ⟨⟨roundSum (s && t) (signedUnits s u + signedUnits t v), by simp only [fadd, ha, hb, addValues],
    roundsTo_roundSum _ _, fun hz => roundSum_zero hz ?sum⟩,
    ⟨roundSum (s && !t) (signedUnits s u - signedUnits t v), ?difference, roundsTo_roundSum _ _,
      fun hz => roundSum_zero hz ?differenceZero⟩⟩
  case sum =>
    rw [zeros_of_sum_eq_zero hz, finite_negZero_iff ha, finite_negZero_iff hb]
  all_goals
    have hneg : signedUnits (!t) v = -signedUnits t v := by cases t <;> simp [signedUnits]
  case difference =>
    simp only [fsub, f32_floatNegate, ha, hb, FloatValue.negate, addValues, hneg, Int.sub_eq_add_neg]
  case differenceZero =>
    rw [Int.sub_eq_add_neg, ← hneg] at hz
    rw [zeros_of_sum_eq_zero hz, finite_negZero_iff ha, Bool.not_eq_true', finite_posZero_iff hb]

-- ---------------------------------------------------------------- multiplication

theorem signedUnits_mul (s t : Bool) (u v : Nat) :
    signedUnits s u * signedUnits t v = signedUnits (xor s t) (u * v) := by
  cases s <;> cases t <;> simp [signedUnits]

/-- Settles O38: the product of the magnitudes counts units of 2^-298 and is rounded once. -/
theorem multiplicationIsCorrectlyRounded : Obligations.MultiplicationIsCorrectlyRounded := by
  intro a b x y hx hy
  obtain ⟨s, u, ha, rfl⟩ := (finiteUnits_eq_some_iff a x).1 hx
  obtain ⟨t, v, hb, rfl⟩ := (finiteUnits_eq_some_iff b y).1 hy
  obtain ⟨-, hs, -⟩ := (f32_eq_finite_iff a s u).1 ha
  obtain ⟨-, ht, -⟩ := (f32_eq_finite_iff b t v).1 hb
  refine ⟨packFloat (xor s t) (roundMag (u * v) 149), by simp only [fmul, ha, hb, mulValues], ?_, ?_⟩
  · rw [signedUnits_mul]
    exact roundsTo_packFloat _ _ _
  · rw [msb_eq_floatSign, msb_eq_floatSign, msb_eq_floatSign, hs, ht,
      floatSign_packFloat _ ((roundMag_le _ _).trans_lt infinityMag_lt)]

-- ---------------------------------------------------------------- conversion

/-- A number that is a whole number of last places is not changed by rounding. -/
theorem significand_exact {n k : Nat} (h : 2 ^ lastPlace n k ∣ n) : significand n k * 2 ^ lastPlace n k = n := by
  have hmod : n % 2 ^ lastPlace n k = 0 := Nat.mod_eq_zero_of_dvd h
  have hpos : 0 < 2 ^ lastPlace n k := Nat.two_pow_pos _
  rw [significand, roundShift, hmod, if_neg (by omega)]
  exact Nat.div_mul_cancel h

/-- Up to 2^24 a whole number has no bit below its last place. -/
theorem lastPlace_dvd_of_le {n : Nat} (h : n ≤ 2 ^ 24) : 2 ^ lastPlace (n * 2 ^ 149) 0 ∣ n * 2 ^ 149 := by
  obtain rfl | hlt := h.eq_or_lt
  · have hplace : lastPlace (2 ^ 24 * 2 ^ 149) 0 = 150 := by
      rw [lastPlace, ← Nat.pow_add, Nat.log2_two_pow]
      rfl
    rw [hplace, ← Nat.pow_add]
    exact Nat.pow_dvd_pow 2 (by decide)
  · have hplace : lastPlace (n * 2 ^ 149) 0 ≤ 149 := by
      obtain rfl | hne := Nat.eq_zero_or_pos n
      · simp [lastPlace]
      · have hlog : Nat.log2 (n * 2 ^ 149) < 173 := (Nat.log2_lt (by omega)).2 (by omega)
        unfold lastPlace
        omega
    exact Dvd.dvd.mul_left (Nat.pow_dvd_pow 2 hplace) n

/-- Settles O42: the number is a whole number of last places, so that its rounded significand is its value. -/
theorem immediateConversionIsExact : Obligations.ImmediateConversionIsExact := by
  intro n hn
  have hfin : roundMag (n * 2 ^ 149) 0 < infinityMag := by
    refine (roundMag_le _ _).lt_of_ne fun h => ?_
    have := (roundMag_eq_infinityMag_iff _ _).1 h
    omega
  have hplace : placeShift (n * 2 ^ 149) 0 = lastPlace (n * 2 ^ 149) 0 := by rw [lastPlace_eq, Nat.add_zero]
  rw [u2f, f32_roundMag false hfin, hplace, significand_exact (lastPlace_dvd_of_le hn)]

end Sys2Proof.Machine
end

section
/-! PROOFS of the families 42_float_arith.md, third part, and 43_logic_compare.md: what the instructions that write a
result and its flags leave behind (R153, R155 to R160, R170 to R178). -/

namespace Sys2Proof.Machine

-- ---------------------------------------------------------------- a result and its flags

theorem flagsAre_floatFlags (r w : Word) :
    FlagsAre w (floatFlags r w) (floatIsZero r) (floatIsNegative r) false false := by
  refine ⟨?_, ?_, ?_, ?_, fun i h6 h7 h0 h11 => keepsOtherFlags_floatFlags r w i h0 h6 h7 h11⟩ <;>
    rw [getLsbD_floatFlags] <;> rfl

theorem flagsAre_logicFlags (op : LogicOp) (a : Word) (b : Option Word) (r w : Word) :
    FlagsAre w (logicFlags op a b r w) (decide (r = 0)) r.msb (Config.logicCO op a b r).1
      (Config.logicCO op a b r).2 := by
  refine ⟨?_, ?_, ?_, ?_, fun i h6 h7 h0 h11 => keepsOtherFlags_logicFlags op a b r w i h0 h6 h7 h11⟩ <;>
    rw [getLsbD_logicFlags] <;> rfl

/-- The instructions of this kind write a result, then put flags into the FLAGS word that stands after that write (R31);
`k` is the counter of draws that they leave. -/
theorem completesWithFlags_of_exec {i : Instr} {s : State} {d : RegId} {v : Word} {f : Word → Word}
    {z n c o : Bool} {k : Nat} (he : exec i s = .next (({ s with draws := k }.setReg d v).updateFlags f))
    (hf : ∀ w, FlagsAre w (f w) z n c o) : CompletesWithFlags i s d v z n c o k := by
  refine ⟨_, he, fun hd => ?value, ?flags, fun r hr => ?frame, State.SameMemory.refl s, State.SameDriver.refl s, rfl⟩
  case value => rw [State.reg_updateFlags_of_ne _ _ hd, State.reg_setReg_self]
  case flags =>
    rw [State.reg_updateFlags_self, State.reg_setReg]
    by_cases hd : d = .flags
    · rw [if_pos hd, if_pos hd.symm]
      exact hf v
    · rw [if_neg hd, if_neg (Ne.symm hd)]
      exact hf _
  case frame =>
    obtain ⟨hd, hflags⟩ : r ≠ d ∧ r ≠ .flags := by simpa using hr
    rw [State.reg_updateFlags_of_ne _ _ hflags, State.reg_setReg_of_ne _ _ hd]
    rfl

-- ---------------------------------------------------------------- float instructions

theorem floatIsZero_of_isNaN {v : Word} (h : isNaN v = true) : floatIsZero v = false := by
  simp only [floatIsZero, (f32_eq_nan_iff v).2 h]

theorem floatIsNegative_of_isNaN {v : Word} (h : isNaN v = true) : floatIsNegative v = false := by
  simp only [floatIsNegative, (f32_eq_nan_iff v).2 h]

/-- A float instruction with a numeric result writes that result and its flags. -/
theorem completesWithFlags_of_floatInto {i : Instr} {s : State} {op : FloatOp} {d : RegId} {b v : Word}
    (he : exec i s = floatInto op d b s) (hv : floatCompute op (s.reg d) b = .num v) :
    CompletesWithFlags i s d v (floatIsZero v) (floatIsNegative v) false false s.draws := by
  refine completesWithFlags_of_exec (f := floatFlags v) ?_ (flagsAre_floatFlags v)
  rw [he, floatInto, hv]
  rfl

/-- A numeric result is written with its flags, a NaN result draws its pattern (R153, R154). -/
theorem completesFloat_of_floatInto {i : Instr} {s : State} {op : FloatOp} {d : RegId} {b : Word}
    (he : exec i s = floatInto op d b s) : CompletesFloat i s d op (s.reg d) b := by
  unfold CompletesFloat
  cases hv : floatCompute op (s.reg d) b with
  | num v => exact completesWithFlags_of_floatInto he hv
  | nan =>
    have hnan := isNaN_nanPattern (Config.nanDraw s.draws op (s.reg d) b)
    refine ⟨_, hnan, completesWithFlags_of_exec
      (f := floatFlags (nanPattern (Config.nanDraw s.draws op (s.reg d) b))) ?_ fun w => ?_⟩
    · rw [he, floatInto, hv]
      rfl
    · have hflags := flagsAre_floatFlags (nanPattern (Config.nanDraw s.draws op (s.reg d) b)) w
      rwa [floatIsZero_of_isNaN hnan, floatIsNegative_of_isNaN hnan] at hflags

/-- Settles O35: all eight forms are `floatInto` of their operation and second operand. -/
theorem floatInstructionsWriteTheirResult : Obligations.FloatInstructionsWriteTheirResult := fun _ _ _ _ =>
  ⟨completesFloat_of_floatInto rfl, completesFloat_of_floatInto rfl, completesFloat_of_floatInto rfl,
    completesFloat_of_floatInto rfl, completesFloat_of_floatInto rfl, completesFloat_of_floatInto rfl,
    completesFloat_of_floatInto rfl, completesFloat_of_floatInto rfl⟩

/-- Settles O36: the result is the pattern with bit 31 flipped, under the flag policy of every float result. -/
theorem negFlipsTheSignBit : Obligations.NegFlipsTheSignBit := fun d s =>
  completesWithFlags_of_exec (f := floatFlags (floatNegate (s.reg d))) rfl (flagsAre_floatFlags _)

-- ---------------------------------------------------------------- infinite operands

section
variable {b : Word} {t : Bool} {v : Nat} (hb : f32 b = .finite t v) (neg : Bool)
include hb

theorem fadd_infinityPattern_finite : fadd (infinityPattern neg) b = .num (infinityPattern neg) := by
  simp only [fadd, f32_infinityPattern, hb, addValues, packFloat_infinityMag]

theorem fadd_finite_infinityPattern : fadd b (infinityPattern neg) = .num (infinityPattern neg) := by
  simp only [fadd, f32_infinityPattern, hb, addValues, packFloat_infinityMag]

theorem fsub_infinityPattern_finite : fsub (infinityPattern neg) b = .num (infinityPattern neg) := by
  simp only [fsub, f32_infinityPattern, f32_floatNegate, hb, FloatValue.negate, addValues, packFloat_infinityMag]

theorem fsub_finite_infinityPattern : fsub b (infinityPattern neg) = .num (infinityPattern (!neg)) := by
  simp only [fsub, f32_infinityPattern, floatNegate_infinityPattern, hb, addValues, packFloat_infinityMag]

theorem fmul_infinityPattern_finite (hv : v ≠ 0) :
    fmul (infinityPattern neg) b = .num (infinityPattern (xor neg t)) := by
  simp only [fmul, f32_infinityPattern, hb, mulValues, if_neg hv, packFloat_infinityMag]

theorem fmul_finite_infinityPattern (hv : v ≠ 0) :
    fmul b (infinityPattern neg) = .num (infinityPattern (xor t neg)) := by
  simp only [fmul, f32_infinityPattern, hb, mulValues, if_neg hv, packFloat_infinityMag]

end

theorem exists_f32_of_finiteUnits {b : Word} (h : finiteUnits b ≠ none) : ∃ t v, f32 b = .finite t v := by
  obtain ⟨z, hz⟩ := Option.ne_none_iff_exists'.1 h
  obtain ⟨t, v, hb, -⟩ := (finiteUnits_eq_some_iff b z).1 hz
  exact ⟨t, v, hb⟩

theorem f32_floatOne : f32 floatOne = .finite false (2 ^ 149) := by
  refine (f32_eq_finite_iff floatOne false _).2 ⟨by decide, by decide, ?_⟩
  have hexp : floatExponent floatOne = 127 := by decide
  have hfrac : floatFraction floatOne = 0 := by decide
  rw [hexp, hfrac, floatUnits]
  norm_num

/-- INC and DEC leave an infinity as it is; the negative one alone counts as negative (R153, R158). -/
theorem completesWithFlags_infinity {i : Instr} {s : State} {op : FloatOp} {d : RegId} {neg : Bool}
    (he : exec i s = floatInto op d floatOne s)
    (hv : floatCompute op (s.reg d) floatOne = .num (infinityPattern neg)) :
    CompletesWithFlags i s d (infinityPattern neg) false neg false false s.draws := by
  have hzero : floatIsZero (infinityPattern neg) = false := by simp only [floatIsZero, f32_infinityPattern]
  have hneg : floatIsNegative (infinityPattern neg) = neg := by simp only [floatIsNegative, f32_infinityPattern]
  have hflags := completesWithFlags_of_floatInto he hv
  rwa [hzero, hneg] at hflags

/-- Settles O39: the operations by the values of their operands, INC and DEC by the step 1.0, which is finite. -/
theorem infiniteOperandsGiveInfinities : Obligations.InfiniteOperandsGiveInfinities := by
  refine ⟨fun neg neg' b hfin => ?operations, fun neg d s hd => ⟨?inc, ?dec⟩⟩
  case operations =>
    obtain ⟨t, v, hb⟩ := exists_f32_of_finiteUnits hfin
    obtain ⟨-, ht, -⟩ := (f32_eq_finite_iff b t v).1 hb
    refine ⟨fadd_infinityPattern_finite hb neg, fadd_finite_infinityPattern hb neg,
      fsub_infinityPattern_finite hb neg, fsub_finite_infinityPattern hb neg, fun h0 h1 => ?_, ?_, ?_, ?_⟩
    · have hv : v ≠ 0 := by
        rintro rfl
        exact ((exists_f32_eq_zero_iff b).1 ⟨t, hb⟩).elim h0 h1
      rw [msb_eq_floatSign, ht]
      exact ⟨fmul_infinityPattern_finite hb neg hv, fmul_finite_infinityPattern hb neg hv⟩
    · simp only [fadd, f32_infinityPattern, addValues, if_true, packFloat_infinityMag]
    · simp only [fsub, floatNegate_infinityPattern, f32_infinityPattern, Bool.not_not, addValues, if_true,
        packFloat_infinityMag]
    · simp only [fmul, f32_infinityPattern, mulValues, packFloat_infinityMag]
  case inc =>
    exact completesWithFlags_infinity (op := .add) rfl (by rw [hd]; exact fadd_infinityPattern_finite f32_floatOne neg)
  case dec =>
    exact completesWithFlags_infinity (op := .sub) rfl (by rw [hd]; exact fsub_infinityPattern_finite f32_floatOne neg)

-- ---------------------------------------------------------------- counting down

theorem u2f_zero : u2f 0 = 0 := by
  rw [u2f, Nat.zero_mul, roundMag_zero, packFloat_false_zero]

theorem units_eq_zero_iff (n : Nat) : n * 2 ^ 149 = 0 ↔ n = 0 := by
  rw [Nat.mul_eq_zero]
  exact or_iff_left (Nat.two_pow_pos 149).ne'

theorem signedUnits_succ_sub (n p : Nat) :
    signedUnits false ((n + 1) * p) + signedUnits true p = ((n * p : Nat) : Int) := by
  simp only [signedUnits, if_true, Bool.false_eq_true, if_false]
  push_cast
  ring

/-- A sum that is no negative number is rounded with a clear sign. -/
theorem roundSum_natCast (n : Nat) : roundSum false n = packFloat false (roundMag n 0) := by
  unfold roundSum
  split
  · next h =>
    rw [Int.natCast_eq_zero.1 h, roundMag_zero]
  · rw [Int.natAbs_natCast, decide_eq_false (Int.not_lt.2 (Int.natCast_nonneg n))]

/-- The difference of two whole numbers next to each other is a whole number again, so that rounding it is `u2f`. -/
theorem fsub_u2f_succ {n : Nat} (hn : n < 2 ^ 24) : fsub (u2f (n + 1)) floatOne = .num (u2f n) := by
  rw [fsub, f32_floatNegate, f32_floatOne, immediateConversionIsExact (n + 1) hn]
  simp only [FloatValue.negate, addValues, Bool.not_false, Bool.false_and, signedUnits_succ_sub, roundSum_natCast]
  rfl

-- The two tests for any finite value: with `n * 2 ^ 149` in place of `u` the kernel would unfold the product.

theorem floatIsZero_of_finite {v : Word} {neg : Bool} {u : Nat} (h : f32 v = .finite neg u) :
    floatIsZero v = decide (u = 0) := by
  simp only [floatIsZero, h]

theorem floatIsNegative_of_finite {v : Word} {u : Nat} (h : f32 v = .finite false u) : floatIsNegative v = false := by
  simp only [floatIsNegative, h, Bool.false_and]

theorem floatIsZero_u2f {n : Nat} (hn : n ≤ 2 ^ 24) : floatIsZero (u2f n) = decide (n = 0) :=
  (floatIsZero_of_finite (immediateConversionIsExact n hn)).trans (decide_eq_decide.2 (units_eq_zero_iff n))

theorem floatIsNegative_u2f {n : Nat} (hn : n ≤ 2 ^ 24) : floatIsNegative (u2f n) = false :=
  floatIsNegative_of_finite (immediateConversionIsExact n hn)

/-- One DEC takes `(n + 1).0` to `n.0` (R159). -/
theorem completesWithFlags_dec {n : Nat} {d : RegId} {s : State} (hn : n < 2 ^ 24) (hd : s.reg d = u2f (n + 1)) :
    CompletesWithFlags (.dec d) s d (u2f n) (decide (n = 0)) false false false s.draws := by
  have hflags := completesWithFlags_of_floatInto (i := .dec d) (op := .sub) (d := d) (b := floatOne) rfl
    (by rw [hd]; exact fsub_u2f_succ hn)
  rwa [floatIsZero_u2f hn.le, floatIsNegative_u2f hn.le] at hflags

theorem State.SameRegsBut.trans {s t u : State} {l : List RegId} (h : s.SameRegsBut t l) (h' : t.SameRegsBut u l) :
    s.SameRegsBut u l := fun r hr => (h' r hr).trans (h r hr)

theorem State.SameMemory.trans {s t u : State} (h : s.SameMemory t) (h' : t.SameMemory u) : s.SameMemory u :=
  fun a => (h' a).trans (h a)

theorem State.SameDriver.trans {s t u : State} (h : s.SameDriver t) (h' : t.SameDriver u) : s.SameDriver u := by
  obtain ⟨hd, hc, hi, ha, hm, hf⟩ := h
  obtain ⟨hd', hc', hi', ha', hm', hf'⟩ := h'
  exact ⟨hd'.trans hd, hc'.trans hc, hi'.trans hi, ha'.trans ha, hm'.trans hm, hf'.trans hf⟩

/-- The later of two updates of the four condition flags counts. -/
theorem FlagsAre.trans {w w' w'' : Word} {z n c o z' n' c' o' : Bool} (h : FlagsAre w w' z n c o)
    (h' : FlagsAre w' w'' z' n' c' o') : FlagsAre w w'' z' n' c' o' := by
  obtain ⟨-, -, -, -, hkeep⟩ := h
  obtain ⟨hz, hn, hc, ho, hkeep'⟩ := h'
  exact ⟨hz, hn, hc, ho, fun i h6 h7 h0 h11 => (hkeep' i h6 h7 h0 h11).trans (hkeep i h6 h7 h0 h11)⟩

/-- What `k` DEC instructions that count a register down from `n.0` leave behind (R159). -/
structure CountedDown (d : RegId) (n k : Nat) (s t : State) : Prop where
  value : t.reg d = u2f (n - k)
  flags : 0 < k → FlagsAre (s.reg .flags) (t.reg .flags) (decide (k = n)) false false false
  regs : s.SameRegsBut t [d, .flags]
  mem : s.SameMemory t
  driver : s.SameDriver t
  draws : t.draws = s.draws

/-- By induction on `k`: the first DEC takes `n.0` to `(n - 1).0`, from where the others count on. -/
theorem exists_countedDown {d : RegId} (hd : d ≠ .flags) (k : Nat) : ∀ {n : Nat} {s : State}, n ≤ 2 ^ 24 → k ≤ n →
    s.reg d = u2f n → ∃ t, repeatExec (.dec d) k s = .next t ∧ CountedDown d n k s t := by
  induction k with
  | zero =>
    intro n s _ _ hs
    exact ⟨s, rfl, hs, fun h => absurd h (Nat.lt_irrefl 0), State.SameRegsBut.refl s _, State.SameMemory.refl s,
      State.SameDriver.refl s, rfl⟩
  | succ k ih =>
    intro n s hn hk hs
    obtain ⟨m, rfl⟩ : ∃ m, n = m + 1 := ⟨n - 1, by omega⟩
    obtain ⟨u, hexec, hvalue, hflags, hregs, hmem, hdriver, hdraws⟩ := completesWithFlags_dec hn hs
    obtain ⟨t, hrun, ht⟩ := ih (s := u) (Nat.le_of_succ_le hn) (Nat.le_of_succ_le_succ hk) (hvalue hd)
    rw [if_neg hd] at hflags
    refine ⟨t, by simp only [repeatExec, hexec, hrun], ?_, fun _ => ?_, hregs.trans ht.regs, hmem.trans ht.mem,
      hdriver.trans ht.driver, ht.draws.trans hdraws⟩
    · rw [ht.value, Nat.add_sub_add_right]
    · obtain rfl | hpos := Nat.eq_zero_or_pos k
      · cases hrun
        simpa [eq_comm] using hflags
      · simpa using hflags.trans (ht.flags hpos)

/-- Settles O43: one step by `completesWithFlags_dec`, and any number of them by `exists_countedDown`. -/
theorem decCountsDownExactly : Obligations.DecCountsDownExactly := by
  refine ⟨fun n => fsub_u2f_succ, fun n d s => completesWithFlags_dec, fun n k d s hn hk hd hs => ?_⟩
  obtain ⟨t, hrun, ht⟩ := exists_countedDown hd k hn hk hs
  refine ⟨t, hrun, ht.value, fun hall => ?_, ht.flags, ht.regs, ht.mem, ht.driver, ht.draws⟩
  rw [ht.value, hall, Nat.sub_self, u2f_zero]

-- ---------------------------------------------------------------- logic

theorem completesWithFlags_of_logicInto {i : Instr} {s : State} {op : LogicOp} {d : RegId} {b v : Word}
    (he : exec i s = logicInto op d b s) (hv : v = logicResult op (s.reg d) b) :
    CompletesWithFlags i s d v (decide (v = 0)) v.msb (Config.logicCO op (s.reg d) (some b) v).1
      (Config.logicCO op (s.reg d) (some b) v).2 s.draws := by
  subst hv
  exact completesWithFlags_of_exec he (flagsAre_logicFlags _ _ _ _)

/-- Settles O44: NOT by its own meaning, the six forms with two operands as `logicInto`. -/
theorem logicInstructionsWriteTheirResult : Obligations.LogicInstructionsWriteTheirResult := by
  refine fun d r imm s => ⟨?not, ?and, ?or, ?xor⟩
  case not =>
    rintro v rfl
    exact completesWithFlags_of_exec rfl (flagsAre_logicFlags _ _ _ _)
  all_goals
    rintro i b hi v hv
    obtain ⟨rfl, rfl⟩ | ⟨rfl, rfl⟩ := hi <;> exact completesWithFlags_of_logicInto rfl hv

-- ---------------------------------------------------------------- compare

theorem subOverflow_eq_ssubOverflow (a b : Word) : subOverflow a b = BitVec.ssubOverflow a b := by
  rw [BitVec.ssubOverflow_eq, subOverflow, BitVec.msb_and, BitVec.msb_xor, BitVec.msb_xor]
  cases a.msb <;> cases b.msb <;> cases (a - b).msb <;> rfl

/-- The sign rule of the model and the range of the exact difference say the same of a signed overflow (R176). -/
theorem subOverflow_iff (a b : Word) : subOverflow a b = true ↔
    a.toInt - b.toInt < -2 ^ 31 ∨ 2 ^ 31 ≤ a.toInt - b.toInt := by
  rw [subOverflow_eq_ssubOverflow, or_comm]
  simp [BitVec.ssubOverflow]

/-- Without signed overflow the sign of the difference is the signed order (R178). -/
theorem msb_sub_iff_of_no_overflow {a b : Word} (h : subOverflow a b = false) :
    (a - b).msb = true ↔ a.toInt < b.toInt := by
  rw [subOverflow_eq_ssubOverflow, ← Bool.not_eq_true] at h
  rw [BitVec.msb_eq_toInt, BitVec.toInt_sub_of_not_ssubOverflow h, decide_eq_true_eq, sub_neg]

/-- With signed overflow the signs of the operands differ, and the sign of the difference is the opposite of the order. -/
theorem msb_sub_iff_of_overflow {a b : Word} (h : subOverflow a b = true) :
    (a - b).msb = true ↔ b.toInt < a.toInt := by
  rw [subOverflow_eq_ssubOverflow, BitVec.ssubOverflow_eq, BitVec.msb_eq_toInt (x := a), BitVec.msb_eq_toInt (x := b)] at h
  cases hmsb : (a - b).msb <;> simp [hmsb] at h ⊢ <;> omega

theorem ne_of_subOverflow {a b : Word} (h : subOverflow a b = true) : a.toInt ≠ b.toInt := by
  rw [subOverflow_iff] at h
  omega

theorem flagsAre_compareFlags (a b w : Word) : FlagsAre w (compareFlags a b w) (decide (a = b)) (a - b).msb
    (decide (a.toNat < b.toNat)) (decide (a.toInt - b.toInt < -2 ^ 31 ∨ 2 ^ 31 ≤ a.toInt - b.toInt)) := by
  refine ⟨?zero, ?sign, ?carry, ?overflow, fun i h6 h7 h0 h11 => keepsOtherFlags_compareFlags a b w i h0 h6 h7 h11⟩ <;>
    rw [getLsbD_compareFlags]
  case zero => exact decide_eq_decide.2 sub_eq_zero
  case sign => rfl
  case carry => exact decide_eq_decide.2 BitVec.lt_def
  case overflow => exact Bool.eq_iff_iff.2 ((subOverflow_iff a b).trans (decide_eq_true_iff).symm)

/-- A compare is the update of FLAGS alone (R176). -/
theorem completesWithFlags_of_compareWith {i : Instr} {s : State} {d : RegId} {b : Word}
    (he : exec i s = compareWith d b s) :
    CompletesWithFlags i s .flags (s.reg .flags) (decide (s.reg d = b)) (s.reg d - b).msb
      (decide ((s.reg d).toNat < b.toNat))
      (decide ((s.reg d).toInt - b.toInt < -2 ^ 31 ∨ 2 ^ 31 ≤ (s.reg d).toInt - b.toInt)) s.draws := by
  refine completesWithFlags_of_exec (f := compareFlags (s.reg d) b) ?_ (flagsAre_compareFlags _ _)
  have hself : { s with draws := s.draws }.setReg .flags (s.reg .flags) = s := State.setReg_reg_self s .flags
  rw [he, compareWith, hself]

/-- Settles O45: both forms are `compareWith` of their second operand. -/
theorem cmpwSetsTheFlagsOfTheDifference : Obligations.CmpwSetsTheFlagsOfTheDifference := by
  rintro d r imm s i b (⟨rfl, rfl⟩ | ⟨rfl, rfl⟩)
  · exact completesWithFlags_of_compareWith rfl
  · exact completesWithFlags_of_compareWith rfl

-- ---------------------------------------------------------------- jumps after a compare

theorem CompletesAt.congr {i : Instr} {s : State} {p q : Prop} [Decidable p] [Decidable q] {x y : Word}
    (h : CompletesAt i s (if p then x else y)) (hpq : p ↔ q) : CompletesAt i s (if q then x else y) := by
  rwa [if_congr hpq rfl rfl] at h

theorem CompletesAt.congr_not {i : Instr} {s : State} {p q : Prop} [Decidable p] [Decidable q] {x y : Word}
    (h : CompletesAt i s (if p then x else y)) (hpq : p ↔ ¬q) : CompletesAt i s (if q then y else x) := by
  rwa [if_congr hpq rfl rfl, ite_not] at h

/-- Settles O46: the jumps by their conditions in bits of FLAGS, and those bits by the compare. -/
theorem jumpsAfterCompare : Obligations.JumpsAfterCompare := by
  intro d r x s
  obtain ⟨t, hexec, -, ⟨hz, hn, hc, ho, -⟩, -⟩ :=
    completesWithFlags_of_compareWith (i := .cmpwR d r) (s := s) (b := s.reg r) rfl
  refine ⟨t, hexec, ?_⟩
  rintro a b ovf rfl rfl hovf p rfl q rfl
  obtain ⟨hje, hjne, hjgt, hjge, hjlt, hjle, hjs, hjco⟩ :=
    conditionalJumpsReadTheirFlags.2 x t _ _ _ _ hz.symm hn.symm hc.symm ho.symm
  have hequal : decide (s.reg d = s.reg r) = true ↔ (s.reg d).toInt = (s.reg r).toInt := by
    rw [decide_eq_true_iff, BitVec.toInt_inj]
  have hdiffer : decide (s.reg d = s.reg r) = false ↔ (s.reg d).toInt ≠ (s.reg r).toInt := by
    rw [decide_eq_false_iff_not, BitVec.toInt_inj.ne]
  have hclear : (s.reg d - s.reg r).msb = false ↔ ¬(s.reg d - s.reg r).msb = true := by rw [Bool.not_eq_true]
  refine ⟨hje.congr decide_eq_true_iff, hjne.congr_not decide_eq_false_iff_not, fun hno => ?ordered,
    fun hyes => ?reversed, fun hyes => ?borrowOrOverflow, fun hno => ?borrow⟩
  case ordered =>
    have hno' : subOverflow (s.reg d) (s.reg r) = false := by
      rwa [← Bool.not_eq_true, subOverflow_iff, ← hovf]
    have hsign := msb_sub_iff_of_no_overflow hno'
    exact ⟨hjlt.congr (by rw [hdiffer, hsign]; omega), hjs.congr hsign, hjge.congr (by rw [hclear, hsign]; omega),
      hjgt.congr (by rw [hdiffer, hclear, hsign]; omega), hjle.congr (by rw [hequal, hsign]; omega)⟩
  case reversed =>
    have hyes' : subOverflow (s.reg d) (s.reg r) = true := (subOverflow_iff _ _).2 (hovf.1 hyes)
    have hsign := msb_sub_iff_of_overflow hyes'
    have hne := ne_of_subOverflow hyes'
    exact ⟨hjlt.congr_not (by rw [hdiffer, hsign]; omega), hjs.congr_not (by rw [hsign]; omega),
      hjge.congr_not (by rw [hclear, hsign]; omega), hjgt.congr_not (by rw [hdiffer, hclear, hsign]; omega),
      hjle.congr_not (by rw [hequal, hsign]; omega)⟩
  case borrowOrOverflow => rwa [if_pos (.inr (decide_eq_true (hovf.1 hyes)))] at hjco
  case borrow => exact hjco.congr (by rw [decide_eq_true_iff, decide_eq_true_iff, ← hovf]; exact or_iff_left hno)

end Sys2Proof.Machine
end

section
/-! PROOFS of the family 50_assembler.md: the segments of an assembled program, its image, the checks of operands and the
substitution of arguments (R241, R245 to R266). -/

namespace Sys2Proof.Machine

-- ---------------------------------------------------------------- sizes in pass 1

/-- Two layouts with the same counters. -/
def Layout.SameSizes (l k : Layout) : Prop := k.textSize = l.textSize ∧ k.dataSize = l.dataSize

theorem Layout.sameSizes_define (l : Layout) (line : Nat) (name : Ident) (v : Symbol) :
    l.SameSizes (l.define line name v) := by
  unfold Layout.define
  split <;> exact ⟨rfl, rfl⟩

theorem Layout.sameSizes_defineLabel (l : Layout) (line : Nat) (label : Option Ident) :
    l.SameSizes (l.defineLabel line label) := by
  cases label with
  | none => exact ⟨rfl, rfl⟩
  | some n => exact l.sameSizes_define line n _

theorem Layout.sameSizes_checkSection (l : Layout) (line : Nat) (i : Item) :
    l.SameSizes (l.checkSection line i) := by
  unfold Layout.checkSection
  split <;> exact ⟨rfl, rfl⟩

theorem Layout.sameSizes_direct (l : Layout) (line : Nat) (i : Item) : l.SameSizes (l.direct line i) := by
  cases i
  case equ n v => exact l.sameSizes_define line n _
  case textStart | stackStart | stackSize =>
    unfold Layout.direct
    dsimp only
    split <;> exact ⟨rfl, rfl⟩
  all_goals exact ⟨rfl, rfl⟩

/-- A line of pass 1 adds the size of its item to the two counters (R247). -/
theorem Layout.sizes_next (l : Layout) (x : LineItem) :
    (l.next x).textSize = l.textSize + textSizeOf x.item ∧
      (l.next x).dataSize = l.dataSize + dataSizeOf l.dataSize x.item := by
  obtain ⟨ht₁, hd₁⟩ := l.sameSizes_defineLabel x.line x.label
  obtain ⟨ht₂, hd₂⟩ := (l.defineLabel x.line x.label).sameSizes_checkSection x.line x.item
  obtain ⟨ht₃, hd₃⟩ := ((l.defineLabel x.line x.label).checkSection x.line x.item).sameSizes_direct x.line x.item
  simp only [Layout.next, Layout.addSize, ht₃, ht₂, ht₁, hd₃, hd₂, hd₁, and_self]

-- ---------------------------------------------------------------- what pass 2 emits

theorem Except.map_eq_ok_iff {ε α β : Type} {f : α → β} {x : Except ε α} {b : β} :
    x.map f = .ok b ↔ ∃ a, x = .ok a ∧ f a = b := by
  cases x <;> simp [Except.map]

/-- An instruction adds one word to the text, any other item none (R265). -/
theorem length_textOf {m : FlagIdMap} {syms : List (Ident × Nat)} {i : Item} {ws : List Word}
    (h : textOf m syms i = .ok ws) : 4 * ws.length = textSizeOf i := by
  cases i
  case instr name ops =>
    obtain ⟨w, -, rfl⟩ := Except.map_eq_ok_iff.1 h
    rfl
  all_goals
    cases h
    rfl

/-- An item adds as many bytes to the data as pass 1 has counted for it (R237, R265). -/
theorem length_dataOf {syms : List (Ident × Nat)} {c : Nat} {i : Item} {bs : List Byte}
    (h : dataOf syms c i = .ok bs) : bs.length = dataSizeOf c i := by
  cases i
  case word o =>
    obtain ⟨n, -, rfl⟩ := Except.map_eq_ok_iff.1 h
    exact length_leBytes 4 n
  case byte v =>
    obtain ⟨b, -, rfl⟩ := Except.map_eq_ok_iff.1 h
    rfl
  case space | align | bitv =>
    cases h
    exact List.length_replicate
  all_goals
    cases h
    rfl

/-- Where pass 2 has no error, a line adds its words and its bytes in front of those of the lines after it. -/
theorem emit_cons_of_no_errors {m : FlagIdMap} {syms : List (Ident × Nat)} {c : Nat} {x : LineItem}
    {xs : List LineItem} (h : (emit m syms c (x :: xs)).errors = []) :
    ∃ ws bs, textOf m syms x.item = .ok ws ∧ dataOf syms c x.item = .ok bs ∧
      (emit m syms (c + dataSizeOf c x.item) xs).errors = [] ∧
      (emit m syms c (x :: xs)).text = ws ++ (emit m syms (c + dataSizeOf c x.item) xs).text ∧
      (emit m syms c (x :: xs)).data = bs ++ (emit m syms (c + dataSizeOf c x.item) xs).data := by
  cases hw : textOf m syms x.item with
  | error e => simp [emit, hw] at h
  | ok ws =>
    cases hb : dataOf syms c x.item with
    | error e => simp [emit, hw, hb] at h
    | ok bs => exact ⟨ws, bs, rfl, rfl, by simpa [emit, hw, hb] using h, by simp [emit, hw, hb], by simp [emit, hw, hb]⟩

/-- Pass 2 emits what pass 1 has counted, from any layout on. -/
theorem sizes_of_emit {m : FlagIdMap} {syms : List (Ident × Nat)} (xs : List LineItem) : ∀ (l : Layout),
    (emit m syms l.dataSize xs).errors = [] →
    (xs.foldl Layout.next l).textSize = l.textSize + 4 * (emit m syms l.dataSize xs).text.length ∧
      (xs.foldl Layout.next l).dataSize = l.dataSize + (emit m syms l.dataSize xs).data.length := by
  induction xs with
  | nil => exact fun l _ => ⟨rfl, rfl⟩
  | cons x xs ih =>
    intro l h
    obtain ⟨ws, bs, hw, hb, herrors, htext, hdata⟩ := emit_cons_of_no_errors h
    obtain ⟨htextSize, hdataSize⟩ := l.sizes_next x
    rw [← hdataSize] at herrors htext hdata
    obtain ⟨iht, ihd⟩ := ih (l.next x) herrors
    have hwords := length_textOf hw
    have hbytes := length_dataOf hb
    rw [List.foldl_cons, iht, ihd, htext, hdata, List.length_append, List.length_append]
    omega

/-- The word of an instruction line is the canonical word of an instruction (R262). -/
theorem exists_encode_of_assembleInstr {m : FlagIdMap} {syms : List (Ident × Nat)} {name : Ident}
    {ops : List Operand} {w : Word} (h : assembleInstr m syms name ops = .ok w) : ∃ i, encode m i = some w := by
  unfold assembleInstr at h
  cases hop : opcodeNamed name with
  | none => simp [hop] at h
  | some op =>
    cases hi : buildInstr syms name op ops with
    | error e => simp [hop, hi, Except.bind] at h
    | ok i =>
      cases hw : encode m i with
      | none => simp [hop, hi, hw, Except.bind] at h
      | some w' =>
        simp only [hop, hi, hw, Except.bind, Except.ok.injEq] at h
        exact ⟨i, h ▸ hw⟩

theorem exists_encode_of_mem_textOf {m : FlagIdMap} {syms : List (Ident × Nat)} {i : Item} {ws : List Word} {w : Word}
    (h : textOf m syms i = .ok ws) (hw : w ∈ ws) : ∃ i, encode m i = some w := by
  cases i
  case instr name ops =>
    obtain ⟨v, hv, rfl⟩ := Except.map_eq_ok_iff.1 h
    cases List.mem_singleton.1 hw
    exact exists_encode_of_assembleInstr hv
  all_goals
    cases h
    cases hw

/-- Every word of the text is the canonical word of an instruction (R262, R265). -/
theorem exists_encode_of_mem_emit {m : FlagIdMap} {syms : List (Ident × Nat)} {w : Word} (xs : List LineItem) :
    ∀ c, (emit m syms c xs).errors = [] → w ∈ (emit m syms c xs).text → ∃ i, encode m i = some w := by
  induction xs with
  | nil => exact fun c _ hw => absurd hw (by simp [emit])
  | cons x xs ih =>
    intro c h hw
    obtain ⟨ws, bs, hws, -, herrors, htext, -⟩ := emit_cons_of_no_errors h
    rw [htext, List.mem_append] at hw
    obtain hw | hw := hw
    · exact exists_encode_of_mem_textOf hws hw
    · exact ih _ herrors hw

-- ---------------------------------------------------------------- the layout of an assembled program

/-- The segments pass the checks of R251. -/
structure SegmentsFit (size : Nat) (l : Layout) (g : Segments) : Prop where
  text : g.textStart < size
  stackStart : 0 ≤ g.stackStart ∧ g.stackStart < size
  stackStop : g.stackStart + g.stackSize ≤ size
  data : 0 ≤ g.dataStart
  textStop : (g.textStart : Int) + l.textSize ≤ g.dataStart

theorem segmentsFit_of_no_faults {size : Nat} {l : Layout} {g : Segments} (h : layoutFaults size l g = []) :
    SegmentsFit size l g := by
  simp only [layoutFaults, List.append_eq_nil_iff] at h
  obtain ⟨⟨⟨htext, hstack⟩, hdata⟩, hoverlap⟩ := h
  obtain ⟨hlow, hhigh, hstop⟩ := of_not_not fun hn => absurd ((if_neg hn).symm.trans hstack) (by simp)
  exact ⟨of_not_not fun hn => absurd ((if_neg hn).symm.trans htext) (by simp), ⟨hlow, hhigh⟩, hstop,
    of_not_not fun hn => absurd ((if_neg hn).symm.trans hdata) (by simp),
    of_not_not fun hn => absurd ((if_neg hn).symm.trans hoverlap) (by simp)⟩

/-- What pass 2 emits for the items of a program, with the symbols of pass 1. -/
def emittedOf (size : MemSize) (m : FlagIdMap) (xs : List LineItem) : Emitted :=
  emit m (symbolTable (layoutOf xs) (segmentsOf size.bytes (layoutOf xs))) 0 xs

theorem sizes_of_emittedOf {size : MemSize} {m : FlagIdMap} {xs : List LineItem}
    (h : (emittedOf size m xs).errors = []) :
    (layoutOf xs).textSize = 4 * (emittedOf size m xs).text.length ∧
      (layoutOf xs).dataSize = (emittedOf size m xs).data.length := by
  obtain ⟨htext, hdata⟩ := sizes_of_emit xs Layout.empty h
  exact ⟨htext.trans (Nat.zero_add _), hdata.trans (Nat.zero_add _)⟩

/-- What the two passes over the items of a program without errors have found (R245 to R265). -/
structure Assembled (size : MemSize) (m : FlagIdMap) (xs : List LineItem) (p : AssembledProgram) : Prop where
  fit : SegmentsFit size.bytes (layoutOf xs) (segmentsOf size.bytes (layoutOf xs))
  noErrors : (emittedOf size m xs).errors = []
  text : p.text = (emittedOf size m xs).text
  data : p.data = (emittedOf size m xs).data
  textStart : p.textStart = (segmentsOf size.bytes (layoutOf xs)).textStart
  dataStart : p.dataStart = (segmentsOf size.bytes (layoutOf xs)).dataStart.toNat
  stackStart : p.stackStart = (segmentsOf size.bytes (layoutOf xs)).stackStart.toNat
  stackSize : p.stackSize = (segmentsOf size.bytes (layoutOf xs)).stackSize

theorem assembled_of_assembleItems {size : MemSize} {m : FlagIdMap} {xs : List LineItem} {p : AssembledProgram}
    (h : assembleItems size m xs = .ok p) : Assembled size m xs p := by
  unfold assembleItems at h
  dsimp only at h
  split at h
  · next hlayout =>
    split at h
    · next hemit =>
      cases h
      rw [List.isEmpty_iff, List.append_eq_nil_iff, List.map_eq_nil_iff] at hlayout
      exact ⟨segmentsFit_of_no_faults hlayout.2, List.isEmpty_iff.1 hemit, rfl, rfl, rfl, rfl, rfl, rfl⟩
    · cases h
  · cases h

theorem exists_assembled {size : MemSize} {m : FlagIdMap} {src : List Char} {p : AssembledProgram}
    (h : assemble size m src = .ok p) : ∃ xs, Assembled size m xs p := by
  unfold assemble at h
  split at h
  · exact ⟨_, assembled_of_assembleItems h⟩
  · cases h

theorem Assembled.layout {size : MemSize} {m : FlagIdMap} {xs : List LineItem} {p : AssembledProgram}
    (h : Assembled size m xs p) :
    p.textStart + 4 * p.text.length ≤ p.dataStart ∧ p.dataStart + p.data.length = p.stackStart ∧
    p.stackStart + p.stackSize ≤ size.bytes ∧ p.textStart < size.bytes ∧ p.stackStart < size.bytes := by
  obtain ⟨htextSize, hdataSize⟩ := sizes_of_emittedOf h.noErrors
  obtain ⟨htext, ⟨hlow, hhigh⟩, hstop, hdata, htextStop⟩ := h.fit
  have hdataStart : (segmentsOf size.bytes (layoutOf xs)).dataStart =
    (segmentsOf size.bytes (layoutOf xs)).stackStart - (layoutOf xs).dataSize := rfl
  rw [h.text, h.data, h.textStart, h.dataStart, h.stackStart, h.stackSize]
  omega

/-- Settles O54: pass 2 fills the segments that pass 1 has checked. -/
theorem assembledSegmentsFit : Obligations.AssembledSegmentsFit := by
  intro size m src p h
  obtain ⟨xs, hxs⟩ := exists_assembled h
  exact hxs.layout

/-- Settles O55: the segments of the program lie apart inside memory, so that the loader takes them as they are. -/
theorem assembledProgramsLoad : Obligations.AssembledProgramsLoad := by
  intro size m src p h
  obtain ⟨xs, hxs⟩ := exists_assembled h
  obtain ⟨htext, hdata, hstack, htextStart, hstackStart⟩ := hxs.layout
  obtain ⟨htaken, hstate⟩ := resetLoadLeavesTheResetState (p.loadRequest size m)
  obtain ⟨hlow, hhigh, hmod⟩ := size.legal
  obtain ⟨s, hs⟩ := htaken.2 ⟨hlow, hhigh, hmod, htextStart, hstackStart,
    (show p.textStart + 4 * p.text.length ≤ size.bytes by omega),
    .inr (show p.dataStart + p.data.length ≤ size.bytes by omega)⟩
  obtain ⟨hinv, hpc, hsp, -, -, -, -, -, -, -, hbytes, hwords, -⟩ := hstate s hs
  refine ⟨s, hs, hinv, hpc, hsp, fun k hk => ⟨wordAt_of_holdsWord (hwords k hk fun j _ hj => ?_), ?_⟩, hbytes⟩
  · exact .inl (show p.textStart + j < p.dataStart by omega)
  · have hmem : p.text[k] ∈ (emittedOf size m xs).text := by
      rw [← hxs.text]
      exact List.getElem_mem hk
    obtain ⟨i, hi⟩ := exists_encode_of_mem_emit xs 0 hxs.noErrors hmem
    exact ⟨i, decode_of_encode hi, hi⟩

-- ---------------------------------------------------------------- one instruction line

section
variable {m : FlagIdMap} {syms : List (Ident × Nat)} {op : Opcode} {ops : List Operand}

theorem assembleInstr_of_build {i : Instr} {w : Word} (hi : buildInstr syms (Opcode.text op) op ops = .ok i)
    (hw : encode m i = some w) : assembleInstr m syms (Opcode.text op) ops = .ok w := by
  simp only [assembleInstr, opcodeNamed_text, hi, Except.bind, hw]

theorem assembleInstr_of_build_error {e : AsmFault} (he : buildInstr syms (Opcode.text op) op ops = .error e) :
    assembleInstr m syms (Opcode.text op) ops = .error e := by
  simp only [assembleInstr, opcodeNamed_text, he, Except.bind]

end

/-- The two ways to write a value, as a number or as a label, give that value (R260, R261). -/
theorem valueOf_eq {syms : List (Ident × Nat)} {n : Nat} {o : Operand} (name : Ident)
    (h : o = .imm n ∨ ∃ l l', o = .label l ∧ syms.find? (fun p => p.1 == l) = some (l', n)) :
    valueOf syms name o = .ok n := by
  obtain rfl | ⟨l, l', rfl, hl⟩ := h
  · rfl
  · simp only [valueOf, hl]

/-- The two ways to write an address, in brackets or as a label, give that address (R260, R261). -/
theorem addressOf_eq {syms : List (Ident × Nat)} {n : Nat} {o : Operand} (name : Ident)
    (h : o = .address n ∨ ∃ l l', o = .label l ∧ syms.find? (fun p => p.1 == l) = some (l', n)) :
    addressOf syms name o = .ok n := by
  obtain rfl | ⟨l, l', rfl, hl⟩ := h
  · rfl
  · simp only [addressOf, valueOf, hl]

/-- A jump takes what an address takes, and a bare number too (R260). -/
theorem targetOf_eq {syms : List (Ident × Nat)} {n : Nat} {o x : Operand} (name : Ident)
    (h : o = .address n ∨ ∃ l l', o = .label l ∧ syms.find? (fun p => p.1 == l) = some (l', n))
    (hx : x ∈ [o, .imm n]) : targetOf syms name x = .ok n := by
  obtain rfl | rfl : x = o ∨ x = .imm n := by simpa using hx
  · obtain rfl | ⟨l, l', rfl, hl⟩ := h
    · rfl
    · simp only [targetOf, valueOf, hl]
  · rfl

-- ---------------------------------------------------------------- the formats with a value

section
variable {syms : List (Ident × Nat)} {name : Ident} {n : Nat} {o : Operand} (hv : valueOf syms name o = .ok n)
include hv

theorem buildRI_of_value (mk : RegId → BitVec 16 → Instr) (d : RegId) :
    buildRI syms name mk [.reg d, o] = (fit 16 n).map (mk d) := by
  simp only [buildRI, hv, Except.bind]

/-- What has a value is no register, so that it is the immediate form (R260). -/
theorem buildRM_of_value (mkR : RegId → RegId → Instr) (mkI : RegId → BitVec 16 → Instr) (d : RegId) :
    buildRM syms name mkR mkI [.reg d, o] = (fitEven n).map (mkI d) := by
  cases o
  case reg => cases hv
  all_goals simp only [buildRM, hv, Except.bind]

theorem buildPM_of_value (mkR : RegId → Instr) (mkI : BitVec 16 → Instr) :
    buildPM syms name mkR mkI [o] = (fitEven n).map mkI := by
  cases o
  case reg => cases hv
  all_goals simp only [buildPM, hv, Except.bind]

theorem buildAI_of_value (mk : BitVec 8 → BitVec 16 → Instr) {a : Nat} {p : Operand} {a8 : BitVec 8}
    (ha : addressOf syms name p = .ok a) (hfit : fit 8 a = .ok a8) :
    buildAI syms name mk [p, o] = (fit 16 n).map (mk a8) := by
  simp only [buildAI, ha, hfit, hv, Except.bind]

theorem buildAM_of_value (mkR : BitVec 8 → RegId → Instr) (mkI : BitVec 8 → BitVec 16 → Instr) {a : Nat} {p : Operand}
    {a8 : BitVec 8} (ha : addressOf syms name p = .ok a) (hfit : fit 8 a = .ok a8) :
    buildAM syms name mkR mkI [p, o] = (fitEven n).map (mkI a8) := by
  cases o
  case reg => cases hv
  all_goals simp only [buildAM, ha, hfit, hv, Except.bind]

end

theorem evenImm_ofNat {n : Nat} (h : n % 2 = 0) : evenImm (BitVec.ofNat 16 n) = true := by
  have hbit : (BitVec.ofNat 16 n).getLsbD 0 = false := by
    rw [BitVec.getLsbD_ofNat, Nat.testBit_zero, h]
    rfl
  rw [evenImm, hbit, Bool.not_false]

section
variable {m : FlagIdMap} {syms : List (Ident × Nat)} {op : Opcode} {ops : List Operand} {n : Nat}
  {mk : BitVec 16 → Instr} {w : Word}

/-- A form with any 16-bit value takes exactly the values up to 0xFFFF (R263). -/
theorem assembleInstr_of_fit (hb : buildInstr syms (Opcode.text op) op ops = (fit 16 n).map mk)
    (hw : encode m (mk (BitVec.ofNat 16 n)) = some w) :
    (n ≤ 0xFFFF → assembleInstr m syms (Opcode.text op) ops = .ok w) ∧
      (0xFFFF < n → assembleInstr m syms (Opcode.text op) ops = .error (.tooWide 16 n)) := by
  refine ⟨fun hn => assembleInstr_of_build (hb.trans ?_) hw, fun hn => assembleInstr_of_build_error (hb.trans ?_)⟩
  · rw [fit_of_lt (by omega)]
    rfl
  · rw [fit_of_le (by omega)]
    rfl

/-- A form with a mode bit takes exactly the even values up to 0xFFFF (R263, D30). -/
theorem assembleInstr_of_fitEven (hb : buildInstr syms (Opcode.text op) op ops = (fitEven n).map mk)
    (hw : n % 2 = 0 → encode m (mk (BitVec.ofNat 16 n)) = some w) :
    (n ≤ 0xFFFF → n % 2 = 0 → assembleInstr m syms (Opcode.text op) ops = .ok w) ∧
      (n ≤ 0xFFFF → n % 2 = 1 → assembleInstr m syms (Opcode.text op) ops = .error (.oddImmediate n)) ∧
      (0xFFFF < n → assembleInstr m syms (Opcode.text op) ops = .error (.tooWide 16 n)) := by
  refine ⟨fun hn he => assembleInstr_of_build (hb.trans ?_) (hw he),
    fun hn ho => assembleInstr_of_build_error (hb.trans ?_), fun hn => assembleInstr_of_build_error (hb.trans ?_)⟩
  · rw [fitEven_of_even (by omega) he]
    rfl
  · rw [fitEven_of_odd (by omega) ho]
    rfl
  · rw [fitEven_of_le (by omega)]
    rfl

end

/-- Settles O56: every form is its format with the value, and `assembleInstr_of_fit` or `assembleInstr_of_fitEven` says
what that takes. -/
theorem assemblerChecksWidths : Obligations.AssemblerChecksWidths := by
  intro m syms d a n o ha ho
  have haddr : fit 8 a = .ok (BitVec.ofNat 8 a) := fit_of_lt (by omega)
  have hstri := assembleInstr_of_fit (m := m) (syms := syms) (op := .stri) (ops := [.address a, o])
    (buildAI_of_value (valueOf_eq _ ho) .stri (p := .address a) rfl haddr) rfl
  have hstrw := assembleInstr_of_fitEven (m := m) (op := .strw)
    (buildAM_of_value (valueOf_eq _ ho) .strwR .strwI (p := .address a) rfl haddr)
    (fun he => if_pos (evenImm_ofNat he))
  have hpush := assembleInstr_of_fitEven (m := m) (op := .push) (buildPM_of_value (valueOf_eq _ ho) .pushR .pushI)
    (fun he => if_pos (evenImm_ofNat he))
  refine ⟨fun op hop => ?twoForms, hstri.1, hstri.2, fun op hop => ?registerMode, hstrw.1, hstrw.2.1, hstrw.2.2,
    hpush.1, hpush.2.1, hpush.2.2⟩
  case twoForms =>
    obtain rfl | rfl : op = .movi ∨ op = .lodi := by simpa using hop
    · exact assembleInstr_of_fit (op := .movi) (buildRI_of_value (valueOf_eq _ ho) .movi d) rfl
    · exact assembleInstr_of_fit (op := .lodi) (buildRI_of_value (valueOf_eq _ ho) .lodi d) rfl
  case registerMode =>
    obtain ⟨⟨op, mkR, mkI⟩, hmem, rfl⟩ := List.mem_map.1 hop
    have row := registerModeRow_of_mem hmem
    exact assembleInstr_of_fitEven ((row.build _ _ _).trans (buildRM_of_value (valueOf_eq _ ho) mkR mkI d))
      fun he => row.encodeImmediate m d _ (evenImm_ofNat he)

-- ---------------------------------------------------------------- the formats with an address

section
variable {syms : List (Ident × Nat)} {name : Ident} {n : Nat} {o p : Operand} (ha : addressOf syms name o = .ok n)
include ha

theorem buildRA_of_address (mk : RegId → BitVec 16 → Instr) (d : RegId) :
    buildRA syms name mk [.reg d, o] = (fit 16 n).map (mk d) := by
  simp only [buildRA, ha, Except.bind]

theorem buildAI_of_wide_address (mk : BitVec 8 → BitVec 16 → Instr) (hn : 2 ^ 8 ≤ n) :
    buildAI syms name mk [o, p] = .error (.tooWide 8 n) := by
  simp only [buildAI, ha, fit_of_le hn, Except.bind]

theorem buildAM_of_register (mkR : BitVec 8 → RegId → Instr) (mkI : BitVec 8 → BitVec 16 → Instr) (d : RegId)
    (hn : n < 2 ^ 8) : buildAM syms name mkR mkI [o, .reg d] = .ok (mkR (BitVec.ofNat 8 n) d) := by
  simp only [buildAM, ha, fit_of_lt hn, Except.bind, Except.map]

theorem buildAM_of_wide_address (mkR : BitVec 8 → RegId → Instr) (mkI : BitVec 8 → BitVec 16 → Instr)
    (hn : 2 ^ 8 ≤ n) : buildAM syms name mkR mkI [o, p] = .error (.tooWide 8 n) := by
  cases p
  case reg => simp only [buildAM, ha, fit_of_le hn, Except.bind, Except.map]
  all_goals simp only [buildAM, ha, fit_of_le hn, Except.bind]

end

theorem buildJ_of_target {syms : List (Ident × Nat)} {name : Ident} {n : Nat} {x : Operand}
    (hx : targetOf syms name x = .ok n) (mk : BitVec 24 → Instr) : buildJ syms name mk [x] = (fit 24 n).map mk := by
  simp only [buildJ, hx, Except.bind]

/-- What the rows of an opcode of format J have in common (R99, R260). -/
structure TargetRow (op : Opcode) (mk : BitVec 24 → Instr) : Prop where
  build : ∀ syms name ops, buildInstr syms name op ops = buildJ syms name mk ops
  encode : ∀ m t, encode m (mk t) = some (packTarget op t)

theorem exists_targetRow_of_mem {op : Opcode}
    (h : op ∈ [Opcode.jmp, .call, .je, .jne, .jgt, .jge, .jlt, .jle, .js, .jco]) : ∃ mk, TargetRow op mk := by
  cases op
  case jmp => exact ⟨.jmp, fun _ _ _ => rfl, fun _ _ => rfl⟩
  case call => exact ⟨.call, fun _ _ _ => rfl, fun _ _ => rfl⟩
  case je => exact ⟨.je, fun _ _ _ => rfl, fun _ _ => rfl⟩
  case jne => exact ⟨.jne, fun _ _ _ => rfl, fun _ _ => rfl⟩
  case jgt => exact ⟨.jgt, fun _ _ _ => rfl, fun _ _ => rfl⟩
  case jge => exact ⟨.jge, fun _ _ _ => rfl, fun _ _ => rfl⟩
  case jlt => exact ⟨.jlt, fun _ _ _ => rfl, fun _ _ => rfl⟩
  case jle => exact ⟨.jle, fun _ _ _ => rfl, fun _ _ => rfl⟩
  case js => exact ⟨.js, fun _ _ _ => rfl, fun _ _ => rfl⟩
  case jco => exact ⟨.jco, fun _ _ _ => rfl, fun _ _ => rfl⟩
  all_goals exact absurd h (by decide)

/-- A jump takes exactly the targets up to 0xFFFFFF (R263). -/
theorem TargetRow.assembleInstr_eq {op : Opcode} {mk : BitVec 24 → Instr} (row : TargetRow op mk) {m : FlagIdMap}
    {syms : List (Ident × Nat)} {n : Nat} {x : Operand} (hx : targetOf syms (Opcode.text op) x = .ok n) :
    (n ≤ 0xFFFFFF → assembleInstr m syms (Opcode.text op) [x] = .ok (packTarget op (BitVec.ofNat 24 n))) ∧
      (0xFFFFFF < n → assembleInstr m syms (Opcode.text op) [x] = .error (.tooWide 24 n)) := by
  have hb := (row.build syms (Opcode.text op) [x]).trans (buildJ_of_target hx mk)
  refine ⟨fun hn => assembleInstr_of_build (hb.trans ?_) (row.encode m _),
    fun hn => assembleInstr_of_build_error (hb.trans ?_)⟩
  · rw [fit_of_lt (by omega)]
    rfl
  · rw [fit_of_le (by omega)]
    rfl

/-- Settles O57: every form is its format with the address, and the address fits its field or is the width error. -/
theorem assemblerChecksAddressWidths : Obligations.AssemblerChecksAddressWidths := by
  intro m syms d n o p ho
  refine ⟨fun hn v hv => ?stri, fun hn => ?striWide, fun hn => ?strw, fun hn => ?strwWide, ?lodw, ?lodwWide,
    fun op hop x hx => ?target, fun c => ⟨fun hn => ?byte, fun hn => ?byteWide⟩⟩
  case stri =>
    exact (assembleInstr_of_fit (syms := syms) (op := .stri) (ops := [o, .imm v])
      (buildAI_of_value (o := .imm v) rfl .stri (addressOf_eq _ ho) (fit_of_lt (by omega))) rfl).1 hv
  case striWide =>
    exact assembleInstr_of_build_error (op := .stri) (buildAI_of_wide_address (addressOf_eq _ ho) .stri (by omega))
  case strw =>
    exact assembleInstr_of_build (op := .strw)
      (buildAM_of_register (addressOf_eq _ ho) .strwR .strwI d (by omega)) rfl
  case strwWide =>
    exact assembleInstr_of_build_error (op := .strw)
      (buildAM_of_wide_address (addressOf_eq _ ho) .strwR .strwI (by omega))
  case lodw =>
    exact (assembleInstr_of_fit (syms := syms) (op := .lodw) (ops := [.reg d, o])
      (buildRA_of_address (addressOf_eq _ ho) .lodw d) rfl).1
  case lodwWide =>
    exact (assembleInstr_of_fit (syms := syms) (op := .lodw) (ops := [.reg d, o])
      (buildRA_of_address (addressOf_eq _ ho) .lodw d)
      (w := packImm .lodw d.code (BitVec.ofNat 16 n)) rfl).2
  case target =>
    obtain ⟨mk, row⟩ := exists_targetRow_of_mem hop
    exact row.assembleInstr_eq (targetOf_eq _ ho hx)
  case byte =>
    rw [dataOf, fit_of_lt (by omega)]
    rfl
  case byteWide =>
    rw [dataOf, fit_of_le (by omega)]
    rfl

-- ---------------------------------------------------------------- arguments in the place of parameters

/-- With two parameters, the label of the first stands for the first operand, that of the second for the second. -/
theorem substitute_two (p q : Ident) (x y o : Operand) :
    substitute [p, q] [x, y] o = if o = .label p then x else if o = .label q then y else o := by
  cases o
  case label n =>
    simp only [substitute, List.zip_cons_cons, List.zip_nil_left, List.find?_cons, Operand.label.injEq]
    by_cases hp : p = n
    · simp [hp]
    · have hpn : (p == n) = false := beq_eq_false_iff_ne.2 hp
      by_cases hq : q = n
      · simp [hpn, Ne.symm hp, hq]
      · have hqn : (q == n) = false := beq_eq_false_iff_ne.2 hq
        simp [hpn, hqn, Ne.symm hp, Ne.symm hq]
  all_goals simp [substitute]

/-- Settles O58: a call without a label is replaced by the commands of the body, each with its operands substituted. -/
theorem macroArgumentsAreSubstituted : Obligations.MacroArgumentsAreSubstituted := by
  intro ms c line name p q x y body _ hfind hops hlabel
  have hexpand : expandCommand ms c = .ok (body.map (cloneCommand c.line [p, q] [x, y])) := by
    simp [expandCommand, hfind, hops, labelOnly, hlabel]
  refine ⟨_, hexpand, List.length_map _, fun k _ _ => ?_⟩
  rw [List.getElem_map]
  exact ⟨rfl, List.map_congr_left fun o _ => substitute_two p q x y o⟩

end Sys2Proof.Machine
end
